-- ==== Sys2Proof/Word.lean ====
section
/-! DEFINITION. The word types of the sequencer and nothing else (00_scope.md rule R8: the word, every
register, every address, every count and every descriptor field is 32 bits; rule R10: all values are unsigned and
`+`, `-` wrap modulo 2^32, which is `BitVec` arithmetic). -/

namespace Sys2Proof

/-- A byte of the byte-addressed space (20_memory.md rule R60). -/
abbrev Byte := BitVec 8

/-- A 32-bit word: a register, a transferred word, a count or a descriptor field (00_scope.md rule R8). -/
abbrev Word := BitVec 32

/-- A 32-bit byte address of the one address space (20_memory.md rule R60). -/
abbrev Addr := BitVec 32

end Sys2Proof
end

