-- ==== Sys2Proof/Syntax.lean ====
section
/-! DEFINITION. The instructions: one constructor of `Instr` for each of the 44 rows of spec/opcode_table.json, in the
table's order. The instructions of the sequencer are the register-access commands that a bus master issues to the
256-byte register window, and the two-word descriptors that the control-transfer engine fetches
(00_scope.md rule R2, 30_encoding.md rules R111 and R113). -/

namespace Sys2Proof

/-- The two transfer engines. They have one register layout and one behaviour (00_scope.md rule R3); engine 0 plays
the CTE role and engine 1 the DTE role in every named configuration, by configuration only. -/
inductive Engine where
  | e0
  | e1
deriving DecidableEq, Repr, Inhabited

/-- Who issues a register access: the host, or an engine through its bus (00_scope.md rule R11). -/
inductive Master where
  | host
  | engine (e : Engine)
deriving DecidableEq, Repr

/-- The direction bit `W` of a command with the data word a write carries (30_encoding.md rule R111). Only the
reserved rows, which cover both directions, hold one. -/
inductive Access where
  | read
  | write (v : Word)
deriving DecidableEq, Repr

/-- One constructor per row of spec/opcode_table.json. `e` is the engine (`off[6]`), `v` the 32-bit data word of a
write, `m` the master of a write (the operands that 40_host_register_access.md rules R146 to R184 name); a read has no
master among its operands. `g` is the low part of the global index that a reserved row leaves open. A descriptor holds
the words of 30_encoding.md rule R113. -/
inductive Instr where
  -- channel register writes, rules R146 to R161
  | wrReadAddr (e : Engine) (v : Word) (m : Master)
  | wrWriteAddr (e : Engine) (v : Word) (m : Master)
  | wrTransCount (e : Engine) (v : Word) (m : Master)
  | wrCtrlTrig (e : Engine) (v : Word) (m : Master)
  | wrAl1Ctrl (e : Engine) (v : Word) (m : Master)
  | wrAl1ReadAddr (e : Engine) (v : Word) (m : Master)
  | wrAl1WriteAddr (e : Engine) (v : Word) (m : Master)
  | wrAl1TransCountTrig (e : Engine) (v : Word) (m : Master)
  | wrAl2Ctrl (e : Engine) (v : Word) (m : Master)
  | wrAl2TransCount (e : Engine) (v : Word) (m : Master)
  | wrAl2ReadAddr (e : Engine) (v : Word) (m : Master)
  | wrAl2WriteAddrTrig (e : Engine) (v : Word) (m : Master)
  | wrAl3Ctrl (e : Engine) (v : Word) (m : Master)
  | wrAl3WriteAddr (e : Engine) (v : Word) (m : Master)
  | wrAl3TransCount (e : Engine) (v : Word) (m : Master)
  | wrAl3ReadAddrTrig (e : Engine) (v : Word) (m : Master)
  -- channel register reads, rules R162 to R177
  | rdReadAddr (e : Engine)
  | rdWriteAddr (e : Engine)
  | rdTransCount (e : Engine)
  | rdCtrlTrig (e : Engine)
  | rdAl1Ctrl (e : Engine)
  | rdAl1ReadAddr (e : Engine)
  | rdAl1WriteAddr (e : Engine)
  | rdAl1TransCountTrig (e : Engine)
  | rdAl2Ctrl (e : Engine)
  | rdAl2TransCount (e : Engine)
  | rdAl2ReadAddr (e : Engine)
  | rdAl2WriteAddrTrig (e : Engine)
  | rdAl3Ctrl (e : Engine)
  | rdAl3WriteAddr (e : Engine)
  | rdAl3TransCount (e : Engine)
  | rdAl3ReadAddrTrig (e : Engine)
  -- global registers, rules R178 to R183
  | rdIntr
  | wrIntr (v : Word) (m : Master)
  | rdStart
  | wrStart (v : Word) (m : Master)
  | rdBusy
  | wrBusy (v : Word)
  -- the reserved range, rule R184: offset 0x8C, then 0x90 + 4g, 0xA0 + 4g, 0xC0 + 4g
  | reserved8C (d : Access)
  | reserved90 (g : BitVec 2) (d : Access)
  | reservedA0 (g : BitVec 3) (d : Access)
  | reservedC0 (g : BitVec 4) (d : Access)
  -- descriptors, rules R113 and R280
  | descData (transferCount : Word) (sourceAddress : Word)
  | descSentinel (sourceAddress : Word)
deriving DecidableEq, Repr

end Sys2Proof
end

