-- ==== Sys2Proof/Config.lean ====
section
/-! DEFINITION. What the platform fixes (the parameters of 00_scope.md rule R9) and the one free value of the model (the
interleaving). The parameters are a structure that State carries in a field of its own and that no step changes, so every
statement about all states quantifies over them, as rule R9 asks. -/

namespace Sys2Proof

/-- A run of ordinary memory, counted in aligned 32-bit words: words `first` up to `first + words - 1`, so bytes
`4 * first` up to `4 * (first + words) - 1`. Counting in words makes `IS_RAM` constant on every aligned word
(20_memory.md rule R61). -/
structure RamRange where
  first : Nat
  words : Nat
deriving DecidableEq, Repr

/-- The parameters of 00_scope.md rule R9 (92_eei_decisions.md P1 to P4). `RAM_INIT` (P5) is the memory that the launch
state holds, so it is no field here. -/
structure Config where
  /-- `BLK_BASE`, the base of the 256-byte register window. -/
  blkBase : Addr
  /-- `OUT_FIFO_ADDR`, the output engine's FIFO write port. -/
  outFifoAddr : Addr
  /-- `OUT_FIFO_DEPTH`, the FIFO's capacity in words. -/
  outFifoDepth : Nat
  /-- `IS_RAM`, as the list of the runs of ordinary memory. -/
  ramRanges : List RamRange
deriving DecidableEq, Repr

/-- The parameter values of 95_test_vectors.md section 0 (DESIGN CHOICE, unsafe: the spec leaves P1 to P4 OPEN; log
entry 1). Only `State.reset` uses them. -/
def Config.vectors : Config where
  blkBase := 0x50000000#32
  outFifoAddr := 0x50200010#32
  outFifoDepth := 4
  ramRanges := [⟨0x08000000, 0x10000⟩]

/-- Whose turn a step is. Four agents take steps (10_state.md rule R20); block reset is an external input that can come
at any time (70_reset_and_hazards.md rule R350). `descriptor` stands for two steps of engine 0 taken one after the other,
the control-transfer engine's whole block (log entry 5). -/
inductive Turn where
  | host
  | engine (e : Engine)
  | descriptor
  | output
  | blockReset
deriving DecidableEq, Repr, Inhabited

/-- The free value of the model: whose turn comes where State holds no schedule. Nothing constrains it
(93_implementation_defined.md U22: any interleaving; 20_memory.md rule R75). It has no body, so nothing can be proved
of a value of it (log entry 4). -/
opaque freeTurn : Nat → Turn

end Sys2Proof
end

