-- ==== Sys2Proof/WellFormed.lean ====
section
/-! DEFINITION. Which instruction terms stand for an encoding. The field types already bound every operand of a
register-access command, so one check remains: a data descriptor has a nonzero count, since a descriptor whose count is 0
is the sentinel (30_encoding.md rule R116, 43_pipeline_protocol.md rule R280; spec/opcode_table.json: the data row
matches only when c is not 0). -/

namespace Sys2Proof

/-- The term is the one an encoding decodes to. -/
def Instr.wf : Instr → Bool
  | .descData c _ => c != 0
  | _ => true

end Sys2Proof
end

