-- ==== Sys2Proof/Decode.lean ====
section
/-! DEFINITION. From bytes to instructions and back (30_encoding.md rules R100 to R104, R111 and R113).

A register-access command reaches the sequencer as the record of its 9-bit word `C = {W, off[7:0]}` in two bytes, low byte
first, and, for a write, the four bytes of its data word, low byte first. The spec gives `C` and the data word but no
container for them; this record is the model's (DESIGN CHOICE, safe: log entry 2). A descriptor is the eight bytes that
RAM holds at `d` (20_memory.md rule R63, 30_encoding.md rule R113). Which of the two formats arrives is known from the
port it arrives at, never from its bits. -/

namespace Sys2Proof

/-- Where the bytes of an instruction arrive: the register window, with the master that accesses it, or the descriptor
list that the CTE reads. -/
inductive Port where
  | window (m : Master)
  | list
deriving DecidableEq, Repr

/-- Why bytes are no instruction. -/
inductive DecodeError where
  /-- not 2 bytes for a read, 6 for a write, 8 for a descriptor -/
  | length
  /-- a bit above `C[8]` is set -/
  | highBits
  /-- `C[1:0]` is not `0b00` (30_encoding.md rule R111: such an access is not a command) -/
  | misaligned
deriving DecidableEq, Repr

/-- The 32-bit word in four bytes, least significant first (20_memory.md rule R63). -/
def joinWord (b0 b1 b2 b3 : Byte) : Word := b3 ++ b2 ++ b1 ++ b0

/-- Byte `i` of a word, counted from the least significant (20_memory.md rule R63). -/
def byteOf (v : Word) (i : Nat) : Byte := v.extractLsb' (8 * i) 8

/-- The four bytes of a word, lowest address first (20_memory.md rule R63). -/
def wordBytes (v : Word) : List Byte := [byteOf v 0, byteOf v 1, byteOf v 2, byteOf v 3]

/-- The engine a bit names: 0 is engine 0 and 1 is engine 1 (30_encoding.md rule R100). -/
def engineOfBit : Bool → Engine
  | false => .e0
  | true => .e1

/-- The bit that names an engine (30_encoding.md rule R100). -/
def engineBit : Engine → BitVec 1
  | .e0 => 0
  | .e1 => 1

/-- The write commands of the 16 channel slots, by `off[5:2]`, alias then slot (30_encoding.md rule R101). -/
def channelWrite (slot : Nat) (e : Engine) (v : Word) (m : Master) : Instr :=
  match slot with
  | 0 => .wrReadAddr e v m
  | 1 => .wrWriteAddr e v m
  | 2 => .wrTransCount e v m
  | 3 => .wrCtrlTrig e v m
  | 4 => .wrAl1Ctrl e v m
  | 5 => .wrAl1ReadAddr e v m
  | 6 => .wrAl1WriteAddr e v m
  | 7 => .wrAl1TransCountTrig e v m
  | 8 => .wrAl2Ctrl e v m
  | 9 => .wrAl2TransCount e v m
  | 10 => .wrAl2ReadAddr e v m
  | 11 => .wrAl2WriteAddrTrig e v m
  | 12 => .wrAl3Ctrl e v m
  | 13 => .wrAl3WriteAddr e v m
  | 14 => .wrAl3TransCount e v m
  | _ => .wrAl3ReadAddrTrig e v m

/-- The read commands of the 16 channel slots, by `off[5:2]`, alias then slot (30_encoding.md rule R101). -/
def channelRead (slot : Nat) (e : Engine) : Instr :=
  match slot with
  | 0 => .rdReadAddr e
  | 1 => .rdWriteAddr e
  | 2 => .rdTransCount e
  | 3 => .rdCtrlTrig e
  | 4 => .rdAl1Ctrl e
  | 5 => .rdAl1ReadAddr e
  | 6 => .rdAl1WriteAddr e
  | 7 => .rdAl1TransCountTrig e
  | 8 => .rdAl2Ctrl e
  | 9 => .rdAl2TransCount e
  | 10 => .rdAl2ReadAddr e
  | 11 => .rdAl2WriteAddrTrig e
  | 12 => .rdAl3Ctrl e
  | 13 => .rdAl3WriteAddr e
  | 14 => .rdAl3TransCount e
  | _ => .rdAl3ReadAddrTrig e

/-- The global command of index `g = off[6:2]` (30_encoding.md rules R104 and R111): the three registers, then the four
reserved rows `0x8C`, `0x90` to `0x9C`, `0xA0` to `0xBC` and `0xC0` to `0xFC`. -/
def globalCommand (g : BitVec 5) (d : Access) (m : Master) : Instr :=
  if g = 0 then (match d with | .read => .rdIntr | .write v => .wrIntr v m)
  else if g = 1 then (match d with | .read => .rdStart | .write v => .wrStart v m)
  else if g = 2 then (match d with | .read => .rdBusy | .write v => .wrBusy v)
  else if g = 3 then .reserved8C d
  else if g.extractLsb' 2 3 = 1 then .reserved90 (g.extractLsb' 0 2) d
  else if g.extractLsb' 3 2 = 1 then .reservedA0 (g.extractLsb' 0 3) d
  else .reservedC0 (g.extractLsb' 0 4) d

/-- The command of window offset `off` and an access (30_encoding.md rules R100 and R111). `off[1:0]` is not read. -/
def commandAt (off : BitVec 8) (d : Access) (m : Master) : Instr :=
  if off.getLsbD 7 then globalCommand (off.extractLsb' 2 5) d m
  else
    match d with
    | .read => channelRead (off.extractLsb' 2 4).toNat (engineOfBit (off.getLsbD 6))
    | .write v => channelWrite (off.extractLsb' 2 4).toNat (engineOfBit (off.getLsbD 6)) v m

/-- What follows the command word `C` must be there exactly: nothing after a read, the data word after a write
(30_encoding.md rules R111 and R117). -/
def accessOf (w : Bool) (operand : List Byte) : Except DecodeError Access :=
  match w, operand with
  | false, [] => .ok .read
  | true, [b0, b1, b2, b3] => .ok (.write (joinWord b0 b1 b2 b3))
  | _, _ => .error .length

/-- Decode the record of a register-access command issued by `m` (30_encoding.md rule R111). -/
def decodeCommand (m : Master) (bytes : List Byte) : Except DecodeError Instr :=
  match bytes with
  | lo :: hi :: operand =>
    if hi &&& 0xFE#8 != 0 then .error .highBits
    else if lo &&& 0x03#8 != 0 then .error .misaligned
    else
      match accessOf (hi.getLsbD 0) operand with
      | .ok d => .ok (commandAt lo d m)
      | .error e => .error e
  | _ => .error .length

/-- Decode the eight bytes of a descriptor (30_encoding.md rule R113): a zero count is the sentinel. -/
def decodeDescriptor (bytes : List Byte) : Except DecodeError Instr :=
  match bytes with
  | [c0, c1, c2, c3, a0, a1, a2, a3] =>
    if joinWord c0 c1 c2 c3 = 0 then .ok (.descSentinel (joinWord a0 a1 a2 a3))
    else .ok (.descData (joinWord c0 c1 c2 c3) (joinWord a0 a1 a2 a3))
  | _ => .error .length

/-- The decoder: total on any bytes, and every rejection has a name. -/
def decode (p : Port) (bytes : List Byte) : Except DecodeError Instr :=
  match p with
  | .window m => decodeCommand m bytes
  | .list => decodeDescriptor bytes

/-- The record of the command of window offset `off`: `C = {W, off[7:0]}` and the data word of a write
(30_encoding.md rule R111). -/
def commandRecord (off : BitVec 8) (d : Access) : List Byte :=
  match d with
  | .read => [off, 0]
  | .write v => off :: 1 :: wordBytes v

/-- The offset of slot `slot` (alias then slot) of engine `e`'s channel block (30_encoding.md rule R100). -/
def channelOffset (slot : BitVec 4) (e : Engine) : BitVec 8 := 0#1 ++ engineBit e ++ slot ++ 0#2

/-- The offset of the global register of index `g` (30_encoding.md rule R100). -/
def globalOffset (g : BitVec 5) : BitVec 8 := 1#1 ++ g ++ 0#2

/-- The encoder: the bytes of an instruction (30_encoding.md rules R101, R104, R111 and R113). -/
def encode : Instr → List Byte
  | .wrReadAddr e v _ => commandRecord (channelOffset 0 e) (.write v)
  | .wrWriteAddr e v _ => commandRecord (channelOffset 1 e) (.write v)
  | .wrTransCount e v _ => commandRecord (channelOffset 2 e) (.write v)
  | .wrCtrlTrig e v _ => commandRecord (channelOffset 3 e) (.write v)
  | .wrAl1Ctrl e v _ => commandRecord (channelOffset 4 e) (.write v)
  | .wrAl1ReadAddr e v _ => commandRecord (channelOffset 5 e) (.write v)
  | .wrAl1WriteAddr e v _ => commandRecord (channelOffset 6 e) (.write v)
  | .wrAl1TransCountTrig e v _ => commandRecord (channelOffset 7 e) (.write v)
  | .wrAl2Ctrl e v _ => commandRecord (channelOffset 8 e) (.write v)
  | .wrAl2TransCount e v _ => commandRecord (channelOffset 9 e) (.write v)
  | .wrAl2ReadAddr e v _ => commandRecord (channelOffset 10 e) (.write v)
  | .wrAl2WriteAddrTrig e v _ => commandRecord (channelOffset 11 e) (.write v)
  | .wrAl3Ctrl e v _ => commandRecord (channelOffset 12 e) (.write v)
  | .wrAl3WriteAddr e v _ => commandRecord (channelOffset 13 e) (.write v)
  | .wrAl3TransCount e v _ => commandRecord (channelOffset 14 e) (.write v)
  | .wrAl3ReadAddrTrig e v _ => commandRecord (channelOffset 15 e) (.write v)
  | .rdReadAddr e => commandRecord (channelOffset 0 e) .read
  | .rdWriteAddr e => commandRecord (channelOffset 1 e) .read
  | .rdTransCount e => commandRecord (channelOffset 2 e) .read
  | .rdCtrlTrig e => commandRecord (channelOffset 3 e) .read
  | .rdAl1Ctrl e => commandRecord (channelOffset 4 e) .read
  | .rdAl1ReadAddr e => commandRecord (channelOffset 5 e) .read
  | .rdAl1WriteAddr e => commandRecord (channelOffset 6 e) .read
  | .rdAl1TransCountTrig e => commandRecord (channelOffset 7 e) .read
  | .rdAl2Ctrl e => commandRecord (channelOffset 8 e) .read
  | .rdAl2TransCount e => commandRecord (channelOffset 9 e) .read
  | .rdAl2ReadAddr e => commandRecord (channelOffset 10 e) .read
  | .rdAl2WriteAddrTrig e => commandRecord (channelOffset 11 e) .read
  | .rdAl3Ctrl e => commandRecord (channelOffset 12 e) .read
  | .rdAl3WriteAddr e => commandRecord (channelOffset 13 e) .read
  | .rdAl3TransCount e => commandRecord (channelOffset 14 e) .read
  | .rdAl3ReadAddrTrig e => commandRecord (channelOffset 15 e) .read
  | .rdIntr => commandRecord (globalOffset 0) .read
  | .wrIntr v _ => commandRecord (globalOffset 0) (.write v)
  | .rdStart => commandRecord (globalOffset 1) .read
  | .wrStart v _ => commandRecord (globalOffset 1) (.write v)
  | .rdBusy => commandRecord (globalOffset 2) .read
  | .wrBusy v => commandRecord (globalOffset 2) (.write v)
  | .reserved8C d => commandRecord (globalOffset 3) d
  | .reserved90 g d => commandRecord (globalOffset (1#3 ++ g)) d
  | .reservedA0 g d => commandRecord (globalOffset (1#2 ++ g)) d
  | .reservedC0 g d => commandRecord (globalOffset (1#1 ++ g)) d
  | .descData c a => wordBytes c ++ wordBytes a
  | .descSentinel a => wordBytes 0 ++ wordBytes a

/-- The port an instruction arrives at: a write command at the window with its master, any other command at the window
(the host stands for any master: a read and a reserved access name none), a descriptor in the list. -/
def portOf : Instr → Port
  | .wrReadAddr _ _ m | .wrWriteAddr _ _ m | .wrTransCount _ _ m | .wrCtrlTrig _ _ m
  | .wrAl1Ctrl _ _ m | .wrAl1ReadAddr _ _ m | .wrAl1WriteAddr _ _ m | .wrAl1TransCountTrig _ _ m
  | .wrAl2Ctrl _ _ m | .wrAl2TransCount _ _ m | .wrAl2ReadAddr _ _ m | .wrAl2WriteAddrTrig _ _ m
  | .wrAl3Ctrl _ _ m | .wrAl3WriteAddr _ _ m | .wrAl3TransCount _ _ m | .wrAl3ReadAddrTrig _ _ m
  | .wrIntr _ m | .wrStart _ m => .window m
  | .rdReadAddr _ | .rdWriteAddr _ | .rdTransCount _ | .rdCtrlTrig _
  | .rdAl1Ctrl _ | .rdAl1ReadAddr _ | .rdAl1WriteAddr _ | .rdAl1TransCountTrig _
  | .rdAl2Ctrl _ | .rdAl2TransCount _ | .rdAl2ReadAddr _ | .rdAl2WriteAddrTrig _
  | .rdAl3Ctrl _ | .rdAl3WriteAddr _ | .rdAl3TransCount _ | .rdAl3ReadAddrTrig _
  | .rdIntr | .rdStart | .rdBusy | .wrBusy _
  | .reserved8C _ | .reserved90 _ _ | .reservedA0 _ _ | .reservedC0 _ _ => .window .host
  | .descData _ _ | .descSentinel _ => .list

/-- A row of spec/opcode_table.json whose bits are numbered as a descriptor's (the sentinel's count word, or both words);
every other row is numbered as a command's, and has 8 or 16 bits. -/
def isDescriptorRow (nbits : Nat) : Bool := nbits == 32 || nbits == 64

/-- The bytes of the instruction whose bits are `w`, bit 0 the least significant bit of its first word: for a command
`C` is bits 15 to 0 and the data word of a write bits 47 to 16; for a descriptor the count is bits 31 to 0 and the
address bits 63 to 32. -/
def tableBytes (nbits w : Nat) : List Byte :=
  if isDescriptorRow nbits then
    wordBytes (BitVec.ofNat 32 w) ++ wordBytes (BitVec.ofNat 32 (w / 2 ^ 32))
  else if w.testBit 8 then
    [BitVec.ofNat 8 w, BitVec.ofNat 8 (w / 2 ^ 8)] ++ wordBytes (BitVec.ofNat 32 (w / 2 ^ 16))
  else
    [BitVec.ofNat 8 w, BitVec.ofNat 8 (w / 2 ^ 8)]

/-- The port at which a row's instruction arrives; a command is the host's. -/
def tablePort (nbits : Nat) : Port := if isDescriptorRow nbits then .list else .window .host

/-- The instruction that the decoder reads from an instruction whose bits are `w`, or none where it refuses. -/
def decodeTableWord (nbits w : Nat) : Option Instr :=
  match decode (tablePort nbits) (tableBytes nbits w) with
  | .ok i => some i
  | .error _ => none

end Sys2Proof
end

