-- ==== Sys2Proof/Machine/State.lean ====
section
/-! DEFINITION. The machine's state as plain data: everything 10_state.md gives the sequencer and its surroundings, and the
model's own fields (host program, schedule, tick, last read word). -/

namespace Sys2Proof.Machine

/-- One engine's registers and flags (10_state.md rules R21 to R25). -/
structure Channel where
  /-- `ch[e].READ_ADDR`, rule R21. -/
  readAddr : Word
  /-- `ch[e].WRITE_ADDR`, rule R21. -/
  writeAddr : Word
  /-- `ch[e].RELOAD`, rule R21: the count the next non-null trigger loads. -/
  reload : Word
  /-- `ch[e].REMAINING`, rule R23: the words still to move in the current block. -/
  remaining : Word
  /-- The 16 stored bits of `ch[e].CTRL`, rules R21 and R22. -/
  ctrl : BitVec 16
  /-- `BUSY[e]`, rule R24. -/
  busy : Bool
  /-- `DONE[e]`, rule R25. -/
  done : Bool
deriving DecidableEq, Repr

/-- An engine in block reset (10_state.md rule R31). -/
def Channel.reset : Channel where
  readAddr := 0
  writeAddr := 0
  reload := 0
  remaining := 0
  ctrl := 0
  busy := false
  done := false

/-- The fault codes of 60_exceptions.md rule R320, in its order (codes 1 to 11). -/
inductive FaultCode where
  | triggerBusy
  | dataSize
  | writeBusy
  | hostLive
  | align
  | bus
  | fifoRead
  | fifoOverflow
  | race
  | hostWidth
  | reservedOffset
deriving DecidableEq, Repr

/-- The events of 43_pipeline_protocol.md rule R300. -/
inductive Event where
  | ignored (e : Engine)
  | null (e : Engine)
  | block (e : Engine) (ra wa : Addr) (n : Word)
  | word (e : Engine) (ra wa : Addr) (v : Word)
  | complete (e : Engine)
deriving DecidableEq, Repr

/-- The width of a host access (20_memory.md rule R68). -/
inductive Width where
  | byte
  | half
  | word
deriving DecidableEq, Repr

/-- One command of the host's program (30_encoding.md rule R118). `WR` and `RD` are a word access to the window address of
the register; `MW`, `MH`, `MB` and `MR` are accesses to RAM; `poll` is the loop of 40_host_register_access.md rule
R187. -/
inductive HostOp where
  | read (a : Addr) (w : Width)
  | write (a : Addr) (w : Width) (v : Word)
  | poll (a : Addr) (mask : Word)
deriving DecidableEq, Repr

/-- Ordinary memory: (address, byte) pairs in the canonical form of `Memory.wf` (strictly rising addresses, no entry
equal to `unlistedByte`). -/
abbrev Memory := List Host.Cell

/-- What an address that memory does not list reads as (DESIGN CHOICE, unsafe as a reading of `RAM_INIT`, which the spec
leaves OPEN: log entry 3). -/
def unlistedByte : Byte := 0

/-- The whole state. -/
structure State where
  /-- The platform's parameters, 00_scope.md rule R9. No step changes them. -/
  cfg : Config
  /-- Engine 0, 10_state.md rules R21 to R25. -/
  ch0 : Channel
  /-- Engine 1, 10_state.md rules R21 to R25. -/
  ch1 : Channel
  /-- `RAM`, rule R28. -/
  ram : Memory
  /-- `FIFO`, rule R28, oldest word first. -/
  fifo : List Word
  /-- `OUT`, rule R28: every word pushed, oldest first. -/
  out : List Word
  /-- `RSET`, rule R28, as a strictly rising list. -/
  rset : List Nat
  /-- `WSET`, rule R28, as a strictly rising list. -/
  wset : List Nat
  /-- `EV`, rule R28, oldest event first. -/
  ev : List Event
  /-- `FAULT`, rule R28: the sticky fault record. -/
  fault : Option FaultCode
  /-- The model's own: the word that the host's last read returned (log entry 6). -/
  rdata : Word
  /-- The model's own: the commands of the host's program still to come (70_reset_and_hazards.md rule R352; log
  entry 7). -/
  host : List HostOp
  /-- The model's own: the turns of the steps to come, first the next one (log entry 4). -/
  sched : List Turn
  /-- The model's own: how many turns were taken from the free value (log entry 4). -/
  tick : Nat
deriving DecidableEq, Repr

/-- Why the machine stops. -/
inductive Fault where
  /-- Raised by every meaning, and by every turn but a block reset, on a state whose `FAULT` record is set: no step of any
  agent is enabled until block reset (60_exceptions.md rule R321). It carries the recorded code. Raising a fault is NOT
  this: that is a next state with the record set (rule R320). Safe: the spec gives no step there. -/
  | stuck (c : FaultCode)
deriving DecidableEq, Repr

/-- Why the machine refuses. -/
inductive Refusal where
  /-- Raised by an arm of `exec` whose instruction has no meaning yet (no arm raises it now). Safe. -/
  | notModelled (mnemonic : String)
  /-- Raised by a host turn whose access is misaligned or to an `UNMAPPED` or `FIFO` address: 20_memory.md rule R68 puts
  it outside the model. Safe. -/
  | hostAccess (a : Addr)
  /-- Raised by a host turn whose command record the decoder rejects. No access at an aligned window offset makes such
  a record, so nothing reaches it. Safe. -/
  | undecodable (e : DecodeError)
deriving DecidableEq, Repr

/-- The three outcomes of a step over this machine's types. -/
abbrev Result := Host.Outcome State Fault Refusal

/-- The launch state (70_reset_and_hazards.md rule R352): the sequencer in block reset (10_state.md rule R31), `FIFO`,
`OUT` and `EV` empty. The parameters are those of 95_test_vectors.md (log entry 1), memory lists nothing (log entry 3), and
the model's own fields are empty or 0 (log entries 4, 6 and 7). -/
def State.reset : State where
  cfg := Config.vectors
  ch0 := Channel.reset
  ch1 := Channel.reset
  ram := []
  fifo := []
  out := []
  rset := []
  wset := []
  ev := []
  fault := none
  rdata := 0
  host := []
  sched := []
  tick := 0

end Sys2Proof.Machine
end

