-- ==== Sys2Proof/Machine/Operands.lean ====
section
/-! DEFINITION. Operand forms: which register a slot selects, the fields of CTRL, the address increment, the width of a
host access (30_encoding.md rules R100 to R102, R106, R112 and R114). -/

namespace Sys2Proof.Machine

/-- The four registers of a channel as a command names them (30_encoding.md rule R101); `transCount` is the pair of
`RELOAD` (written) and the read mux of 40_host_register_access.md rule R144. -/
inductive ChanReg where
  | readAddr
  | writeAddr
  | transCount
  | ctrl
deriving DecidableEq, Repr

/-- `reg(a, s)` of 30_encoding.md rule R102, by `4 * a + s`, that is by `off[5:2]`. -/
def regAt (slot : Nat) : ChanReg :=
  match slot with
  | 0 => .readAddr | 1 => .writeAddr | 2 => .transCount | 3 => .ctrl
  | 4 => .ctrl | 5 => .readAddr | 6 => .writeAddr | 7 => .transCount
  | 8 => .ctrl | 9 => .transCount | 10 => .readAddr | 11 => .writeAddr
  | 12 => .ctrl | 13 => .writeAddr | 14 => .transCount | _ => .readAddr

/-- `is_trigger(a, s)` of 30_encoding.md rule R102: slot 3 of every alias. -/
def isTriggerSlot (slot : Nat) : Bool := slot % 4 == 3

/-- `CTRL.EN`, bit 0 (30_encoding.md rule R106). -/
def ctrlEn (c : BitVec 16) : Bool := c.getLsbD 0

/-- `CTRL.DATA_SIZE`, bits 2:1 (rule R106). -/
def ctrlDataSize (c : BitVec 16) : BitVec 2 := c.extractLsb' 1 2

/-- `CTRL.INCR_READ`, bit 3 (rule R106). -/
def ctrlIncrRead (c : BitVec 16) : Bool := c.getLsbD 3

/-- `CTRL.INCR_WRITE`, bit 4 (rule R106). -/
def ctrlIncrWrite (c : BitVec 16) : Bool := c.getLsbD 4

/-- `CTRL.READ_RING`, bits 8:5 (rule R106). -/
def ctrlReadRing (c : BitVec 16) : BitVec 4 := c.extractLsb' 5 4

/-- `CTRL.WRITE_RING`, bits 12:9 (rule R106). -/
def ctrlWriteRing (c : BitVec 16) : BitVec 4 := c.extractLsb' 9 4

/-- `CTRL.PACED`, bit 13 (rule R106). -/
def ctrlPaced (c : BitVec 16) : Bool := c.getLsbD 13

/-- `CTRL.CHAIN_EN`, bit 14 (rule R106). -/
def ctrlChainEn (c : BitVec 16) : Bool := c.getLsbD 14

/-- `CTRL.CHAIN_TO`, bit 15 (rule R106), as the engine it names. -/
def ctrlChainTo (c : BitVec 16) : Engine := engineOfBit (c.getLsbD 15)

/-- The only legal `DATA_SIZE` of a non-null trigger: the 32-bit word (rule R108). -/
def wordSize : BitVec 2 := 0b10#2

/-- The part of a data word that a CTRL write stores (rules R107 and R112): bits 31:16 are ignored. -/
def ctrlStored (v : Word) : BitVec 16 := v.extractLsb' 0 16

/-- Bit `e` of the data word of an INTR or START write (rules R105, R109 and R112). -/
def maskBit (v : Word) (e : Engine) : Bool :=
  match e with
  | .e0 => v.getLsbD 0
  | .e1 => v.getLsbD 1

/-- `ringInc(a, n)` of 30_encoding.md rule R114: the address plus 4, wrapping inside the aligned `2^n`-byte block when
`n` is not 0. -/
def ringInc (a : Addr) (n : BitVec 4) : Addr :=
  if n = 0 then a + 4
  else (a &&& ~~~((1#32 <<< n.toNat) - 1)) ||| ((a + 4) &&& ((1#32 <<< n.toNat) - 1))

/-- `a[1:0] = 0b00`. -/
def wordAligned (a : Addr) : Bool := a.extractLsb' 0 2 == 0#2

/-- The address of word `k` counted from `a`, modulo `2^32` (00_scope.md rule R10): word `k` of a buffer at `a`. -/
def wordAt (a : Addr) (k : Nat) : Addr := a + BitVec.ofNat 32 (4 * k)

/-- The aligned word that holds the byte at `a`. -/
def wordOf (a : Addr) : Addr := a &&& ~~~3#32

/-- How many bytes a host access moves (20_memory.md rule R68). -/
def widthBytes : Width → Nat
  | .byte => 1
  | .half => 2
  | .word => 4

/-- `a mod n = 0` for an access of that width (20_memory.md rule R68). -/
def naturallyAligned (a : Addr) (w : Width) : Bool := a.toNat % widthBytes w == 0

end Sys2Proof.Machine
end

