-- ==== Sys2Proof/Machine/Flags.lean ====
section
/-! DEFINITION. The flags and what reads of them return: BUSY, DONE, LIVE, DREQ, and the register values made of flags
(10_state.md rules R24 to R26 and R29, 20_memory.md rule R70, 30_encoding.md rules R105, R107 and R110). The sequencer has no
condition codes (rule R29). -/

namespace Sys2Proof.Machine

/-- Engine `e`'s registers and flags. -/
def State.ch (s : State) (e : Engine) : Channel :=
  match e with
  | .e0 => s.ch0
  | .e1 => s.ch1

/-- Replace engine `e`'s registers and flags. -/
def State.setCh (s : State) (e : Engine) (c : Channel) : State :=
  match e with
  | .e0 => { s with ch0 := c }
  | .e1 => { s with ch1 := c }

/-- `LIVE` (10_state.md rule R26): some engine is busy. -/
def State.live (s : State) : Bool := s.ch0.busy || s.ch1.busy

/-- `DREQ` (20_memory.md rule R70): the FIFO has room for one more word. -/
def State.dreq (s : State) : Bool := decide (s.fifo.length < s.cfg.outFifoDepth)

/-- What a read of INTR returns (40_host_register_access.md rule R178). -/
def intrValue (s : State) : Word := 0#30 ++ BitVec.ofBool s.ch1.done ++ BitVec.ofBool s.ch0.done

/-- What a read of START returns (40_host_register_access.md rule R180). -/
def startValue : Word := 0

/-- What a read of BUSY returns (30_encoding.md rule R110, 40_host_register_access.md rule R182). -/
def busyValue (s : State) : Word := 0#30 ++ BitVec.ofBool s.ch1.busy ++ BitVec.ofBool s.ch0.busy

/-- `ctrl_read(e)` (30_encoding.md rule R107): BUSY in bit 31, 15 zero bits, the stored bits. -/
def ctrlValue (c : Channel) : Word := BitVec.ofBool c.busy ++ 0#15 ++ c.ctrl

/-- Clear `DONE[e]` where the bit of the data word is 1 (40_host_register_access.md rule R179). -/
def clearDone (v : Word) (e : Engine) (s : State) : State :=
  if maskBit v e then s.setCh e { s.ch e with done := false } else s

/-- `intr_write(v)` (40_host_register_access.md rule R179): write 1 to clear, bits 31:2 ignored. -/
def intrWrite (v : Word) (s : State) : State := clearDone v .e1 (clearDone v .e0 s)

end Sys2Proof.Machine
end

