-- ==== Sys2Proof/Machine/Ops.lean ====
section
/-! DEFINITION. The shared operations: memory, sets of addresses, regions, races, raising a fault and block reset, triggers,
register-window accesses, the output FIFO, the engines' bus and their word-transfer step (20_memory.md,
40_host_register_access.md, 41_trigger_and_completion.md, 42_engine_transfer.md, 60_exceptions.md). An operation that can raise
a fault answers `Except FaultCode`; what it would have written is dropped with the error (00_scope.md rule R11). -/

namespace Sys2Proof.Machine

/-! ### Memory (20_memory.md rules R60 and R63) -/

/-- The canonical form: addresses strictly rising from `lo` on, and no entry equal to what an unlisted address reads as. -/
def memoryWfFrom : Nat → Memory → Bool
  | _, [] => true
  | lo, (k, x) :: rest => decide (lo ≤ k) && (x != unlistedByte) && memoryWfFrom (k + 1) rest

/-- The canonical form of memory. -/
def Memory.wf (m : Memory) : Bool := memoryWfFrom 0 m

/-- The byte at an address. -/
def readByte : Memory → Nat → Byte
  | [], _ => unlistedByte
  | (k, x) :: rest, a => if a = k then x else readByte rest a

/-- Write one byte, keeping the canonical form. -/
def writeByte : Memory → Nat → Byte → Memory
  | [], a, b => if b = unlistedByte then [] else [(a, b)]
  | (k, x) :: rest, a, b =>
    if a < k then (if b = unlistedByte then (k, x) :: rest else (a, b) :: (k, x) :: rest)
    else if a = k then (if b = unlistedByte then rest else (k, b) :: rest)
    else (k, x) :: writeByte rest a b

/-- `MemRead(a, 4)` (20_memory.md rule R63). -/
def readWord (m : Memory) (a : Nat) : Word :=
  joinWord (readByte m a) (readByte m (a + 1)) (readByte m (a + 2)) (readByte m (a + 3))

/-- The `n` bytes at `a`, the lowest address first. -/
def readBytes (m : Memory) (a : Nat) : Nat → List Byte
  | 0 => []
  | n + 1 => readByte m a :: readBytes m (a + 1) n

/-- Write bytes from `a` on, the lowest address first. -/
def writeBytes (m : Memory) (a : Nat) : List Byte → Memory
  | [] => m
  | b :: bs => writeBytes (writeByte m a b) (a + 1) bs

/-- The low bytes of a value that an access of a width stores (20_memory.md rule R63). -/
def storedBytes (w : Width) (v : Word) : List Byte :=
  match w with
  | .byte => [byteOf v 0]
  | .half => [byteOf v 0, byteOf v 1]
  | .word => wordBytes v

/-- `MemWrite(a, n, v)` (20_memory.md rule R63). -/
def writeMem (m : Memory) (a : Nat) (w : Width) (v : Word) : Memory := writeBytes m a (storedBytes w v)

/-- A host read of RAM of a width, widened with zero bits (20_memory.md rules R63 and R68, 00_scope.md rule R10). -/
def readMem (m : Memory) (a : Nat) (w : Width) : Word :=
  match w with
  | .byte => joinWord (readByte m a) 0 0 0
  | .half => joinWord (readByte m a) (readByte m (a + 1)) 0 0
  | .word => readWord m a

/-! ### Sets of byte addresses (10_state.md rule R28) -/

/-- The strictly rising form of a set of addresses, from `lo` on. -/
def risingFrom : Nat → List Nat → Bool
  | _, [] => true
  | lo, k :: rest => decide (lo ≤ k) && risingFrom (k + 1) rest

/-- The strictly rising form of a set of addresses. -/
def rising (l : List Nat) : Bool := risingFrom 0 l

/-- Add one address. -/
def insertAddr : Nat → List Nat → List Nat
  | a, [] => [a]
  | a, k :: rest => if a < k then a :: k :: rest else if a = k then k :: rest else k :: insertAddr a rest

/-- Add the `n` addresses `a, ..., a + n - 1`. -/
def addSpan (a : Nat) : Nat → List Nat → List Nat
  | 0, l => l
  | n + 1, l => insertAddr a (addSpan (a + 1) n l)

/-- Some address of `a, ..., a + n - 1` is in the set. -/
def meetsSpan (a : Nat) : Nat → List Nat → Bool
  | 0, _ => false
  | n + 1, l => decide (a ∈ l) || meetsSpan (a + 1) n l

/-! ### Regions (20_memory.md rules R60 to R62) -/

/-- What an address belongs to; a window address with its offset. -/
inductive Region where
  | window (off : BitVec 8)
  | fifo
  | ram
  | unmapped
deriving DecidableEq, Repr

/-- The run of ordinary memory holds the word that holds the byte at `k`. -/
def inRange (r : RamRange) (k : Nat) : Bool :=
  decide (r.first ≤ k / 4) && decide (k / 4 < r.first + r.words)

/-- The byte at `k` is ordinary memory. -/
def isRamByte (cfg : Config) (k : Nat) : Bool := cfg.ramRanges.any fun r => inRange r k

/-- `IS_RAM(a)` (00_scope.md rule R9). -/
def isRam (cfg : Config) (a : Addr) : Bool := isRamByte cfg a.toNat

/-- `BLK_BASE <= a < BLK_BASE + 0x100` (20_memory.md rule R60). -/
def inWindow (cfg : Config) (a : Addr) : Bool :=
  decide (cfg.blkBase.toNat ≤ a.toNat) && decide (a.toNat < cfg.blkBase.toNat + 0x100)

/-- `region(a)` of 20_memory.md rule R62. -/
def region (cfg : Config) (a : Addr) : Region :=
  if inWindow cfg a then .window ((a - cfg.blkBase).extractLsb' 0 8)
  else if a = cfg.outFifoAddr then .fifo
  else if isRam cfg a then .ram
  else .unmapped

/-- The bus address of a window offset (30_encoding.md rule R118). -/
def windowAddr (cfg : Config) (off : BitVec 8) : Addr := cfg.blkBase + off.zeroExtend 32

/-- The constraints on the parameters (00_scope.md rule R9, 20_memory.md rules R60 and R61). -/
def Config.wf (cfg : Config) : Bool :=
  (cfg.blkBase.extractLsb' 0 8 == 0#8) && wordAligned cfg.outFifoAddr && !(inWindow cfg cfg.outFifoAddr)
    && !(isRam cfg cfg.outFifoAddr) && decide (1 ≤ cfg.outFifoDepth)
    && cfg.ramRanges.all fun r =>
      decide (r.first + r.words ≤ 2 ^ 30)
        && (decide (r.first + r.words ≤ cfg.blkBase.toNat / 4) || decide (cfg.blkBase.toNat / 4 + 64 ≤ r.first))

/-! ### Raising a fault, and block reset (60_exceptions.md rules R320 and R321, 70_reset_and_hazards.md rule R350) -/

/-- `raise Fault(code)` as the step that raised leaves it: the fault record, and no other write (00_scope.md rule R11). -/
def raiseFault (c : FaultCode) (s : State) : State := { s with fault := some c }

/-- The number of a fault code (60_exceptions.md rule R320). -/
def faultNumber : FaultCode → Nat
  | .triggerBusy => 1
  | .dataSize => 2
  | .writeBusy => 3
  | .hostLive => 4
  | .align => 5
  | .bus => 6
  | .fifoRead => 7
  | .fifoOverflow => 8
  | .race => 9
  | .hostWidth => 10
  | .reservedOffset => 11

/-- Block reset (10_state.md rule R31, 70_reset_and_hazards.md rule R350): the only way out of the fault state. `RAM`,
`FIFO`, `OUT` and `EV` stay as they are, and so do the model's own fields (log entry 7). -/
def blockReset (s : State) : State :=
  { s with ch0 := Channel.reset, ch1 := Channel.reset, rset := [], wset := [], fault := none }

/-- How the meaning of a command ends on a state: stuck where `FAULT` is set (60_exceptions.md rule R321); the next state
where nothing faults; the fault record alone where something does (00_scope.md rule R11). -/
def conclude (s : State) (r : Except FaultCode State) : Result :=
  match s.fault with
  | some c => .fault (.stuck c)
  | none =>
    match r with
    | .ok t => .next t
    | .error c => .next (raiseFault c s)

/-- The end of every step (20_memory.md rule R79): with no engine busy, the race sets are emptied. A step that raised a
fault keeps them (60_exceptions.md rule R321). -/
def endOfStep (s : State) : State :=
  if s.live || s.fault.isSome then s else { s with rset := [], wset := [] }

/-! ### Races (20_memory.md rule R78) -/

/-- `race_read(a)`: an engine reads the RAM word at `a`. -/
def raceRead (a : Nat) (s : State) : Except FaultCode State :=
  if meetsSpan a 4 s.wset then .error .race else .ok { s with rset := addSpan a 4 s.rset }

/-- `race_write(a, n)`: the host writes `n` bytes at `a`. -/
def raceWrite (a n : Nat) (s : State) : Except FaultCode State :=
  if s.live then
    if meetsSpan a n s.rset then .error .race else .ok { s with wset := addSpan a n s.wset }
  else .ok s

/-! ### The event history, triggers (41_trigger_and_completion.md) -/

/-- `EV <- EV ++ [x]` (43_pipeline_protocol.md rule R300). -/
def State.record (x : Event) (s : State) : State := { s with ev := s.ev ++ [x] }

/-- `Trigger(e)` (41_trigger_and_completion.md rule R201), its checks in that order. -/
def trigger (e : Engine) (s : State) : Except FaultCode State :=
  if (s.ch e).busy then .error .triggerBusy
  else if !(ctrlEn (s.ch e).ctrl) then .ok (s.record (.ignored e))
  else if (s.ch e).reload = 0 then
    .ok ((s.setCh e { s.ch e with done := true }).record (.null e))
  else if ctrlDataSize (s.ch e).ctrl != wordSize then .error .dataSize
  else
    .ok ((s.setCh e { s.ch e with remaining := (s.ch e).reload, busy := true }).record
      (.block e (s.ch e).readAddr (s.ch e).writeAddr (s.ch e).reload))

/-! ### Register-window accesses (40_host_register_access.md) -/

/-- `chan_read(e, r)` (rules R144 and R145). -/
def chanRead (e : Engine) (r : ChanReg) (s : State) : Word :=
  match r with
  | .readAddr => (s.ch e).readAddr
  | .writeAddr => (s.ch e).writeAddr
  | .transCount => if (s.ch e).busy then (s.ch e).remaining else (s.ch e).reload
  | .ctrl => ctrlValue (s.ch e)

/-- `chan_write(e, r, v)` (rule R143). -/
def chanWrite (e : Engine) (r : ChanReg) (v : Word) (s : State) : State :=
  match r with
  | .readAddr => s.setCh e { s.ch e with readAddr := v }
  | .writeAddr => s.setCh e { s.ch e with writeAddr := v }
  | .transCount => s.setCh e { s.ch e with reload := v }
  | .ctrl => s.setCh e { s.ch e with ctrl := ctrlStored v }

/-- The write to a channel slot (rules R141 and R142): the checks `WRITE_BUSY` then `HOST_LIVE`, the register, and the
trigger when the slot is a trigger slot. -/
def slotWrite (e : Engine) (r : ChanReg) (trig : Bool) (v : Word) (m : Master) (s : State) : Except FaultCode State :=
  if (s.ch e).busy then .error .writeBusy
  else if m = .host ∧ s.live then .error .hostLive
  else if trig then trigger e (chanWrite e r v s)
  else .ok (chanWrite e r v s)

/-- One of the two triggers of a START write (rule R181). -/
def startTrigger (v : Word) (e : Engine) (s : State) : Except FaultCode State :=
  if maskBit v e then trigger e s else .ok s

/-- `start_write(v, m)` (rule R181): engine 0 first, then engine 1. -/
def startWrite (v : Word) (m : Master) (s : State) : Except FaultCode State :=
  if m = .host ∧ s.live ∧ v.extractLsb' 0 2 ≠ 0 then .error .hostLive
  else
    match startTrigger v .e0 s with
    | .error c => .error c
    | .ok t => startTrigger v .e1 t

/-- `RegRead(off)` (rule R140). It changes no state. -/
def regRead (off : BitVec 8) (s : State) : Except FaultCode Word :=
  if off.getLsbD 7 then
    if off.extractLsb' 2 5 = 0 then .ok (intrValue s)
    else if off.extractLsb' 2 5 = 1 then .ok startValue
    else if off.extractLsb' 2 5 = 2 then .ok (busyValue s)
    else .error .reservedOffset
  else .ok (chanRead (engineOfBit (off.getLsbD 6)) (regAt (off.extractLsb' 2 4).toNat) s)

/-- `RegWrite(off, v, m)` (rule R141). -/
def regWrite (off : BitVec 8) (v : Word) (m : Master) (s : State) : Except FaultCode State :=
  if off.getLsbD 7 then
    if off.extractLsb' 2 5 = 0 then .ok (intrWrite v s)
    else if off.extractLsb' 2 5 = 1 then startWrite v m s
    else if off.extractLsb' 2 5 = 2 then .ok s
    else .error .reservedOffset
  else
    slotWrite (engineOfBit (off.getLsbD 6)) (regAt (off.extractLsb' 2 4).toNat)
      (isTriggerSlot (off.extractLsb' 2 4).toNat) v m s

/-! ### The output FIFO (20_memory.md rules R70 and R71) -/

/-- `fifo_push(v)` (rule R71). -/
def fifoPush (v : Word) (s : State) : Except FaultCode State :=
  if s.dreq then .ok { s with fifo := s.fifo ++ [v], out := s.out ++ [v] } else .error .fifoOverflow

/-- `OutputStep` (42_engine_transfer.md rule R255); with an empty FIFO it is not enabled and nothing changes. -/
def outputStep (s : State) : State := { s with fifo := s.fifo.tail }

/-! ### The engines' bus (20_memory.md rules R65 and R66) -/

/-- `BusRead(a)`: the word and the state with the read tracked. -/
def busRead (a : Addr) (s : State) : Except FaultCode (Word × State) :=
  match region s.cfg a with
  | .ram =>
    match raceRead a.toNat s with
    | .ok t => .ok (readWord s.ram a.toNat, t)
    | .error c => .error c
  | .window off =>
    match regRead off s with
    | .ok v => .ok (v, s)
    | .error c => .error c
  | .fifo => .error .fifoRead
  | .unmapped => .error .bus

/-- `BusWrite(a, v)` by engine `e`. -/
def busWrite (e : Engine) (a : Addr) (v : Word) (s : State) : Except FaultCode State :=
  match region s.cfg a with
  | .ram => .ok { s with ram := writeMem s.ram a.toNat .word v }
  | .window off => regWrite off v (.engine e) s
  | .fifo => fifoPush v s
  | .unmapped => .error .bus

/-! ### The word-transfer step (42_engine_transfer.md rules R240 to R246) -/

/-- When `EngineStep(e)` is enabled (rule R241). -/
def engineEnabled (e : Engine) (s : State) : Bool :=
  s.fault.isNone && (s.ch e).busy && (!(ctrlPaced (s.ch e).ctrl) || s.dreq)

/-- The first part of the step: the alignment check and the read (rule R240, 20_memory.md rule R64). -/
def fetchWord (e : Engine) (s : State) : Except FaultCode (Word × State) :=
  if !(wordAligned (s.ch e).readAddr) || !(wordAligned (s.ch e).writeAddr) then .error .align
  else busRead (s.ch e).readAddr s

/-- The address updates of a word that was read at `ra` and written at `wa` (rules R243 and R244). -/
def advance (ra wa : Addr) (c : Channel) : Channel :=
  { c with
    readAddr := if ctrlIncrRead c.ctrl then ringInc ra (ctrlReadRing c.ctrl) else c.readAddr
    writeAddr := if ctrlIncrWrite c.ctrl then ringInc wa (ctrlWriteRing c.ctrl) else c.writeAddr }

/-- The chained trigger of a block's completion (41_trigger_and_completion.md rule R210). -/
def chain (e : Engine) (s : State) : Except FaultCode State :=
  if ctrlChainEn (s.ch e).ctrl then trigger (ctrlChainTo (s.ch e).ctrl) s else .ok s

/-- The counter, and the completion when it reaches 0 (rules R245 and R246). -/
def countWord (e : Engine) (s : State) : Except FaultCode State :=
  if (s.ch e).remaining - 1 = 0 then
    chain e ((s.setCh e { s.ch e with remaining := (s.ch e).remaining - 1, busy := false }).record (.complete e))
  else .ok (s.setCh e { s.ch e with remaining := (s.ch e).remaining - 1 })

/-- The rest of the step for a word `v` that was read: the event, the write, the addresses, the counter, the end of the
step (rule R240). -/
def moveWord (e : Engine) (v : Word) (s : State) : Except FaultCode State :=
  match busWrite e (s.ch e).writeAddr v (s.record (.word e (s.ch e).readAddr (s.ch e).writeAddr v)) with
  | .error c => .error c
  | .ok t =>
    match countWord e (t.setCh e (advance (s.ch e).readAddr (s.ch e).writeAddr (t.ch e))) with
    | .error c => .error c
    | .ok u => .ok (endOfStep u)

/-- `EngineStep(e)` of an enabled engine (rule R240). -/
def engineStep (e : Engine) (s : State) : Except FaultCode State :=
  match fetchWord e s with
  | .error c => .error c
  | .ok (v, t) => moveWord e v t

/-- `EngineStep(e)` whose read is known to give `v`: the same step, for a word that a decoded descriptor names. -/
def engineStepWith (e : Engine) (v : Word) (s : State) : Except FaultCode State :=
  match fetchWord e s with
  | .error c => .error c
  | .ok (_, t) => moveWord e v t

/-- The state after a turn of engine `e`: an engine that is not enabled holds, a step that faults leaves the record
(rules R241 and R252, 60_exceptions.md rule R321). -/
def engineTurn (e : Engine) (s : State) : State :=
  if engineEnabled e s then
    match engineStep e s with
    | .ok t => t
    | .error c => raiseFault c s
  else s

/-- The same for a word that a decoded descriptor names. -/
def engineTurnWith (e : Engine) (v : Word) (s : State) : State :=
  if engineEnabled e s then
    match engineStepWith e v s with
    | .ok t => t
    | .error c => raiseFault c s
  else s

/-- The CTE moves a descriptor (42_engine_transfer.md rule R248): the count, then the source address, as two steps of
engine 0. -/
def loadDescriptor (count addr : Word) (s : State) : State :=
  engineTurnWith .e0 addr (engineTurnWith .e0 count s)

/-! ### Host access to RAM (40_host_register_access.md rules R185 and R186) -/

/-- `MW`, `MH`, `MB` (rule R185). -/
def hostWrite (a : Addr) (w : Width) (v : Word) (s : State) : Except FaultCode State :=
  match raceWrite a.toNat (widthBytes w) s with
  | .ok t => .ok { t with ram := writeMem t.ram a.toNat w v }
  | .error c => .error c

/-- `MR` and the narrower reads of 20_memory.md rule R68 (rule R186). -/
def hostRead (a : Addr) (w : Width) (s : State) : State := { s with rdata := readMem s.ram a.toNat w }

end Sys2Proof.Machine
end

