-- ==== Sys2Proof/Machine/ChannelReads.lean ====
section
/-! DEFINITION. The channel register reads (40_host_register_access.md rules R162 to R177), one meaning per row of the opcode
table. Every one delivers the register's value to the reader and changes nothing else; the host holds what it read in
`rdata` (log entry 6). -/

namespace Sys2Proof.Machine

/-- `RD CH<e>.READ_ADDR`, offset `0x00 + 0x40*e` (rule R162). -/
def execRdReadAddr (e : Engine) (s : State) : Result :=
  conclude s (.ok { s with rdata := chanRead e .readAddr s })

/-- `RD CH<e>.WRITE_ADDR`, offset `0x04 + 0x40*e` (rule R163). -/
def execRdWriteAddr (e : Engine) (s : State) : Result :=
  conclude s (.ok { s with rdata := chanRead e .writeAddr s })

/-- `RD CH<e>.TRANS_COUNT`, offset `0x08 + 0x40*e` (rule R164). -/
def execRdTransCount (e : Engine) (s : State) : Result :=
  conclude s (.ok { s with rdata := chanRead e .transCount s })

/-- `RD CH<e>.CTRL_TRIG`, offset `0x0C + 0x40*e` (rule R165). -/
def execRdCtrlTrig (e : Engine) (s : State) : Result :=
  conclude s (.ok { s with rdata := chanRead e .ctrl s })

/-- `RD CH<e>.AL1_CTRL`, offset `0x10 + 0x40*e` (rule R166). -/
def execRdAl1Ctrl (e : Engine) (s : State) : Result :=
  conclude s (.ok { s with rdata := chanRead e .ctrl s })

/-- `RD CH<e>.AL1_READ_ADDR`, offset `0x14 + 0x40*e` (rule R167). -/
def execRdAl1ReadAddr (e : Engine) (s : State) : Result :=
  conclude s (.ok { s with rdata := chanRead e .readAddr s })

/-- `RD CH<e>.AL1_WRITE_ADDR`, offset `0x18 + 0x40*e` (rule R168). -/
def execRdAl1WriteAddr (e : Engine) (s : State) : Result :=
  conclude s (.ok { s with rdata := chanRead e .writeAddr s })

/-- `RD CH<e>.AL1_TRANS_COUNT_TRIG`, offset `0x1C + 0x40*e` (rule R169). -/
def execRdAl1TransCountTrig (e : Engine) (s : State) : Result :=
  conclude s (.ok { s with rdata := chanRead e .transCount s })

/-- `RD CH<e>.AL2_CTRL`, offset `0x20 + 0x40*e` (rule R170). -/
def execRdAl2Ctrl (e : Engine) (s : State) : Result :=
  conclude s (.ok { s with rdata := chanRead e .ctrl s })

/-- `RD CH<e>.AL2_TRANS_COUNT`, offset `0x24 + 0x40*e` (rule R171). -/
def execRdAl2TransCount (e : Engine) (s : State) : Result :=
  conclude s (.ok { s with rdata := chanRead e .transCount s })

/-- `RD CH<e>.AL2_READ_ADDR`, offset `0x28 + 0x40*e` (rule R172). -/
def execRdAl2ReadAddr (e : Engine) (s : State) : Result :=
  conclude s (.ok { s with rdata := chanRead e .readAddr s })

/-- `RD CH<e>.AL2_WRITE_ADDR_TRIG`, offset `0x2C + 0x40*e` (rule R173). -/
def execRdAl2WriteAddrTrig (e : Engine) (s : State) : Result :=
  conclude s (.ok { s with rdata := chanRead e .writeAddr s })

/-- `RD CH<e>.AL3_CTRL`, offset `0x30 + 0x40*e` (rule R174). -/
def execRdAl3Ctrl (e : Engine) (s : State) : Result :=
  conclude s (.ok { s with rdata := chanRead e .ctrl s })

/-- `RD CH<e>.AL3_WRITE_ADDR`, offset `0x34 + 0x40*e` (rule R175). -/
def execRdAl3WriteAddr (e : Engine) (s : State) : Result :=
  conclude s (.ok { s with rdata := chanRead e .writeAddr s })

/-- `RD CH<e>.AL3_TRANS_COUNT`, offset `0x38 + 0x40*e` (rule R176). -/
def execRdAl3TransCount (e : Engine) (s : State) : Result :=
  conclude s (.ok { s with rdata := chanRead e .transCount s })

/-- `RD CH<e>.AL3_READ_ADDR_TRIG`, offset `0x3C + 0x40*e` (rule R177). -/
def execRdAl3ReadAddrTrig (e : Engine) (s : State) : Result :=
  conclude s (.ok { s with rdata := chanRead e .readAddr s })

end Sys2Proof.Machine
end

