-- ==== Sys2Proof/Machine/ChannelWrites.lean ====
section
/-! DEFINITION. The channel register writes (40_host_register_access.md rules R146 to R161), one meaning per row of the opcode
table. Every one is the write of R141 at its slot; slot 3 of each alias also triggers (R142). -/

namespace Sys2Proof.Machine

/-- `WR CH<e>.READ_ADDR`, offset `0x00 + 0x40*e` (rule R146). -/
def execWrReadAddr (e : Engine) (v : Word) (m : Master) (s : State) : Result :=
  conclude s (slotWrite e .readAddr false v m s)

/-- `WR CH<e>.WRITE_ADDR`, offset `0x04 + 0x40*e` (rule R147). -/
def execWrWriteAddr (e : Engine) (v : Word) (m : Master) (s : State) : Result :=
  conclude s (slotWrite e .writeAddr false v m s)

/-- `WR CH<e>.TRANS_COUNT`, offset `0x08 + 0x40*e` (rule R148). -/
def execWrTransCount (e : Engine) (v : Word) (m : Master) (s : State) : Result :=
  conclude s (slotWrite e .transCount false v m s)

/-- `WR CH<e>.CTRL_TRIG`, offset `0x0C + 0x40*e` (rule R149). -/
def execWrCtrlTrig (e : Engine) (v : Word) (m : Master) (s : State) : Result :=
  conclude s (slotWrite e .ctrl true v m s)

/-- `WR CH<e>.AL1_CTRL`, offset `0x10 + 0x40*e` (rule R150). -/
def execWrAl1Ctrl (e : Engine) (v : Word) (m : Master) (s : State) : Result :=
  conclude s (slotWrite e .ctrl false v m s)

/-- `WR CH<e>.AL1_READ_ADDR`, offset `0x14 + 0x40*e` (rule R151). -/
def execWrAl1ReadAddr (e : Engine) (v : Word) (m : Master) (s : State) : Result :=
  conclude s (slotWrite e .readAddr false v m s)

/-- `WR CH<e>.AL1_WRITE_ADDR`, offset `0x18 + 0x40*e` (rule R152). -/
def execWrAl1WriteAddr (e : Engine) (v : Word) (m : Master) (s : State) : Result :=
  conclude s (slotWrite e .writeAddr false v m s)

/-- `WR CH<e>.AL1_TRANS_COUNT_TRIG`, offset `0x1C + 0x40*e` (rule R153). -/
def execWrAl1TransCountTrig (e : Engine) (v : Word) (m : Master) (s : State) : Result :=
  conclude s (slotWrite e .transCount true v m s)

/-- `WR CH<e>.AL2_CTRL`, offset `0x20 + 0x40*e` (rule R154). -/
def execWrAl2Ctrl (e : Engine) (v : Word) (m : Master) (s : State) : Result :=
  conclude s (slotWrite e .ctrl false v m s)

/-- `WR CH<e>.AL2_TRANS_COUNT`, offset `0x24 + 0x40*e` (rule R155). -/
def execWrAl2TransCount (e : Engine) (v : Word) (m : Master) (s : State) : Result :=
  conclude s (slotWrite e .transCount false v m s)

/-- `WR CH<e>.AL2_READ_ADDR`, offset `0x28 + 0x40*e` (rule R156). -/
def execWrAl2ReadAddr (e : Engine) (v : Word) (m : Master) (s : State) : Result :=
  conclude s (slotWrite e .readAddr false v m s)

/-- `WR CH<e>.AL2_WRITE_ADDR_TRIG`, offset `0x2C + 0x40*e` (rule R157). -/
def execWrAl2WriteAddrTrig (e : Engine) (v : Word) (m : Master) (s : State) : Result :=
  conclude s (slotWrite e .writeAddr true v m s)

/-- `WR CH<e>.AL3_CTRL`, offset `0x30 + 0x40*e` (rule R158). -/
def execWrAl3Ctrl (e : Engine) (v : Word) (m : Master) (s : State) : Result :=
  conclude s (slotWrite e .ctrl false v m s)

/-- `WR CH<e>.AL3_WRITE_ADDR`, offset `0x34 + 0x40*e` (rule R159). -/
def execWrAl3WriteAddr (e : Engine) (v : Word) (m : Master) (s : State) : Result :=
  conclude s (slotWrite e .writeAddr false v m s)

/-- `WR CH<e>.AL3_TRANS_COUNT`, offset `0x38 + 0x40*e` (rule R160). -/
def execWrAl3TransCount (e : Engine) (v : Word) (m : Master) (s : State) : Result :=
  conclude s (slotWrite e .transCount false v m s)

/-- `WR CH<e>.AL3_READ_ADDR_TRIG`, offset `0x3C + 0x40*e` (rule R161). -/
def execWrAl3ReadAddrTrig (e : Engine) (v : Word) (m : Master) (s : State) : Result :=
  conclude s (slotWrite e .readAddr true v m s)

end Sys2Proof.Machine
end

