-- ==== Sys2Proof/Machine/Descriptors.lean ====
section
/-! DEFINITION. The descriptors (30_encoding.md rule R113, 43_pipeline_protocol.md rule R280): what the control-transfer engine does
with the two words of a descriptor (42_engine_transfer.md rule R248). Each word is a step of engine 0 with all its effects
(rule R240): with the CTE armed by `ARM_CTE` the count lands in `ch[1].RELOAD` and the address in `ch[1].READ_ADDR`, whose
slot triggers engine 1; with another configuration the words go where engine 0's registers send them (rule R249). -/

namespace Sys2Proof.Machine

/-- A data descriptor (rules R113 and R248). -/
def execDescData (c a : Word) (s : State) : Result := conclude s (.ok (loadDescriptor c a s))

/-- The sentinel (rule R280): count 0, so the trigger it causes is a null trigger (41_trigger_and_completion.md
rule R204). -/
def execDescSentinel (a : Word) (s : State) : Result := conclude s (.ok (loadDescriptor 0 a s))

end Sys2Proof.Machine
end

