-- ==== Sys2Proof/Machine/Globals.lean ====
section
/-! DEFINITION. The global registers INTR, START and BUSY (40_host_register_access.md rules R178 to R183), one meaning per row of
the opcode table. -/

namespace Sys2Proof.Machine

/-- `RD INTR`, offset 0x80 (rule R178): the read does not clear the flags. -/
def execRdIntr (s : State) : Result := conclude s (.ok { s with rdata := intrValue s })

/-- `WR INTR`, offset 0x80 (rule R179): allowed while LIVE and from any master, so the master makes no difference. -/
def execWrIntr (v : Word) (_m : Master) (s : State) : Result := conclude s (.ok (intrWrite v s))

/-- `RD START`, offset 0x84 (rule R180). -/
def execRdStart (s : State) : Result := conclude s (.ok { s with rdata := startValue })

/-- `WR START`, offset 0x84 (rule R181). -/
def execWrStart (v : Word) (m : Master) (s : State) : Result := conclude s (startWrite v m s)

/-- `RD BUSY`, offset 0x88 (rule R182). -/
def execRdBusy (s : State) : Result := conclude s (.ok { s with rdata := busyValue s })

/-- `WR BUSY`, offset 0x88 (rule R183): skip. -/
def execWrBusy (_v : Word) (s : State) : Result := conclude s (.ok s)

end Sys2Proof.Machine
end

