-- ==== Sys2Proof/Machine/Reserved.lean ====
section
/-! DEFINITION. The reserved window offsets 0x8C to 0xFC (40_host_register_access.md rule R184): every access, read or write, by
any master, raises RESERVED_OFFSET. One meaning per row of the opcode table. -/

namespace Sys2Proof.Machine

/-- Offset 0x8C (rule R184). -/
def execReserved8C (_d : Access) (s : State) : Result := conclude s (.error .reservedOffset)

/-- Offsets 0x90 to 0x9C (rule R184). -/
def execReserved90 (_g : BitVec 2) (_d : Access) (s : State) : Result := conclude s (.error .reservedOffset)

/-- Offsets 0xA0 to 0xBC (rule R184). -/
def execReservedA0 (_g : BitVec 3) (_d : Access) (s : State) : Result := conclude s (.error .reservedOffset)

/-- Offsets 0xC0 to 0xFC (rule R184). -/
def execReservedC0 (_g : BitVec 4) (_d : Access) (s : State) : Result := conclude s (.error .reservedOffset)

end Sys2Proof.Machine
end

