-- ==== Sys2Proof/Machine/Dispatch.lean ====
section
/-! DEFINITION. What each instruction does: one arm per constructor, each one call of its meaning. -/

namespace Sys2Proof.Machine

/-- The meaning of an instruction on a state. -/
def exec (i : Instr) (s : State) : Host.Outcome State Fault Refusal :=
  match i with
  | .wrReadAddr e v m => Sys2Proof.Machine.execWrReadAddr e v m s
  | .wrWriteAddr e v m => Sys2Proof.Machine.execWrWriteAddr e v m s
  | .wrTransCount e v m => Sys2Proof.Machine.execWrTransCount e v m s
  | .wrCtrlTrig e v m => Sys2Proof.Machine.execWrCtrlTrig e v m s
  | .wrAl1Ctrl e v m => Sys2Proof.Machine.execWrAl1Ctrl e v m s
  | .wrAl1ReadAddr e v m => Sys2Proof.Machine.execWrAl1ReadAddr e v m s
  | .wrAl1WriteAddr e v m => Sys2Proof.Machine.execWrAl1WriteAddr e v m s
  | .wrAl1TransCountTrig e v m => Sys2Proof.Machine.execWrAl1TransCountTrig e v m s
  | .wrAl2Ctrl e v m => Sys2Proof.Machine.execWrAl2Ctrl e v m s
  | .wrAl2TransCount e v m => Sys2Proof.Machine.execWrAl2TransCount e v m s
  | .wrAl2ReadAddr e v m => Sys2Proof.Machine.execWrAl2ReadAddr e v m s
  | .wrAl2WriteAddrTrig e v m => Sys2Proof.Machine.execWrAl2WriteAddrTrig e v m s
  | .wrAl3Ctrl e v m => Sys2Proof.Machine.execWrAl3Ctrl e v m s
  | .wrAl3WriteAddr e v m => Sys2Proof.Machine.execWrAl3WriteAddr e v m s
  | .wrAl3TransCount e v m => Sys2Proof.Machine.execWrAl3TransCount e v m s
  | .wrAl3ReadAddrTrig e v m => Sys2Proof.Machine.execWrAl3ReadAddrTrig e v m s
  | .rdReadAddr e => Sys2Proof.Machine.execRdReadAddr e s
  | .rdWriteAddr e => Sys2Proof.Machine.execRdWriteAddr e s
  | .rdTransCount e => Sys2Proof.Machine.execRdTransCount e s
  | .rdCtrlTrig e => Sys2Proof.Machine.execRdCtrlTrig e s
  | .rdAl1Ctrl e => Sys2Proof.Machine.execRdAl1Ctrl e s
  | .rdAl1ReadAddr e => Sys2Proof.Machine.execRdAl1ReadAddr e s
  | .rdAl1WriteAddr e => Sys2Proof.Machine.execRdAl1WriteAddr e s
  | .rdAl1TransCountTrig e => Sys2Proof.Machine.execRdAl1TransCountTrig e s
  | .rdAl2Ctrl e => Sys2Proof.Machine.execRdAl2Ctrl e s
  | .rdAl2TransCount e => Sys2Proof.Machine.execRdAl2TransCount e s
  | .rdAl2ReadAddr e => Sys2Proof.Machine.execRdAl2ReadAddr e s
  | .rdAl2WriteAddrTrig e => Sys2Proof.Machine.execRdAl2WriteAddrTrig e s
  | .rdAl3Ctrl e => Sys2Proof.Machine.execRdAl3Ctrl e s
  | .rdAl3WriteAddr e => Sys2Proof.Machine.execRdAl3WriteAddr e s
  | .rdAl3TransCount e => Sys2Proof.Machine.execRdAl3TransCount e s
  | .rdAl3ReadAddrTrig e => Sys2Proof.Machine.execRdAl3ReadAddrTrig e s
  | .rdIntr => Sys2Proof.Machine.execRdIntr s
  | .wrIntr v m => Sys2Proof.Machine.execWrIntr v m s
  | .rdStart => Sys2Proof.Machine.execRdStart s
  | .wrStart v m => Sys2Proof.Machine.execWrStart v m s
  | .rdBusy => Sys2Proof.Machine.execRdBusy s
  | .wrBusy v => Sys2Proof.Machine.execWrBusy v s
  | .reserved8C d => Sys2Proof.Machine.execReserved8C d s
  | .reserved90 g d => Sys2Proof.Machine.execReserved90 g d s
  | .reservedA0 g d => Sys2Proof.Machine.execReservedA0 g d s
  | .reservedC0 g d => Sys2Proof.Machine.execReservedC0 g d s
  | .descData c a => Sys2Proof.Machine.execDescData c a s
  | .descSentinel a => Sys2Proof.Machine.execDescSentinel a s

end Sys2Proof.Machine
end

