-- ==== Sys2Proof/Machine/Agents.lean ====
section
/-! DEFINITION. The agents' turns: the host's next command, an engine's word, a whole descriptor, an output step, block reset
(10_state.md rule R20, 20_memory.md rules R68 and R75), and how an instruction's bytes are fetched. -/

namespace Sys2Proof.Machine

/-- Run a command record that arrives at the window from master `m`. -/
def runRecord (m : Master) (bytes : List Byte) (s : State) : Result :=
  match decode (.window m) bytes with
  | .ok i => exec i s
  | .error e => .refused (.undecodable e)

/-- A host access (20_memory.md rule R68, 40_host_register_access.md rules R185 and R186): to the window it is a
register-access command if it is a 32-bit access at a 4-aligned offset, else it faults; to RAM it must be naturally
aligned; any other is refused. -/
def hostAccess (a : Addr) (w : Width) (d : Access) (s : State) : Result :=
  match region s.cfg (wordOf a) with
  | .window off =>
    if w = .word ∧ wordAligned a then runRecord .host (commandRecord off d) s
    else conclude s (.error .hostWidth)
  | .ram =>
    if naturallyAligned a w then
      match d with
      | .read => conclude s (.ok (hostRead a w s))
      | .write v => conclude s (hostWrite a w v s)
    else .refused (.hostAccess a)
  | .fifo => .refused (.hostAccess a)
  | .unmapped => .refused (.hostAccess a)

/-- A `POLL` read has not yet seen a set bit of the mask (40_host_register_access.md rule R187). -/
def pollAgain (mask : Word) (s : State) : Bool := s.fault.isNone && (s.rdata &&& mask == 0)

/-- One command of the host. A `POLL` whose read fails the test comes again as the host's next command
(30_encoding.md rule R118, 40_host_register_access.md rule R187). -/
def hostCommand (op : HostOp) (s : State) : Result :=
  match op with
  | .read a w => hostAccess a w .read s
  | .write a w v => hostAccess a w (.write v) s
  | .poll a mask =>
    match hostAccess a .word .read s with
    | .next t => .next (if pollAgain mask t then { t with host := .poll a mask :: t.host } else t)
    | .fault c => .fault c
    | .refused r => .refused r

/-- The host's turn (40_host_register_access.md rule R188): the next command of its program. A host whose program is over
takes no step. -/
def hostTurn (s : State) : Result :=
  match s.host with
  | [] => .next s
  | op :: rest => hostCommand op { s with host := rest }

/-- Engine 0 stands before a descriptor in the CTE role: armed as `ARM_CTE` arms it and at the start of its two-word block
(30_encoding.md rule R119, 42_engine_transfer.md rule R248), with the descriptor's two words at READ_ADDR and at the next word
address, modulo `2^32`, in RAM. Only then do those eight bytes tell what the whole block moves. -/
def atDescriptor (s : State) : Bool :=
  engineEnabled .e0 s && (s.ch0.remaining == 2) && ctrlIncrRead s.ch0.ctrl && ctrlIncrWrite s.ch0.ctrl
    && (ctrlWriteRing s.ch0.ctrl == 3) && !(ctrlPaced s.ch0.ctrl)
    && (s.ch0.writeAddr == windowAddr s.cfg 0x78) && (region s.cfg s.ch0.writeAddr == .window 0x78)
    && wordAligned s.ch0.readAddr && wordAligned s.ch0.writeAddr
    && (ringInc s.ch0.readAddr (ctrlReadRing s.ch0.ctrl) == wordAt s.ch0.readAddr 1)
    && (region s.cfg s.ch0.readAddr == .ram) && (region s.cfg (wordAt s.ch0.readAddr 1) == .ram)

/-- The eight bytes of the descriptor at `d`: its two words, the second at the next word address modulo `2^32`
(30_encoding.md rule R113, 00_scope.md rule R10). -/
def descriptorBytes (m : Memory) (d : Addr) : List Byte := readBytes m d.toNat 4 ++ readBytes m (wordAt d 1).toNat 4

/-- The CTE's turn for a whole descriptor: the eight bytes from READ_ADDR on are decoded and the descriptor is run. Where
engine 0 does not stand before a descriptor, its turn is one word step (log entry 5). -/
def descriptorTurn (s : State) : Result :=
  if atDescriptor s then
    match decode .list (descriptorBytes s.ram s.ch0.readAddr) with
    | .ok i => exec i s
    | .error e => .refused (.undecodable e)
  else .next (engineTurn .e0 s)

/-- One turn. Block reset can come at any time (70_reset_and_hazards.md rule R350); no other step is enabled once
`FAULT` is set (60_exceptions.md rule R321). -/
def takeTurn (t : Turn) (s : State) : Result :=
  match t with
  | .blockReset => .next (blockReset s)
  | .host => match s.fault with | some c => .fault (.stuck c) | none => hostTurn s
  | .engine e => match s.fault with | some c => .fault (.stuck c) | none => .next (engineTurn e s)
  | .descriptor => match s.fault with | some c => .fault (.stuck c) | none => descriptorTurn s
  | .output => match s.fault with | some c => .fault (.stuck c) | none => .next (outputStep s)

/-- Every step ends as 20_memory.md rule R79 says. -/
def finish (r : Result) : Result :=
  match r with
  | .next t => .next (endOfStep t)
  | .fault c => .fault c
  | .refused x => .refused x

/-- Whose turn it is, and the state with the turn taken off the schedule; with no schedule the free value says
(log entry 4). -/
def nextTurn (s : State) : Turn × State :=
  match s.sched with
  | [] => (freeTurn s.tick, { s with tick := s.tick + 1 })
  | t :: rest => (t, { s with sched := rest })

/-- The first aligned address of ordinary memory that the parameters name. -/
def firstRamAddr (cfg : Config) : Addr :=
  match cfg.ramRanges with
  | [] => 0
  | r :: _ => BitVec.ofNat 32 (4 * r.first)

/-- Engine 0 armed by `ARM_CTE d, 0, 3` and started (30_encoding.md rule R119, 43_pipeline_protocol.md rule R283). -/
def cteAt (d : Addr) (s : State) : Channel where
  readAddr := d
  writeAddr := windowAddr s.cfg 0x78
  reload := 2
  remaining := 2
  ctrl := 0x061D
  busy := true
  done := s.ch0.done

/-- Put a command where the host's turn fetches it, and give the host the next turn. -/
def placeCommand (off : BitVec 8) (d : Access) (s : State) : State :=
  { s with
    host := (match d with
      | .read => HostOp.read (windowAddr s.cfg off) .word
      | .write v => HostOp.write (windowAddr s.cfg off) .word v) :: s.host
    sched := .host :: s.sched }

/-- Put a descriptor where the CTE fetches it, and give the CTE the next turn. -/
def placeDescriptor (bytes : List Byte) (s : State) : State :=
  { s with
    ram := writeBytes s.ram (firstRamAddr s.cfg).toNat bytes
    ch0 := cteAt (firstRamAddr s.cfg) s
    sched := .descriptor :: s.sched }

/-- The access of the command whose bits are `w`. -/
def tableAccess (w : Nat) : Access :=
  if w.testBit 8 then .write (BitVec.ofNat 32 (w / 2 ^ 16)) else .read

end Sys2Proof.Machine
end

