-- ==== Sys2Proof/Machine/Step.lean ====
section
/-! DEFINITION. One step of the machine, and where the host's check places an instruction. -/

namespace Sys2Proof.Machine

/-- One step: the agent whose turn it is takes it (20_memory.md rule R75), and the step ends as rule R79 says. -/
def step (s : State) : Host.Outcome State Fault Refusal :=
  finish (takeTurn (nextTurn s).1 (nextTurn s).2)

/-- `s` with the instruction whose bits are `w` where the next step fetches it: a command is the next of the host's program
and the host has the next turn; a descriptor stands in RAM before an armed and started CTE, which has the next turn
(log entry 8). -/
def State.withFetchWord (s : State) (nbits w : Nat) : State :=
  if isDescriptorRow nbits then placeDescriptor (tableBytes nbits w) s
  else placeCommand (BitVec.ofNat 8 w) (tableAccess w) s

end Sys2Proof.Machine
end

