-- ==== Sys2Proof/Machine/Pipeline.lean ====
section
/-! DEFINITION. The host's pseudo-instructions (30_encoding.md rule R119), descriptor lists and the named configurations
(43_pipeline_protocol.md rules R280 to R288), and the pipeline state machine, which is a function of the state and of the event
history, not extra hardware state (rules R289 to R295). No step uses this file. -/

namespace Sys2Proof.Machine

/-! ### Host programs (30_encoding.md rules R118 and R119) -/

/-- The fields of a CTRL word, every one 0 unless named (`CTRLV(...)` of rule R119). -/
structure CtrlFields where
  en : Bool := false
  dataSize : BitVec 2 := 0
  incrRead : Bool := false
  incrWrite : Bool := false
  readRing : BitVec 4 := 0
  writeRing : BitVec 4 := 0
  paced : Bool := false
  chainEn : Bool := false
  chainTo : Engine := .e0
deriving DecidableEq, Repr

/-- The CTRL word of the fields (30_encoding.md rules R106 and R119). -/
def ctrlv (f : CtrlFields) : Word :=
  0#16 ++ engineBit f.chainTo ++ BitVec.ofBool f.chainEn ++ BitVec.ofBool f.paced ++ f.writeRing ++ f.readRing
    ++ BitVec.ofBool f.incrWrite ++ BitVec.ofBool f.incrRead ++ f.dataSize ++ BitVec.ofBool f.en

/-- `WR <reg>, v` for the register at a window offset (rule R118). -/
def wr (cfg : Config) (off : BitVec 8) (v : Word) : HostOp := .write (windowAddr cfg off) .word v

/-- `RD <reg>` (rule R118). -/
def rd (cfg : Config) (off : BitVec 8) : HostOp := .read (windowAddr cfg off) .word

/-- The CTRL word of `ARM_CTE` (rule R119). -/
def cteCtrl (rring wring : BitVec 4) : Word :=
  ctrlv { en := true, dataSize := wordSize, incrRead := true, incrWrite := true, readRing := rring, writeRing := wring }

/-- The CTRL word of `ARM_CTE_MIN` (rule R119). -/
def cteMinCtrl : Word := ctrlv { en := true, dataSize := wordSize }

/-- The CTRL word of `ARM_DTE` (rule R119). -/
def dteCtrl (target : Engine) : Word :=
  ctrlv { en := true, dataSize := wordSize, incrRead := true, paced := true, chainEn := true, chainTo := target }

/-- `ARM_CTE list, rring, wring` (rule R119). -/
def armCte (cfg : Config) (list : Addr) (rring wring : BitVec 4) : List HostOp :=
  [wr cfg 0x00 list, wr cfg 0x04 (windowAddr cfg 0x78), wr cfg 0x08 2, wr cfg 0x10 (cteCtrl rring wring)]

/-- `ARM_CTE_MIN ptr` (rule R119). -/
def armCteMin (cfg : Config) (ptr : Addr) : List HostOp :=
  [wr cfg 0x00 ptr, wr cfg 0x04 (windowAddr cfg 0x7C), wr cfg 0x08 1, wr cfg 0x10 cteMinCtrl]

/-- `ARM_DTE fifo, chain` (rule R119). -/
def armDte (cfg : Config) (fifo : Addr) (target : Engine) : List HostOp :=
  [wr cfg 0x44 fifo, wr cfg 0x50 (dteCtrl target)]

/-- `ARM_DTE_MIN fifo, count` (rule R119). -/
def armDteMin (cfg : Config) (fifo : Addr) (count : Word) : List HostOp := armDte cfg fifo .e0 ++ [wr cfg 0x48 count]

/-- `START_CTE` (rule R119). -/
def startCte (cfg : Config) : List HostOp := [wr cfg 0x84 1]

/-- `CLEAR_DONE` (rule R119). -/
def clearDoneOps (cfg : Config) : List HostOp := [wr cfg 0x80 3]

/-- `POLL_DONE` (rule R119). -/
def pollDone (cfg : Config) : List HostOp := [.poll (windowAddr cfg 0x80) 2]

/-! ### Descriptor lists (43_pipeline_protocol.md rule R280) -/

/-- Descriptor `k` of the list at `d`: its count, at `d + 8k`, and its source address, at `d + 8k + 4`, modulo `2^32`
(rule R280, 00_scope.md rule R10). -/
def descriptorAt (m : Memory) (d : Addr) (k : Nat) : Word × Word :=
  (readWord m (wordAt d (2 * k)).toNat, readWord m (wordAt d (2 * k + 1)).toNat)

/-- All `n` words from `a` on, modulo `2^32`, are ordinary memory. -/
def wordsInRam (cfg : Config) (a : Addr) (n : Nat) : Bool := (List.range n).all fun k => isRam cfg (wordAt a k)

/-- A finite list of `n` data descriptors at `d`, then the sentinel (rule R280). -/
def isFiniteList (cfg : Config) (m : Memory) (d : Addr) (n : Nat) : Bool :=
  wordAligned d && wordsInRam cfg d (2 * (n + 1))
    && ((List.range n).all fun k => (descriptorAt m d k).1 != 0) && ((descriptorAt m d n).1 == 0)

/-- A looping list of two descriptors at `d` (rule R280). -/
def isLoopingList (cfg : Config) (m : Memory) (d : Addr) : Bool :=
  (d.extractLsb' 0 4 == 0#4) && wordsInRam cfg d 4
    && ((descriptorAt m d 0).1 != 0) && ((descriptorAt m d 1).1 != 0)

/-! ### The named configurations (rules R283, R284 and R287) -/

/-- `FINITE(d, fifo)`, `LOOP(d, fifo)` and `MIN(p, fifo, n)`. -/
inductive Configuration where
  | finite (d fifo : Addr)
  | loop (d fifo : Addr)
  | min (p fifo : Addr) (n : Word)
deriving DecidableEq, Repr

/-- The host steps that arm a configuration, in the order of the rules. -/
def armOps (cfg : Config) : Configuration → List HostOp
  | .finite d fifo => armDte cfg fifo .e0 ++ armCte cfg d 0 3
  | .loop d fifo => armDte cfg fifo .e0 ++ armCte cfg d 4 3
  | .min p fifo n => armDteMin cfg fifo n ++ armCteMin cfg p

/-- The registers stand as the configuration's arming leaves them (the tables of rules R283, R284 and R287). -/
def armedBy (k : Configuration) (s : State) : Bool :=
  match k with
  | .finite d fifo =>
    s.ch0.readAddr == d && s.ch0.writeAddr == windowAddr s.cfg 0x78 && s.ch0.reload == 2
      && s.ch0.ctrl == ctrlStored (cteCtrl 0 3) && s.ch1.writeAddr == fifo && s.ch1.ctrl == ctrlStored (dteCtrl .e0)
  | .loop d fifo =>
    s.ch0.readAddr == d && s.ch0.writeAddr == windowAddr s.cfg 0x78 && s.ch0.reload == 2
      && s.ch0.ctrl == ctrlStored (cteCtrl 4 3) && s.ch1.writeAddr == fifo && s.ch1.ctrl == ctrlStored (dteCtrl .e0)
  | .min p fifo n =>
    s.ch0.readAddr == p && s.ch0.writeAddr == windowAddr s.cfg 0x7C && s.ch0.reload == 1
      && s.ch0.ctrl == ctrlStored cteMinCtrl && s.ch1.writeAddr == fifo && s.ch1.ctrl == ctrlStored (dteCtrl .e0)
      && s.ch1.reload == n

/-! ### The pipeline state machine (rule R289) -/

/-- The states of rule R289. -/
inductive PipelineState where
  | idle
  | armed
  | loading (k : Nat)
  | streaming (k : Nat)
  | halted
deriving DecidableEq, Repr

/-- The sequencer is in its block reset state (10_state.md rule R31). -/
def inBlockReset (s : State) : Bool :=
  s.ch0 == Channel.reset && s.ch1 == Channel.reset && s.rset == [] && s.wset == [] && s.fault == none

/-- The event is a `BLOCK` of engine `e`. -/
def isBlockOf (e : Engine) : Event → Bool
  | .block x _ _ _ => x == e
  | _ => false

/-- How many blocks engine `e` has started since the history held `n` events. -/
def blocksSince (e : Engine) (n : Nat) (s : State) : Nat := (s.ev.drop n).countP (isBlockOf e)

/-- The pipeline state of a configuration (rule R289). `started` is how many events the history held just before the host's
start trigger, none before it; a state of no named configuration has no pipeline state (log entry 9). -/
def pipelineState (k : Configuration) (started : Option Nat) (s : State) : Option PipelineState :=
  match started with
  | none =>
    if inBlockReset s then some .idle
    else if armedBy k s && !s.live && !s.ch1.done then some .armed
    else none
  | some n =>
    if s.ch0.busy then some (.loading (blocksSince .e0 n s - 1))
    else if s.ch1.busy then some (.streaming (blocksSince .e1 n s - 1))
    else if s.ch1.done then some .halted
    else none

end Sys2Proof.Machine
end

