-- ==== Sys2Proof/Safety.lean ====
section
/-! DEFINITION. What counts as a safe state and a safe run, in the terms that the statements use. -/

namespace Sys2Proof.Machine

/-- The invariant of the machine: what holds of the launch state and what every step keeps. -/
structure Invariant (s : State) : Prop where
  /-- Memory has its canonical form. -/
  ramWf : Memory.wf s.ram = true
  /-- Memory lists ordinary memory only (10_state.md rule R28). -/
  ramOnly : ∀ c ∈ s.ram, isRamByte s.cfg c.1 = true
  /-- The race sets have their canonical form. -/
  rsetRising : rising s.rset = true
  wsetRising : rising s.wset = true
  /-- The race sets hold RAM bytes only (10_state.md rule R28). -/
  rsetRam : ∀ a ∈ s.rset, isRamByte s.cfg a = true
  wsetRam : ∀ a ∈ s.wset, isRamByte s.cfg a = true
  /-- No byte is in both race sets: the step that would put it there faults (20_memory.md rule R78). -/
  noRace : ∀ a ∈ s.rset, a ∉ s.wset
  /-- With no engine busy the race sets are empty (20_memory.md rule R79). -/
  quietSets : s.live = false → s.rset = [] ∧ s.wset = []
  /-- An engine is busy exactly while words remain (10_state.md rule R24, 42_engine_transfer.md rule R245). -/
  busyCounts : ∀ e, (s.ch e).busy = true ↔ (s.ch e).remaining ≠ 0
  /-- A busy engine is enabled and moves 32-bit words (41_trigger_and_completion.md rules R203 and R205). -/
  busyLegal : ∀ e, (s.ch e).busy = true → ctrlEn (s.ch e).ctrl = true ∧ ctrlDataSize (s.ch e).ctrl = wordSize
  /-- The FIFO holds at most `OUT_FIFO_DEPTH` words (20_memory.md rule R70). -/
  fifoBound : s.fifo.length ≤ s.cfg.outFifoDepth
  /-- What the FIFO holds are the last words pushed (42_engine_transfer.md rules R255 and R257). -/
  fifoOut : s.fifo <:+ s.out

/-- Some step of the agent is enabled (42_engine_transfer.md rules R241 and R255, 60_exceptions.md rule R321). -/
def turnEnabled (t : Turn) (s : State) : Bool :=
  match t with
  | .host => s.fault.isNone && !s.host.isEmpty
  | .engine e => engineEnabled e s
  | .descriptor => engineEnabled .e0 s
  | .output => s.fault.isNone && !s.fifo.isEmpty
  | .blockReset => true

/-- An infinite run: turn `turns n` leads from `states n` to `states (n + 1)` (20_memory.md rule R75). -/
def IsRun (states : Nat → State) (turns : Nat → Turn) : Prop :=
  ∀ n, finish (takeTurn (turns n) (states n)) = .next (states (n + 1))

/-- Weak fairness (42_engine_transfer.md rule R256): an engine step or an output step that stays enabled is taken. -/
def WeaklyFair (states : Nat → State) (turns : Nat → Turn) : Prop :=
  ∀ t ∈ [Turn.engine .e0, Turn.engine .e1, Turn.output],
    ∀ n, ∃ m, n ≤ m ∧ (turns m = t ∨ turnEnabled t (states m) = false)

/-- A run ends well at the state (43_pipeline_protocol.md rule R301): no fault, nothing live, the host's program over. -/
def endsWell (s : State) : Bool := s.fault.isNone && !s.live && s.host.isEmpty

/-- At most one engine is busy (43_pipeline_protocol.md rule R285, 90_conflicts.md C5). -/
def atMostOneBusy (s : State) : Bool := !(s.ch0.busy && s.ch1.busy)

/-- The registers of a running chained-list configuration, `FINITE` or `LOOP` with a read ring, at a step boundary
(43_pipeline_protocol.md rules R283 to R285): the CTE's write address tells which word of the descriptor is next, the DTE is
armed, and not both engines are busy. -/
structure Alternating (s : State) : Prop where
  cteCtrlArmed : s.ch0.ctrl = ctrlStored (cteCtrl (ctrlReadRing s.ch0.ctrl) 3)
  cteReload : s.ch0.reload = 2
  cteIdle : s.ch0.busy = false → s.ch0.remaining = 0 ∧ s.ch0.writeAddr = windowAddr s.cfg 0x78
  cteBusy : s.ch0.busy = true →
    (s.ch0.remaining = 2 ∧ s.ch0.writeAddr = windowAddr s.cfg 0x78)
      ∨ (s.ch0.remaining = 1 ∧ s.ch0.writeAddr = windowAddr s.cfg 0x7C)
  dteCtrlArmed : s.ch1.ctrl = ctrlStored (dteCtrl .e0)
  dteTarget : s.ch1.writeAddr = s.cfg.outFifoAddr
  dteCounts : s.ch1.busy = true ↔ s.ch1.remaining ≠ 0
  oneBusy : atMostOneBusy s = true

end Sys2Proof.Machine
end

