-- ==== Sys2Proof/Certificates/Slice0/Obligations.lean ====
section
/-! DEFINITION. The statements for the provers: what the numbered rules of spec/ say the commands, the engines and the machine do.
The helpers under `Sys2Proof.Claims` only name premises and forms that several statements share. An equation `exec i s = .next t`
says the result and the frame at once: whatever `t` does not name is as it was in `s`. -/

namespace Sys2Proof.Claims

open Sys2Proof.Machine

/-- The bytes of a write command: `C = {1, off}` with `off = off0 + 0x40 * e`, then the data word (the byte record of log entry 2). -/
def writeBytesAt (off0 : BitVec 8) (e : Engine) (v : Word) : List Byte :=
  (match e with | .e0 => off0 | .e1 => off0 + 0x40) :: 0x01 :: wordBytes v

/-- The bytes of a read command: `C = {0, off}` with `off = off0 + 0x40 * e` (the byte record of log entry 2). -/
def readBytesAt (off0 : BitVec 8) (e : Engine) : List Byte :=
  [match e with | .e0 => off0 | .e1 => off0 + 0x40, 0x00]

/-- A channel-slot write that is not a trigger slot: its encoding, its two faults, and its result `t`. -/
def SlotWriteRule (i : Instr) (off0 : BitVec 8) (e : Engine) (v : Word) (m : Master) (s t : State) : Prop :=
  decode (.window m) (writeBytesAt off0 e v) = .ok i ∧
  ((s.ch e).busy = true → exec i s = .next { s with fault := some .writeBusy }) ∧
  ((s.ch e).busy = false → m = .host → s.live = true → exec i s = .next { s with fault := some .hostLive }) ∧
  ((s.ch e).busy = false → (m = .host → s.live = false) → exec i s = .next t)

/-- A trigger-slot write: its encoding, its two faults, and what the trigger of engine `e` makes of the state `w` that holds
the value just written. -/
def TriggerSlotRule (i : Instr) (off0 : BitVec 8) (e : Engine) (v : Word) (m : Master) (s w : State) : Prop :=
  decode (.window m) (writeBytesAt off0 e v) = .ok i ∧
  ((s.ch e).busy = true → exec i s = .next { s with fault := some .writeBusy }) ∧
  ((s.ch e).busy = false → m = .host → s.live = true → exec i s = .next { s with fault := some .hostLive }) ∧
  ((s.ch e).busy = false → (m = .host → s.live = false) →
    (ctrlEn (w.ch e).ctrl = false → exec i s = .next { w with ev := w.ev ++ [.ignored e] }) ∧
    (ctrlEn (w.ch e).ctrl = true → (w.ch e).reload = 0 →
      exec i s = .next ((w.setCh e { w.ch e with done := true }).record (.null e))) ∧
    (ctrlEn (w.ch e).ctrl = true → (w.ch e).reload ≠ 0 → ctrlDataSize (w.ch e).ctrl ≠ 0b10 →
      exec i s = .next { s with fault := some .dataSize }) ∧
    (ctrlEn (w.ch e).ctrl = true → (w.ch e).reload ≠ 0 → ctrlDataSize (w.ch e).ctrl = 0b10 →
      exec i s = .next ((w.setCh e { w.ch e with remaining := (w.ch e).reload, busy := true }).record
        (.block e (w.ch e).readAddr (w.ch e).writeAddr (w.ch e).reload))))

/-- A channel-slot read: its encoding for any master, and the word it delivers. -/
def SlotReadRule (i : Instr) (off0 : BitVec 8) (e : Engine) (v : Word) (s : State) : Prop :=
  (∀ m, decode (.window m) (readBytesAt off0 e) = .ok i) ∧ exec i s = .next { s with rdata := v }

/-- Engine 0 is the CTE, busy before the descriptor at `d` with read ring `r`: armed by `ARM_CTE`, both words of its block to
move, the descriptor's words in RAM and not written by the host in this LIVE period. -/
structure CteReady (d : Addr) (r : BitVec 4) (s : State) : Prop where
  cfgWf : Config.wf s.cfg = true
  noFault : s.fault = none
  busy : s.ch0.busy = true
  twoWords : s.ch0.remaining = 2
  ctrl : s.ch0.ctrl = ctrlStored (cteCtrl r 3)
  readAddr : s.ch0.readAddr = d
  writeAddr : s.ch0.writeAddr = windowAddr s.cfg 0x78
  aligned : wordAligned d = true
  countRam : region s.cfg d = .ram
  addrRam : region s.cfg (ringInc d r) = .ram
  countQuiet : meetsSpan d.toNat 4 s.wset = false
  addrQuiet : meetsSpan (ringInc d r).toNat 4 s.wset = false

/-- Engine `e` is enabled, its addresses are aligned, and it reads a RAM word that the host has not written in this LIVE
period. -/
structure ReadsRam (e : Engine) (s : State) : Prop where
  enabled : engineEnabled e s = true
  readAligned : wordAligned (s.ch e).readAddr = true
  writeAligned : wordAligned (s.ch e).writeAddr = true
  ram : region s.cfg (s.ch e).readAddr = .ram
  quiet : meetsSpan (s.ch e).readAddr.toNat 4 s.wset = false

/-- Engine `e`'s registers after a word: the addresses advanced, one word fewer to move. -/
def advanced (e : Engine) (s : State) : Channel :=
  { s.ch e with
    readAddr := if ctrlIncrRead (s.ch e).ctrl then ringInc (s.ch e).readAddr (ctrlReadRing (s.ch e).ctrl)
      else (s.ch e).readAddr
    writeAddr := if ctrlIncrWrite (s.ch e).ctrl then ringInc (s.ch e).writeAddr (ctrlWriteRing (s.ch e).ctrl)
      else (s.ch e).writeAddr
    remaining := (s.ch e).remaining - 1 }

/-- The word that engine `e` reads from RAM. -/
def sourceWord (e : Engine) (s : State) : Word := readWord s.ram (s.ch e).readAddr.toNat

/-- The event of that word. -/
def wordEvent (e : Engine) (s : State) : Event :=
  .word e (s.ch e).readAddr (s.ch e).writeAddr (sourceWord e s)

/-- The state once engine `e` has moved the last word of its block from RAM to the FIFO, before it chains. -/
def lastPushed (e : Engine) (s : State) : State :=
  { s.setCh e { advanced e s with busy := false } with
    fifo := s.fifo ++ [sourceWord e s]
    out := s.out ++ [sourceWord e s]
    rset := addSpan (s.ch e).readAddr.toNat 4 s.rset
    ev := s.ev ++ [wordEvent e s, .complete e] }

/-- The samples that a descriptor names: the words of its buffer, the first address first, modulo `2^32`. -/
def samples (m : Memory) (c : Word × Word) : List Word := (List.range c.1.toNat).map fun i => readWord m (wordAt c.2 i).toNat

/-- The samples of the first `n` descriptors of the list at `d`, in descriptor order. -/
def delivered (m : Memory) (d : Addr) (n : Nat) : List Word := (List.range n).flatMap fun k => samples m (descriptorAt m d k)

/-- A `FINITE` pipeline over a finite list of `n` data descriptors at `d`, just started by the host: engine 0 is busy at the first
descriptor, engine 1 armed and idle, the completion flag clear, every buffer word-aligned in RAM, and the host has written nothing since
the start. -/
structure FiniteStarted (d : Addr) (n : Nat) (s : State) : Prop where
  cfgWf : Config.wf s.cfg = true
  noFault : s.fault = none
  list : isFiniteList s.cfg s.ram d n = true
  buffers : ∀ k, k < n → wordAligned (descriptorAt s.ram d k).2 = true ∧
    wordsInRam s.cfg (descriptorAt s.ram d k).2 (descriptorAt s.ram d k).1.toNat = true
  cte : s.ch0.readAddr = d ∧ s.ch0.writeAddr = windowAddr s.cfg 0x78 ∧ s.ch0.reload = 2 ∧ s.ch0.remaining = 2 ∧
    s.ch0.ctrl = ctrlStored (cteCtrl 0 3) ∧ s.ch0.busy = true
  dte : s.ch1.writeAddr = s.cfg.outFifoAddr ∧ s.ch1.ctrl = ctrlStored (dteCtrl .e0) ∧ s.ch1.busy = false ∧ s.ch1.done = false
  hostQuiet : s.wset = []

end Sys2Proof.Claims

open Sys2Proof Sys2Proof.Machine Sys2Proof.Claims

/-! ### Encoding -/

/-- A few command words written out from 30_encoding.md rules R101, R104 and R111 (95_test_vectors.md T8 to T10) and one descriptor
decode to what they stand for.
How the bits are numbered in one word and laid out in bytes is the model's choice (log entry 2). -/
def Obligations.WrittenOutWordsDecode : Prop :=
  decodeTableWord 16 0b101111100 = some (.wrAl3ReadAddrTrig .e1 0 .host) ∧
  decodeTableWord 16 0b000001000 = some (.rdTransCount .e0) ∧
  decodeTableWord 16 0b110000100 = some (.wrStart 0 .host) ∧
  decodeTableWord 16 0b010000000 = some .rdIntr ∧
  decodeTableWord 16 0b010001100 = some (.reserved8C .read) ∧
  decodeTableWord 64 0x2000010000000002 = some (.descData 2 0x20000100)

/-- Every well-formed instruction, with every operand, decodes from its encoding (30_encoding.md rules R111 and R113).
The byte record of a command is the model's choice (log entry 2). -/
def Obligations.DecodeOfEncodeIsTheInstruction : Prop :=
  ∀ i : Instr, i.wf = true → decode (portOf i) (encode i) = .ok i

/-- Whatever decodes at a port is a well-formed instruction whose encoding is the very bytes: no two encodings of one instruction,
no bit ignored.
The byte record of a command is the model's choice (log entry 2). -/
def Obligations.EncodeOfDecodeIsTheBytes : Prop :=
  ∀ p bytes i, decode p bytes = .ok i → i.wf = true ∧ encode i = bytes

/-- Decoding of aligned window accesses is total, for every master; an offset that is not 4-aligned is rejected by name
(30_encoding.md rule R111).
The byte record is the model's choice (log entry 2). -/
def Obligations.EveryAlignedOffsetIsACommand : Prop :=
  ∀ (off : BitVec 8) (d : Access) (m : Master),
    (off.extractLsb' 0 2 = 0 → ∃ i, decode (.window m) (commandRecord off d) = .ok i) ∧
    (off.extractLsb' 0 2 ≠ 0 → decode (.window m) (commandRecord off d) = .error .misaligned)

/-- A write at a window offset is the same whether it is dispatched by RegWrite or decoded and run: an engine's write into the
window has the effect of the command (20_memory.md rule R66, 40_host_register_access.md rule R141). -/
def Obligations.RegWriteIsTheDecodedCommand : Prop :=
  ∀ (off : BitVec 8) (v : Word) (m : Master) (i : Instr) (s : State),
    decode (.window m) (commandRecord off (.write v)) = .ok i → exec i s = conclude s (regWrite off v m s)

/-- A read at a window offset delivers the word that RegRead gives, and faults where it faults
(40_host_register_access.md rule R140).
`rdata` is the model's choice (log entry 6). -/
def Obligations.RegReadIsTheDecodedCommand : Prop :=
  ∀ (off : BitVec 8) (m : Master) (i : Instr) (s : State),
    decode (.window m) (commandRecord off .read) = .ok i →
      exec i s = conclude s ((regRead off s).map fun v => { s with rdata := v })

/-! ### Channel register writes -/

/-- The three plain writes of READ_ADDR and the three of WRITE_ADDR (rules R146, R151 and R156, R147, R152 and R159).
The bytes in which the encoding is written out are the model's choice (log entry 2). -/
def Obligations.PlainWritesOfTheAddressRegisters : Prop :=
  ∀ (e : Engine) (v : Word) (m : Master) (s : State), s.fault = none →
    SlotWriteRule (.wrReadAddr e v m) 0x00 e v m s (s.setCh e { s.ch e with readAddr := v }) ∧
    SlotWriteRule (.wrAl1ReadAddr e v m) 0x14 e v m s (s.setCh e { s.ch e with readAddr := v }) ∧
    SlotWriteRule (.wrAl2ReadAddr e v m) 0x28 e v m s (s.setCh e { s.ch e with readAddr := v }) ∧
    SlotWriteRule (.wrWriteAddr e v m) 0x04 e v m s (s.setCh e { s.ch e with writeAddr := v }) ∧
    SlotWriteRule (.wrAl1WriteAddr e v m) 0x18 e v m s (s.setCh e { s.ch e with writeAddr := v }) ∧
    SlotWriteRule (.wrAl3WriteAddr e v m) 0x34 e v m s (s.setCh e { s.ch e with writeAddr := v })

/-- The three plain writes of TRANS_COUNT set RELOAD and leave REMAINING (rules R148, R155 and R160); a written 0 makes the next
trigger of an enabled engine a null trigger.
The bytes in which the encoding is written out are the model's choice (log entry 2). -/
def Obligations.PlainWritesOfTransCount : Prop :=
  ∀ (e : Engine) (v : Word) (m : Master) (s : State), s.fault = none →
    (SlotWriteRule (.wrTransCount e v m) 0x08 e v m s (s.setCh e { s.ch e with reload := v }) ∧
     SlotWriteRule (.wrAl2TransCount e v m) 0x24 e v m s (s.setCh e { s.ch e with reload := v }) ∧
     SlotWriteRule (.wrAl3TransCount e v m) 0x38 e v m s (s.setCh e { s.ch e with reload := v })) ∧
    (v = 0 → (s.ch e).busy = false → ctrlEn (s.ch e).ctrl = true →
      trigger e (s.setCh e { s.ch e with reload := v }) =
        .ok ((s.setCh e { s.ch e with reload := 0, done := true }).record (.null e)))

/-- The three plain writes of CTRL store bits 15:0 and ignore bits 31:16 (rules R150, R154 and R158).
The bytes in which the encoding is written out are the model's choice (log entry 2). -/
def Obligations.PlainWritesOfCtrl : Prop :=
  ∀ (e : Engine) (v : Word) (m : Master) (s : State), s.fault = none →
    SlotWriteRule (.wrAl1Ctrl e v m) 0x10 e v m s (s.setCh e { s.ch e with ctrl := v.extractLsb' 0 16 }) ∧
    SlotWriteRule (.wrAl2Ctrl e v m) 0x20 e v m s (s.setCh e { s.ch e with ctrl := v.extractLsb' 0 16 }) ∧
    SlotWriteRule (.wrAl3Ctrl e v m) 0x30 e v m s (s.setCh e { s.ch e with ctrl := v.extractLsb' 0 16 })

/-- The four trigger-slot writes: the register, then the trigger on the value just written (rules R149, R153, R157 and R161).
The bytes in which the encoding is written out are the model's choice (log entry 2). -/
def Obligations.TriggerSlotWritesStoreThenTrigger : Prop :=
  ∀ (e : Engine) (v : Word) (m : Master) (s : State), s.fault = none →
    TriggerSlotRule (.wrCtrlTrig e v m) 0x0C e v m s (s.setCh e { s.ch e with ctrl := v.extractLsb' 0 16 }) ∧
    TriggerSlotRule (.wrAl1TransCountTrig e v m) 0x1C e v m s (s.setCh e { s.ch e with reload := v }) ∧
    TriggerSlotRule (.wrAl2WriteAddrTrig e v m) 0x2C e v m s (s.setCh e { s.ch e with writeAddr := v }) ∧
    TriggerSlotRule (.wrAl3ReadAddrTrig e v m) 0x3C e v m s (s.setCh e { s.ch e with readAddr := v })

/-! ### Reads. The word goes to `rdata`, the model's own field for what the host read (log entry 6). -/

/-- The reads of READ_ADDR and WRITE_ADDR return the live pointers and change nothing else (rules R162, R163, R167, R168, R172, R173,
R175 and R177; `rdata` is the model's choice, log entry 6).
The bytes in which the encoding is written out are the model's choice (log entry 2). -/
def Obligations.ReadsOfTheAddressRegisters : Prop :=
  ∀ (e : Engine) (s : State), s.fault = none →
    SlotReadRule (.rdReadAddr e) 0x00 e (s.ch e).readAddr s ∧ SlotReadRule (.rdAl1ReadAddr e) 0x14 e (s.ch e).readAddr s ∧
    SlotReadRule (.rdAl2ReadAddr e) 0x28 e (s.ch e).readAddr s ∧
    SlotReadRule (.rdAl3ReadAddrTrig e) 0x3C e (s.ch e).readAddr s ∧
    SlotReadRule (.rdWriteAddr e) 0x04 e (s.ch e).writeAddr s ∧ SlotReadRule (.rdAl1WriteAddr e) 0x18 e (s.ch e).writeAddr s ∧
    SlotReadRule (.rdAl2WriteAddrTrig e) 0x2C e (s.ch e).writeAddr s ∧
    SlotReadRule (.rdAl3WriteAddr e) 0x34 e (s.ch e).writeAddr s

/-- The reads of TRANS_COUNT return REMAINING of a busy engine and RELOAD of an idle one (rules R144, R164, R169, R171 and R176;
`rdata` is the model's choice, log entry 6).
The bytes in which the encoding is written out are the model's choice (log entry 2). -/
def Obligations.ReadsOfTransCount : Prop :=
  ∀ (e : Engine) (s : State) (v : Word), s.fault = none →
    ((s.ch e).busy = true → v = (s.ch e).remaining) → ((s.ch e).busy = false → v = (s.ch e).reload) →
    SlotReadRule (.rdTransCount e) 0x08 e v s ∧ SlotReadRule (.rdAl1TransCountTrig e) 0x1C e v s ∧
    SlotReadRule (.rdAl2TransCount e) 0x24 e v s ∧ SlotReadRule (.rdAl3TransCount e) 0x38 e v s

/-- The reads of CTRL return BUSY in bit 31, zeros in bits 30:16 and the stored bits (rules R107, R165, R166, R170 and R174; `rdata`
is the model's choice, log entry 6).
The bytes in which the encoding is written out are the model's choice (log entry 2). -/
def Obligations.ReadsOfCtrl : Prop :=
  ∀ (e : Engine) (s : State) (v : Word), s.fault = none →
    v.getLsbD 31 = (s.ch e).busy → v.extractLsb' 16 15 = 0 → v.extractLsb' 0 16 = (s.ch e).ctrl →
    SlotReadRule (.rdCtrlTrig e) 0x0C e v s ∧ SlotReadRule (.rdAl1Ctrl e) 0x10 e v s ∧
    SlotReadRule (.rdAl2Ctrl e) 0x20 e v s ∧ SlotReadRule (.rdAl3Ctrl e) 0x30 e v s

/-- The reads of INTR, START and BUSY: the DONE flags in bits 1:0, zero, the BUSY flags in bits 1:0, and no flag is cleared (rules R178,
R180 and R182; `rdata` is the model's choice, log entry 6). -/
def Obligations.ReadsOfTheGlobalRegisters : Prop :=
  ∀ (s : State) (v w : Word), s.fault = none →
    v.extractLsb' 2 30 = 0 → v.getLsbD 1 = s.ch1.done → v.getLsbD 0 = s.ch0.done →
    w.extractLsb' 2 30 = 0 → w.getLsbD 1 = s.ch1.busy → w.getLsbD 0 = s.ch0.busy →
    exec .rdIntr s = .next { s with rdata := v } ∧ exec .rdStart s = .next { s with rdata := 0 } ∧
    exec .rdBusy s = .next { s with rdata := w }

/-- RegRead answers, for every master and without a write, what rules R140, R144 and R145 give: the register that the map of R101
names at the offset. -/
def Obligations.RegReadFollowsTheMap : Prop :=
  ∀ (e : Engine) (s : State),
    let base : BitVec 8 := match e with | .e0 => 0x00 | .e1 => 0x40
    (∀ off ∈ [0x00, 0x14, 0x28, 0x3C], regRead (base + off) s = .ok (s.ch e).readAddr) ∧
    (∀ off ∈ [0x04, 0x18, 0x2C, 0x34], regRead (base + off) s = .ok (s.ch e).writeAddr) ∧
    (∀ off ∈ [0x08, 0x1C, 0x24, 0x38],
      regRead (base + off) s = .ok (if (s.ch e).busy then (s.ch e).remaining else (s.ch e).reload)) ∧
    (∀ off ∈ [0x0C, 0x10, 0x20, 0x30],
      regRead (base + off) s = .ok (BitVec.ofBool (s.ch e).busy ++ 0#15 ++ (s.ch e).ctrl)) ∧
    regRead 0x80 s = .ok (0#30 ++ BitVec.ofBool s.ch1.done ++ BitVec.ofBool s.ch0.done) ∧
    regRead 0x84 s = .ok 0 ∧
    regRead 0x88 s = .ok (0#30 ++ BitVec.ofBool s.ch1.busy ++ BitVec.ofBool s.ch0.busy) ∧
    (∀ off : BitVec 8, 0x8C ≤ off.toNat → off.extractLsb' 0 2 = 0 → regRead off s = .error .reservedOffset)

/-! ### Global register writes and the reserved range -/

/-- A write of INTR clears the DONE flags whose bits are 1 and changes nothing else, LIVE or not, from any master (rule R179).
The bytes in which the encoding is written out are the model's choice (log entry 2). -/
def Obligations.IntrWriteClearsTheNamedFlags : Prop :=
  ∀ (v : Word) (m : Master) (s : State), s.fault = none →
    decode (.window m) (0x80 :: 0x01 :: wordBytes v) = .ok (.wrIntr v m) ∧
    exec (.wrIntr v m) s = .next { s with
      ch0 := { s.ch0 with done := s.ch0.done && !(v.getLsbD 0) }
      ch1 := { s.ch1 with done := s.ch1.done && !(v.getLsbD 1) } }

/-- A write of START: HOST_LIVE, nothing, one trigger, or engine 0's trigger and then engine 1's (rule R181).
The bytes in which the encoding is written out are the model's choice (log entry 2). -/
def Obligations.StartWriteTriggersInOrder : Prop :=
  ∀ (v : Word) (m : Master) (s : State), s.fault = none →
    decode (.window m) (0x84 :: 0x01 :: wordBytes v) = .ok (.wrStart v m) ∧
    (m = .host → s.live = true → v.extractLsb' 0 2 ≠ 0 →
      exec (.wrStart v m) s = .next { s with fault := some .hostLive }) ∧
    (v.extractLsb' 0 2 = 0 → exec (.wrStart v m) s = .next s) ∧
    ((m = .host → s.live = false) →
      (v.extractLsb' 0 2 = 1 → exec (.wrStart v m) s = conclude s (trigger .e0 s)) ∧
      (v.extractLsb' 0 2 = 2 → exec (.wrStart v m) s = conclude s (trigger .e1 s)) ∧
      (v.extractLsb' 0 2 = 3 → exec (.wrStart v m) s =
        conclude s (match trigger .e0 s with | .ok t => trigger .e1 t | .error c => .error c)))

/-- START with bit 0 set starts an armed, idle engine 0 and moves no word: BUSY and REMAINING are set and nothing else of the engine
changes (rules R109, R181 and R206). -/
def Obligations.StartTriggerStartsTheArmedCte : Prop :=
  ∀ (v : Word) (m : Master) (s : State), s.fault = none → (m = .host → s.live = false) → v.extractLsb' 0 2 = 1 →
    s.ch0.busy = false → ctrlEn s.ch0.ctrl = true → s.ch0.reload ≠ 0 → ctrlDataSize s.ch0.ctrl = 0b10 →
    exec (.wrStart v m) s = .next { s with
      ch0 := { s.ch0 with remaining := s.ch0.reload, busy := true }
      ev := s.ev ++ [.block .e0 s.ch0.readAddr s.ch0.writeAddr s.ch0.reload] }

/-- A write of BUSY is skipped, whatever its data word (rule R183).
The bytes in which the encoding is written out are the model's choice (log entry 2). -/
def Obligations.BusyWriteIsSkipped : Prop :=
  ∀ (v : Word) (m : Master) (s : State), s.fault = none →
    decode (.window m) (0x88 :: 0x01 :: wordBytes v) = .ok (.wrBusy v) ∧ exec (.wrBusy v) s = .next s

/-- Every access to offsets 0x8C to 0xFC, read or write, by any master, raises RESERVED_OFFSET and changes nothing else
(rule R184). -/
def Obligations.ReservedOffsetsFault : Prop :=
  (∀ (d : Access) (g2 : BitVec 2) (g3 : BitVec 3) (g4 : BitVec 4) (s : State), s.fault = none →
    exec (.reserved8C d) s = .next { s with fault := some .reservedOffset } ∧
    exec (.reserved90 g2 d) s = .next { s with fault := some .reservedOffset } ∧
    exec (.reservedA0 g3 d) s = .next { s with fault := some .reservedOffset } ∧
    exec (.reservedC0 g4 d) s = .next { s with fault := some .reservedOffset }) ∧
  (∀ (off : BitVec 8) (v : Word) (m : Master) (d : Access) (s : State), 0x8C ≤ off.toNat → off.extractLsb' 0 2 = 0 →
    regRead off s = .error .reservedOffset ∧ regWrite off v m s = .error .reservedOffset ∧
    ∃ i, decode (.window m) (commandRecord off d) = .ok i ∧
      (i = .reserved8C d ∨ (∃ g, i = .reserved90 g d) ∨ (∃ g, i = .reservedA0 g d) ∨ ∃ g, i = .reservedC0 g d))

/-! ### Triggers -/

/-- Trigger(e), its checks in their order and the result of each (rule R201). -/
def Obligations.TriggerChecksInOrder : Prop :=
  ∀ (e : Engine) (s : State),
    ((s.ch e).busy = true → trigger e s = .error .triggerBusy) ∧
    ((s.ch e).busy = false → ctrlEn (s.ch e).ctrl = false → trigger e s = .ok { s with ev := s.ev ++ [.ignored e] }) ∧
    ((s.ch e).busy = false → ctrlEn (s.ch e).ctrl = true → (s.ch e).reload = 0 →
      trigger e s = .ok { s.setCh e { s.ch e with done := true } with ev := s.ev ++ [.null e] }) ∧
    ((s.ch e).busy = false → ctrlEn (s.ch e).ctrl = true → (s.ch e).reload ≠ 0 → ctrlDataSize (s.ch e).ctrl ≠ 0b10 →
      trigger e s = .error .dataSize) ∧
    ((s.ch e).busy = false → ctrlEn (s.ch e).ctrl = true → (s.ch e).reload ≠ 0 → ctrlDataSize (s.ch e).ctrl = 0b10 →
      trigger e s = .ok { s.setCh e { s.ch e with remaining := (s.ch e).reload, busy := true } with
        ev := s.ev ++ [.block e (s.ch e).readAddr (s.ch e).writeAddr (s.ch e).reload] })

/-- One word-transfer step triggers at most twice (rule R213): the events it records hold at most two trigger events. -/
def Obligations.AWordStepTriggersAtMostTwice : Prop :=
  ∀ (e : Engine) (s t : State), (s.ch e).busy = true → engineStep e s = .ok t →
    ∃ l, t.ev = s.ev ++ l ∧
      (l.filter fun x => match x with | .ignored _ | .null _ | .block _ _ _ _ => true | _ => false).length ≤ 2

/-- A trigger inside an engine's own bus write never starts or changes the writer (rules R213 and R247): its registers, counter and
busy flag stay as they were. -/
def Obligations.BusWriteLeavesTheWriterAlone : Prop :=
  ∀ (e : Engine) (a : Addr) (v : Word) (s t : State), (s.ch e).busy = true → busWrite e a v s = .ok t →
    (t.ch e).readAddr = (s.ch e).readAddr ∧ (t.ch e).writeAddr = (s.ch e).writeAddr ∧ (t.ch e).reload = (s.ch e).reload ∧
    (t.ch e).ctrl = (s.ch e).ctrl ∧ (t.ch e).remaining = (s.ch e).remaining ∧ (t.ch e).busy = true

/-! ### Descriptors -/

/-- A data descriptor run by the armed CTE, with the DTE idle and armed for words: the count is engine 1's RELOAD and REMAINING, the
address its READ_ADDR, engine 1 is busy, the CTE is back at its start for the next descriptor, and nothing else changes (rule
R248).
That one instruction stands for both words is the model's choice (log entry 5). -/
def Obligations.DataDescriptorLoadsAndStartsTheDte : Prop :=
  ∀ (c a d : Word) (r : BitVec 4) (s : State), CteReady d r s → c ≠ 0 → s.ch1.busy = false →
    ctrlEn s.ch1.ctrl = true → ctrlDataSize s.ch1.ctrl = 0b10 →
    exec (.descData c a) s = .next { s with
      ch0 := { s.ch0 with readAddr := ringInc (ringInc d r) r, writeAddr := windowAddr s.cfg 0x78, remaining := 0, busy := false }
      ch1 := { s.ch1 with reload := c, readAddr := a, remaining := c, busy := true }
      rset := addSpan (ringInc d r).toNat 4 (addSpan d.toNat 4 s.rset)
      ev := s.ev ++ [.word .e0 d (windowAddr s.cfg 0x78) c, .word .e0 (ringInc d r) (windowAddr s.cfg 0x7C) a,
        .block .e1 a s.ch1.writeAddr c, .complete .e0] }

/-- The sentinel run by the armed CTE, with the DTE idle and enabled, whatever its DATA_SIZE: a null trigger of engine 1 sets
DONE[1], nothing is busy afterwards, and the race sets are emptied (rules R204, R207 and R248).
That one instruction stands for both words is the model's choice (log entry 5). -/
def Obligations.SentinelHaltsWithTheFlagSet : Prop :=
  ∀ (a d : Word) (r : BitVec 4) (s : State), CteReady d r s → s.ch1.busy = false → ctrlEn s.ch1.ctrl = true →
    exec (.descSentinel a) s = .next { s with
      ch0 := { s.ch0 with readAddr := ringInc (ringInc d r) r, writeAddr := windowAddr s.cfg 0x78, remaining := 0, busy := false }
      ch1 := { s.ch1 with reload := 0, readAddr := a, done := true }
      rset := []
      wset := []
      ev := s.ev ++ [.word .e0 d (windowAddr s.cfg 0x78) 0, .word .e0 (ringInc d r) (windowAddr s.cfg 0x7C) a,
        .null .e1, .complete .e0] }

/-- The other ends of a descriptor before the armed CTE: a disabled DTE ignores the trigger of a data descriptor and of the sentinel alike
(the completion flag stays as it was), a DTE whose DATA_SIZE is reserved makes
the second word fault with the first word's effect kept, a busy DTE makes the first word fault; an engine 0 that is not enabled
holds (rules R203, R205, R241 and R358).
That one instruction stands for both words is the model's choice (log entry 5). -/
def Obligations.DescriptorAgainstAnUnreadyDte : Prop :=
  (∀ (c a d : Word) (r : BitVec 4) (s : State), CteReady d r s → s.ch1.busy = false → ctrlEn s.ch1.ctrl = false →
    exec (.descData c a) s = .next { s with
      ch0 := { s.ch0 with readAddr := ringInc (ringInc d r) r, writeAddr := windowAddr s.cfg 0x78, remaining := 0, busy := false }
      ch1 := { s.ch1 with reload := c, readAddr := a }
      rset := []
      wset := []
      ev := s.ev ++ [.word .e0 d (windowAddr s.cfg 0x78) c, .word .e0 (ringInc d r) (windowAddr s.cfg 0x7C) a,
        .ignored .e1, .complete .e0] } ∧
    exec (.descSentinel a) s = .next { s with
      ch0 := { s.ch0 with readAddr := ringInc (ringInc d r) r, writeAddr := windowAddr s.cfg 0x78, remaining := 0, busy := false }
      ch1 := { s.ch1 with reload := 0, readAddr := a }
      rset := []
      wset := []
      ev := s.ev ++ [.word .e0 d (windowAddr s.cfg 0x78) 0, .word .e0 (ringInc d r) (windowAddr s.cfg 0x7C) a,
        .ignored .e1, .complete .e0] }) ∧
  (∀ (c a d : Word) (r : BitVec 4) (s : State), CteReady d r s → c ≠ 0 → s.ch1.busy = false →
    ctrlEn s.ch1.ctrl = true → ctrlDataSize s.ch1.ctrl ≠ 0b10 →
    exec (.descData c a) s = .next { s with
      ch0 := { s.ch0 with readAddr := ringInc d r, writeAddr := windowAddr s.cfg 0x7C, remaining := 1 }
      ch1 := { s.ch1 with reload := c }
      rset := addSpan d.toNat 4 s.rset
      ev := s.ev ++ [.word .e0 d (windowAddr s.cfg 0x78) c]
      fault := some .dataSize }) ∧
  (∀ (c a d : Word) (r : BitVec 4) (s : State), CteReady d r s → s.ch1.busy = true →
    exec (.descData c a) s = .next { s with fault := some .writeBusy } ∧
    exec (.descSentinel a) s = .next { s with fault := some .writeBusy }) ∧
  (∀ (c a : Word) (s : State), s.fault = none → engineEnabled .e0 s = false →
    exec (.descData c a) s = .next s ∧ exec (.descSentinel a) s = .next s)

/-- The CTE's descriptor turn is two word steps of engine 0, one after the other, whatever the memory holds: fetching and decoding the
whole descriptor changes nothing (rules R240 and R248; the turn itself is the model's choice, log entry 5). -/
def Obligations.DescriptorTurnIsTwoEngineSteps : Prop :=
  ∀ s : State, s.fault = none → atDescriptor s = true →
    takeTurn .descriptor s = .next (engineTurn .e0 (engineTurn .e0 s))

/-! ### Steps -/

/-- The host's turn runs the decoded command: the record of the host's next window access is fetched and decoded, and the step is exec
of it on the state with the turn and the command taken off, and the end of the step.
The schedule and the host's program are the model's choice (log entries 4 and 7). -/
def Obligations.StepRunsTheHostsCommand : Prop :=
  ∀ (s : State) (a : Addr) (off : BitVec 8) (d : Access) (i : Instr) (ops : List HostOp) (turns : List Turn),
    s.fault = none → s.sched = .host :: turns →
    s.host = (match d with | .read => HostOp.read a .word | .write v => HostOp.write a .word v) :: ops →
    wordAligned a = true → region s.cfg a = .window off → decode (.window .host) (commandRecord off d) = .ok i →
    step s = finish (exec i { s with sched := turns, host := ops })

/-- The CTE's descriptor turn runs the decoded descriptor.
The descriptor turn is the model's choice (log entries 4 and 5). -/
def Obligations.StepRunsTheDescriptor : Prop :=
  ∀ (s : State) (i : Instr) (turns : List Turn), s.fault = none → s.sched = .descriptor :: turns →
    atDescriptor s = true → decode .list (descriptorBytes s.ram s.ch0.readAddr) = .ok i →
    step s = finish (exec i { s with sched := turns })

/-- A placed instruction is what the next step runs: for every command that decodes, on every state with no fault whose parameters
are legal (log entry 8). -/
def Obligations.PlacedCommandIsRunNext : Prop :=
  ∀ (s : State) (w : Nat) (i : Instr), s.fault = none → Config.wf s.cfg = true → decodeTableWord 16 w = some i →
    step (s.withFetchWord 16 w) = finish (exec i s)

/-- POLL reads its register each time and ends after the first read whose value meets the mask; until then it is the host's next
command again (rule R187).
Where the value and the program stand is the model's choice (log entries 6, 7 and 14). -/
def Obligations.PollRepeatsUntilTheMaskIsMet : Prop :=
  ∀ (s t : State) (a : Addr) (mask : Word) (ops : List HostOp), s.host = .poll a mask :: ops →
    hostAccess a .word .read { s with host := ops } = .next t → t.fault = none →
    (t.rdata &&& mask ≠ 0 → hostTurn s = .next t) ∧
    (t.rdata &&& mask = 0 → hostTurn s = .next { t with host := .poll a mask :: t.host })

/-! ### Faults and reset -/

/-- Once FAULT is set no command and no agent's step is enabled, in any schedule; block reset is, and it clears the record (rule
R321).
The form of a stop is the model's reading (log entry 10). -/
def Obligations.FaultStopsEveryAgentUntilReset : Prop :=
  ∀ (s : State) (c : FaultCode), s.fault = some c →
    (∀ i, exec i s = .fault (.stuck c)) ∧ (∀ t, t ≠ .blockReset → takeTurn t s = .fault (.stuck c)) ∧
    ∃ u, takeTurn .blockReset s = .next u ∧ u.fault = none

/-- A step that raises a fault writes the fault record and nothing else (rules R11 and R321), whatever the command or the engine; a
host command that faulted is not taken again (the model's choice, log entry 7).
That raising a fault is a next state is the model's reading (log entry 10). -/
def Obligations.AFaultingStepWritesOnlyTheRecord : Prop :=
  (∀ (i : Instr) (s t : State) (c : FaultCode), (∀ x a, i ≠ .descData x a) → (∀ a, i ≠ .descSentinel a) →
    exec i s = .next t → t.fault = some c → t = { s with fault := some c }) ∧
  (∀ (e : Engine) (s : State) (c : FaultCode), s.fault = none → (engineTurn e s).fault = some c →
    engineTurn e s = { s with fault := some c }) ∧
  (∀ (s t : State) (c : FaultCode), s.fault = none → hostTurn s = .next t → t.fault = some c →
    ∃ op ops, s.host = op :: ops ∧ t = { s with host := ops, fault := some c })

/-- Block reset from any state, even a fault, gives every register and flag 0, no fault and empty race sets, and leaves RAM, FIFO, OUT
and EV (rules R31 and R350). -/
def Obligations.BlockResetFromAnyState : Prop :=
  ∀ s : State, ∃ t, takeTurn .blockReset s = .next t ∧
    (∀ e, (t.ch e).readAddr = 0 ∧ (t.ch e).writeAddr = 0 ∧ (t.ch e).reload = 0 ∧ (t.ch e).remaining = 0 ∧
      (t.ch e).ctrl = 0 ∧ (t.ch e).busy = false ∧ (t.ch e).done = false) ∧
    t.rset = [] ∧ t.wset = [] ∧ t.fault = none ∧ t.ram = s.ram ∧ t.fifo = s.fifo ∧ t.out = s.out ∧ t.ev = s.ev

/-- The launch state: block reset, FIFO, OUT and EV empty (rule R352). The parameters and the memory are the model's choice (log entries
1 and 3), so nothing is said of them but that the parameters are legal. -/
def Obligations.LaunchStateIsBlockReset : Prop :=
  inBlockReset State.reset = true ∧ State.reset.fifo = [] ∧ State.reset.out = [] ∧ State.reset.ev = [] ∧
  Config.wf State.reset.cfg = true

/-! ### Engine word transfer -/

/-- A word from RAM to the FIFO that is not the block's last: the word unchanged, pushed and recorded, the addresses advanced by the
rings, one word fewer to move, and nothing else (rules R240, R242 to R245). -/
def Obligations.AWordGoesFromRamToTheFifo : Prop :=
  ∀ (e : Engine) (s : State), ReadsRam e s → region s.cfg (s.ch e).writeAddr = .fifo → s.dreq = true →
    (s.ch e).remaining ≠ 1 →
    engineTurn e s = { s.setCh e (advanced e s) with
      fifo := s.fifo ++ [sourceWord e s]
      out := s.out ++ [sourceWord e s]
      rset := addSpan (s.ch e).readAddr.toNat 4 s.rset
      ev := s.ev ++ [wordEvent e s] }

/-- A word from RAM to RAM that is not the block's last: the four bytes at WRITE_ADDR are the word's, least significant first, every other
byte reads as before, the written bytes are not tracked as a race, and nothing else but the engine's own advance changes (rules R63,
R66, R67 and R240). -/
def Obligations.AWordGoesFromRamToRam : Prop :=
  ∀ (e : Engine) (s : State), ReadsRam e s → Memory.wf s.ram = true → region s.cfg (s.ch e).writeAddr = .ram →
    (s.ch e).remaining ≠ 1 →
    (∃ ram, engineTurn e s = { s.setCh e (advanced e s) with
      ram := ram
      rset := addSpan (s.ch e).readAddr.toNat 4 s.rset
      ev := s.ev ++ [wordEvent e s] }) ∧
    (∀ i, i < 4 → readByte (engineTurn e s).ram ((s.ch e).writeAddr.toNat + i) = byteOf (sourceWord e s) i) ∧
    (∀ x, x < (s.ch e).writeAddr.toNat ∨ (s.ch e).writeAddr.toNat + 4 ≤ x →
      readByte (engineTurn e s).ram x = readByte s.ram x)

/-- The last word of a block: BUSY is cleared and COMPLETE recorded in the same step, DONE is not set, and with CHAIN_EN the trigger of
CHAIN_TO follows in the same step, or its fault undoes the step (rules R209, R210 and R246). -/
def Obligations.TheLastWordCompletesAndChains : Prop :=
  ∀ (e : Engine) (s : State), ReadsRam e s → region s.cfg (s.ch e).writeAddr = .fifo → s.dreq = true →
    (s.ch e).remaining = 1 →
    (ctrlChainEn (s.ch e).ctrl = false → engineTurn e s = endOfStep (lastPushed e s)) ∧
    (ctrlChainEn (s.ch e).ctrl = true →
      (∀ t, trigger (ctrlChainTo (s.ch e).ctrl) (lastPushed e s) = .ok t → engineTurn e s = endOfStep t) ∧
      (∀ c, trigger (ctrlChainTo (s.ch e).ctrl) (lastPushed e s) = .error c →
        engineTurn e s = { s with fault := some c }))

/-- A busy paced engine holds while the FIFO is full; an unpaced one that writes the full FIFO faults; a misaligned address faults before
anything else; after a read that answers, whatever was read, a write to UNMAPPED, to a reserved offset or to the channel block of a
busy engine, the writer itself included, faults; each fault leaves everything but the record (rules R64, R66, R71, R141, R184, R241 and
R322). -/
def Obligations.HoldsOverflowsAndMisalignments : Prop :=
  (∀ (e : Engine) (s : State), ctrlPaced (s.ch e).ctrl = true → s.dreq = false → engineTurn e s = s) ∧
  (∀ (e : Engine) (s : State), ReadsRam e s → region s.cfg (s.ch e).writeAddr = .fifo → s.dreq = false →
    engineTurn e s = { s with fault := some .fifoOverflow }) ∧
  (∀ (e : Engine) (s : State), engineEnabled e s = true →
    wordAligned (s.ch e).readAddr = false ∨ wordAligned (s.ch e).writeAddr = false →
    engineTurn e s = { s with fault := some .align }) ∧
  (∀ (e : Engine) (v : Word) (s t : State), engineEnabled e s = true →
    wordAligned (s.ch e).readAddr = true → wordAligned (s.ch e).writeAddr = true →
    busRead (s.ch e).readAddr s = .ok (v, t) →
    (region s.cfg (s.ch e).writeAddr = .unmapped → engineTurn e s = { s with fault := some .bus }) ∧
    (∀ off, region s.cfg (s.ch e).writeAddr = .window off → 0x8C ≤ off.toNat → off.extractLsb' 0 2 = 0 →
      engineTurn e s = { s with fault := some .reservedOffset }) ∧
    (∀ off, region s.cfg (s.ch e).writeAddr = .window off → off.getLsbD 7 = false →
      (s.ch (engineOfBit (off.getLsbD 6))).busy = true → engineTurn e s = { s with fault := some .writeBusy }))

/-- What an engine's read raises by the region of its address, before any check of the write (rules R65, R78 and R322). -/
def Obligations.AFaultingReadComesBeforeTheWrite : Prop :=
  ∀ (e : Engine) (s : State), engineEnabled e s = true → wordAligned (s.ch e).readAddr = true →
    wordAligned (s.ch e).writeAddr = true →
    (region s.cfg (s.ch e).readAddr = .unmapped → engineTurn e s = { s with fault := some .bus }) ∧
    (region s.cfg (s.ch e).readAddr = .fifo → engineTurn e s = { s with fault := some .fifoRead }) ∧
    (region s.cfg (s.ch e).readAddr = .ram → meetsSpan (s.ch e).readAddr.toNat 4 s.wset = true →
      engineTurn e s = { s with fault := some .race }) ∧
    (∀ off, region s.cfg (s.ch e).readAddr = .window off → 0x8C ≤ off.toNat → off.extractLsb' 0 2 = 0 →
      engineTurn e s = { s with fault := some .reservedOffset })

/-- `n` turns of an engine that streams a RAM buffer into the FIFO deliver the buffer's first `n` words in order, with no gap, duplicate
or reordering (rules R242, R243, R245 and R250), as long as the block has more than `n` words and the FIFO has room for `n`. The buffer's
addresses are taken modulo `2^32` (rule R10). -/
def Obligations.AStreamDeliversTheBufferInOrder : Prop :=
  ∀ (e : Engine) (s : State) (n : Nat), s.fault = none → (s.ch e).busy = true →
    ctrlIncrRead (s.ch e).ctrl = true → ctrlReadRing (s.ch e).ctrl = 0 → ctrlIncrWrite (s.ch e).ctrl = false →
    wordAligned (s.ch e).readAddr = true → wordAligned (s.ch e).writeAddr = true →
    region s.cfg (s.ch e).writeAddr = .fifo →
    (∀ k, k < n → region s.cfg (wordAt (s.ch e).readAddr k) = .ram) → s.wset = [] → n < (s.ch e).remaining.toNat →
    s.fifo.length + n ≤ s.cfg.outFifoDepth →
    let t := (engineTurn e)^[n] s
    t.out = s.out ++ (List.range n).map (fun k => readWord s.ram (wordAt (s.ch e).readAddr k).toNat) ∧
    t.fifo = s.fifo ++ (List.range n).map (fun k => readWord s.ram (wordAt (s.ch e).readAddr k).toNat) ∧
    (t.ch e).remaining = (s.ch e).remaining - BitVec.ofNat 32 n ∧
    (t.ch e).readAddr = wordAt (s.ch e).readAddr n ∧
    (t.ch e).busy = true ∧ t.fault = none ∧ t.ram = s.ram

/-- `ringInc` keeps address bits 31:n and wraps bits n-1:0 modulo 2^n; with n = 0 it adds 4 modulo 2^32 (rule R114). -/
def Obligations.RingIncWrapsInsideItsBlock : Prop :=
  ∀ (a : Addr) (n : BitVec 4),
    (n = 0 → (ringInc a n).toNat = (a.toNat + 4) % 2 ^ 32) ∧
    (n ≠ 0 → (ringInc a n).toNat = a.toNat / 2 ^ n.toNat * 2 ^ n.toNat + (a.toNat + 4) % 2 ^ n.toNat)

/-- A ring of size n from 3 on comes back to where it was after the words of its block, and not before (rule R115: the address cycles
through the words of its aligned block). -/
def Obligations.RingIncCyclesThroughItsBlock : Prop :=
  ∀ (a : Addr) (n : BitVec 4) (k : Nat), wordAligned a = true → 3 ≤ n.toNat →
    ((fun x => ringInc x n)^[k] a = a ↔ 2 ^ (n.toNat - 2) ∣ k)

/-- OutputStep removes the oldest word of the FIFO and writes nothing else (rule R255). -/
def Obligations.OutputStepRemovesTheOldestWord : Prop :=
  ∀ (s : State) (v : Word) (rest : List Word), s.fault = none → s.fifo = v :: rest →
    takeTurn .output s = .next { s with fifo := rest }

/-! ### Host memory commands -/

/-- A host write of RAM: the race check, then the bytes, least significant first; every other byte reads as before, and nothing but memory
and, while LIVE, WSET changes (rule R185). -/
def Obligations.HostWriteStoresItsBytes : Prop :=
  ∀ (a : Addr) (w : Width) (v : Word) (s : State), s.fault = none → Memory.wf s.ram = true →
    region s.cfg (wordOf a) = .ram → a.toNat % widthBytes w = 0 →
    (s.live = true → meetsSpan a.toNat (widthBytes w) s.rset = true →
      hostAccess a w (.write v) s = .next { s with fault := some .race }) ∧
    ((s.live = true → meetsSpan a.toNat (widthBytes w) s.rset = false) →
      ∃ ram, hostAccess a w (.write v) s = .next { s with
          ram := ram
          wset := if s.live then addSpan a.toNat (widthBytes w) s.wset else s.wset } ∧
        (∀ i, i < widthBytes w → readByte ram (a.toNat + i) = v.extractLsb' (8 * i) 8) ∧
        (∀ x, x < a.toNat ∨ a.toNat + widthBytes w ≤ x → readByte ram x = readByte s.ram x))

/-- A host read of RAM is never a race and changes nothing but the word the host reads, which is the current bytes, widened with zero
bits (rules R63, R68 and R186; `rdata` is the model's choice, log entry 6). -/
def Obligations.HostReadReturnsTheBytes : Prop :=
  ∀ (a : Addr) (w : Width) (s : State), s.fault = none → region s.cfg (wordOf a) = .ram → a.toNat % widthBytes w = 0 →
    ∃ v : Word, hostAccess a w .read s = .next { s with rdata := v } ∧
      ∀ i, i < 4 → v.extractLsb' (8 * i) 8 = if i < widthBytes w then readByte s.ram (a.toNat + i) else 0

/-- A host window access that is not a 32-bit access at a 4-aligned offset raises HOST_WIDTH before any other check; a misaligned RAM
access and an access to UNMAPPED or FIFO are refused (rules R68 and R322).
The form of a refusal is the model's reading (log entry 12). -/
def Obligations.HostAccessesOutsideTheCommands : Prop :=
  ∀ (a : Addr) (w : Width) (d : Access) (s : State), s.fault = none →
    (∀ off, region s.cfg (wordOf a) = .window off → (w ≠ .word ∨ wordAligned a = false) →
      hostAccess a w d s = .next { s with fault := some .hostWidth }) ∧
    (region s.cfg (wordOf a) = .ram → a.toNat % widthBytes w ≠ 0 → hostAccess a w d s = .refused (.hostAccess a)) ∧
    (region s.cfg (wordOf a) = .unmapped ∨ region s.cfg (wordOf a) = .fifo →
      hostAccess a w d s = .refused (.hostAccess a))

/-! ### Memory -/

/-- With legal parameters the four regions are what rule R60 says, do not overlap, and cover every aligned address; IS_RAM is constant
on every aligned word (rules R60 to R62). -/
def Obligations.RegionsPartitionTheAddressSpace : Prop :=
  ∀ (cfg : Config) (a : Addr), Config.wf cfg = true →
    ((∃ off, region cfg a = .window off) ↔ (cfg.blkBase.toNat ≤ a.toNat ∧ a.toNat < cfg.blkBase.toNat + 0x100)) ∧
    (∀ off, region cfg a = .window off → a.toNat = cfg.blkBase.toNat + off.toNat) ∧
    (region cfg a = .fifo ↔ a = cfg.outFifoAddr) ∧ (region cfg a = .ram ↔ isRam cfg a = true) ∧
    isRam cfg a = isRam cfg (a &&& ~~~3#32)

/-- Memory is what it reads: two memories in the canonical form that read the same at every address are the same list, so writing back
what was read changes nothing, and the later of two writes to one word wins.
The list form is the model's choice (log entries 3 and 15). -/
def Obligations.MemoryIsWhatItReads : Prop :=
  (∀ m n : Memory, Memory.wf m = true → Memory.wf n = true → (∀ a, readByte m a = readByte n a) → m = n) ∧
  (∀ (m : Memory) (a : Nat) (v w : Word), Memory.wf m = true →
    writeMem m a .word (readWord m a) = m ∧ readWord (writeMem m a .word v) a = v ∧
    writeMem (writeMem m a .word v) a .word w = writeMem m a .word w)

/-! ### Whole-machine rules -/

/-- The launch state has the invariant.
Its parameters and memory are the model's choice (log entries 1 and 3). -/
def Obligations.LaunchStateHasTheInvariant : Prop := Invariant State.reset

/-- Every step keeps the invariant, from every state that has it, whoever's turn it is.
The canonical forms in it are the model's choice (log entry 15). -/
def Obligations.EveryStepKeepsTheInvariant : Prop :=
  ∀ s t : State, Invariant s → step s = .next t → Invariant t

/-- At the end of every step after which nothing is live, the race sets are empty (rule R79). -/
def Obligations.QuietStepsEmptyTheRaceSets : Prop :=
  ∀ s t : State, Invariant s → step s = .next t → t.live = false → t.rset = [] ∧ t.wset = []

/-- No step changes the parameters, and the event history and OUT only grow (rules R28 and R300). -/
def Obligations.HistoriesOnlyGrow : Prop :=
  ∀ s t : State, step s = .next t → t.cfg = s.cfg ∧ s.ev <+: t.ev ∧ s.out <+: t.out

/-- A completion flag goes from 0 to 1 only in a step that records a null trigger of its engine (rules R208 and R209). -/
def Obligations.OnlyANullTriggerSetsDone : Prop :=
  ∀ (s t : State) (e : Engine), step s = .next t → (s.ch e).done = false → (t.ch e).done = true →
    ∃ l, t.ev = s.ev ++ l ∧ .null e ∈ l

/-- A completion flag goes from 1 to 0 only by block reset or by a write, of the host or of an engine, of a word with the engine's bit set
to INTR (rules R25 and R208). -/
def Obligations.OnlyIntrOrResetClearsDone : Prop :=
  ∀ (s t : State) (e : Engine), Config.wf s.cfg = true → step s = .next t → (s.ch e).done = true → (t.ch e).done = false →
    (nextTurn s).1 = .blockReset ∨
    (∃ a v ops, s.host = .write a .word v :: ops ∧ (nextTurn s).1 = .host ∧ region s.cfg a = .window 0x80 ∧
      maskBit v e = true) ∨
    (∃ l x ra wa v, t.ev = s.ev ++ l ∧ .word x ra wa v ∈ l ∧ region s.cfg wa = .window 0x80 ∧ maskBit v e = true)

/-- The alternation of a running FINITE or LOOP pipeline (rules R214 and R285): every step of an engine or of the output engine that does
not fault keeps at most one engine busy and the CTE's registers in phase, and what was live stays live until the DTE's null trigger.
The descriptor turn among the turns is the model's choice (log entry 5). -/
def Obligations.TheEnginesAlternate : Prop :=
  ∀ (s t : State) (x : Turn), Config.wf s.cfg = true → Alternating s → x ≠ .host → x ≠ .blockReset →
    finish (takeTurn x s) = .next t → t.fault = none →
    Alternating t ∧ (s.live = true → t.live = true ∨ ∃ l, t.ev = s.ev ++ l ∧ .null .e1 ∈ l)

/-- Halted is terminal (rule R295): with nothing live, no engine's, descriptor's or output turn changes a register, a flag, memory or the
history, or delivers a word.
Turns without an enabled step are the model's choice (log entries 4 and 5). -/
def Obligations.NoStepOfTheSequencerLeavesHalted : Prop :=
  ∀ (s : State) (x : Turn), s.fault = none → s.live = false → x ≠ .host → x ≠ .blockReset →
    ∃ fifo, takeTurn x s = .next { s with fifo := fifo } ∧ (fifo = s.fifo ∨ fifo = s.fifo.tail)

/-! ### The pipeline -/

/-- Arming and starting a named configuration (rules R283, R284, R287, R290 and R291): from block reset with nothing live, the host's arming
steps lead to `Armed` and the start trigger to `Loading(0)`. The host's turns are taken one after the other (the model's schedule, log
entry 4; the pipeline state, log entry 9). -/
def Obligations.ArmingAndStartingReachesLoading : Prop :=
  ∀ (k : Configuration) (s : State), Config.wf s.cfg = true → inBlockReset s = true → s.host = armOps s.cfg k ++ startCte s.cfg →
    s.sched = List.replicate s.host.length .host →
    pipelineState k none s = some .idle ∧
    (∃ t, Host.Core.run Sys2Proof.core (armOps s.cfg k).length s = .next t ∧ pipelineState k none t = some .armed ∧
      t.ev = s.ev ∧ t.ram = s.ram ∧ t.out = s.out) ∧
    ∃ u, Host.Core.run Sys2Proof.core s.host.length s = .next u ∧ pipelineState k (some s.ev.length) u = some (.loading 0) ∧
      u.host = [] ∧ u.ram = s.ram ∧ u.out = s.out

/-- The round trip of a finite list (rules R296 to R298): from a started `FINITE` pipeline over a list of `n` data descriptors, every
interleaving of engine, descriptor and output turns runs without a fault, delivers at every step a part of the buffers' words in
descriptor order, and has delivered them all, with no gap, duplicate or reordering, exactly when it has halted; the completion flag is set
exactly then. `n = 0` is the sentinel alone.
The schedule and its descriptor turns are the model's choice (log entries 4 and 5). -/
def Obligations.FiniteListsAreDeliveredInOrder : Prop :=
  ∀ (d : Addr) (n : Nat) (s : State), FiniteStarted d n s →
    (∀ x ∈ s.sched, x = .engine .e0 ∨ x = .engine .e1 ∨ x = .descriptor ∨ x = .output) →
    ∃ t, Host.Core.run Sys2Proof.core s.sched.length s = .next t ∧ t.fault = none ∧ t.ram = s.ram ∧
      t.out <+: s.out ++ delivered s.ram d n ∧
      (t.live = true → t.ch1.done = false) ∧
      (t.live = false → t.out = s.out ++ delivered s.ram d n ∧ t.ch1.done = true)

/-- In a weakly fair run the pacing hold is lifted (rules R241, R255 and R256): from every state with the invariant, the FIFO has room for one
more word at some later state.
Runs and fairness are stated in the model's turns (log entries 4 and 13). -/
def Obligations.AFairRunLiftsTheHold : Prop :=
  ∀ (states : Nat → State) (turns : Nat → Turn) (n : Nat), IsRun states turns → WeaklyFair states turns →
    Invariant (states n) → 1 ≤ (states n).cfg.outFifoDepth → (states n).dreq = false →
    ∃ m, n < m ∧ ((states m).dreq = true ∨ (states m).fault ≠ none)
end

