-- ==== Sys2Proof/Laws/Bits.lean ====
section
/-! SUPPORT. Words and bytes, the window's addresses, the address increment. -/

namespace Sys2Proof.Machine

/-! ### Words and their bytes (20_memory.md rule R63) -/

theorem joinWord_wordBytes (v : Word) : joinWord (byteOf v 0) (byteOf v 1) (byteOf v 2) (byteOf v 3) = v := by
  apply BitVec.eq_of_getLsbD_eq
  intro i hi
  simp only [joinWord, byteOf, BitVec.getLsbD_append, BitVec.getLsbD_extractLsb']
  by_cases h0 : i < 8
  · simp [h0]
  · by_cases h1 : i < 16
    · have : i - 8 < 8 := by omega
      simp [h0, this, show 8 + (i - 8) = i by omega]
    · by_cases h2 : i < 24
      · simp [h0, show ¬ i - 8 < 8 by omega, show i - 8 - 8 < 8 by omega, show 16 + (i - 8 - 8) = i by omega]
      · simp [h0, show ¬ i - 8 < 8 by omega, show ¬ i - 8 - 8 < 8 by omega, show i - 8 - 8 - 8 < 8 by omega,
          show 24 + (i - 8 - 8 - 8) = i by omega]

theorem byteOf_joinWord_0 (b0 b1 b2 b3 : Byte) : byteOf (joinWord b0 b1 b2 b3) 0 = b0 := by
  apply BitVec.eq_of_getLsbD_eq
  intro i hi
  simp only [joinWord, byteOf, BitVec.getLsbD_append, BitVec.getLsbD_extractLsb']
  simp [hi]

theorem byteOf_joinWord_1 (b0 b1 b2 b3 : Byte) : byteOf (joinWord b0 b1 b2 b3) 1 = b1 := by
  apply BitVec.eq_of_getLsbD_eq
  intro i hi
  simp only [joinWord, byteOf, BitVec.getLsbD_append, BitVec.getLsbD_extractLsb']
  simp [hi]

theorem byteOf_joinWord_2 (b0 b1 b2 b3 : Byte) : byteOf (joinWord b0 b1 b2 b3) 2 = b2 := by
  apply BitVec.eq_of_getLsbD_eq
  intro i hi
  simp only [joinWord, byteOf, BitVec.getLsbD_append, BitVec.getLsbD_extractLsb']
  simp [hi, show ¬ 16 + i < 8 by omega,
    show ¬ 16 + i - 8 < 8 by omega, show 16 + i - 8 - 8 = i by omega]

theorem byteOf_joinWord_3 (b0 b1 b2 b3 : Byte) : byteOf (joinWord b0 b1 b2 b3) 3 = b3 := by
  apply BitVec.eq_of_getLsbD_eq
  intro i hi
  simp only [joinWord, byteOf, BitVec.getLsbD_append, BitVec.getLsbD_extractLsb']
  simp [hi, show ¬ 24 + i < 8 by omega,
    show ¬ 24 + i - 8 < 8 by omega, show ¬ 24 + i - 8 - 8 < 8 by omega, show 24 + i - 8 - 8 - 8 = i by omega]

/-- The bytes of a joined word are the bytes it was joined from. -/
theorem wordBytes_joinWord (b0 b1 b2 b3 : Byte) : wordBytes (joinWord b0 b1 b2 b3) = [b0, b1, b2, b3] := by
  simp [wordBytes, byteOf_joinWord_0, byteOf_joinWord_1, byteOf_joinWord_2, byteOf_joinWord_3]

/-! ### Alignment -/

theorem wordAligned_iff {a : Addr} : wordAligned a = true ↔ a.toNat % 4 = 0 := by
  simp only [wordAligned, beq_iff_eq, ← BitVec.toNat_inj, BitVec.extractLsb'_toNat, BitVec.toNat_ofNat]
  simp

theorem wordOf_toNat (a : Addr) : (wordOf a).toNat = a.toNat / 4 * 4 := by
  have h : wordOf a = (a >>> 2) <<< 2 := by
    apply BitVec.eq_of_getLsbD_eq
    intro i hi
    simp only [wordOf, BitVec.getLsbD_and, BitVec.getLsbD_not, BitVec.getLsbD_shiftLeft, BitVec.getLsbD_ushiftRight]
    by_cases h2 : i < 2
    · have : i = 0 ∨ i = 1 := by omega
      rcases this with rfl | rfl <;> simp
    · simp only [hi, h2]
      have h3 : (3#32).getLsbD i = false := by
        rw [BitVec.getLsbD_ofNat]
        have : Nat.testBit 3 i = false := Nat.testBit_lt_two_pow (Nat.lt_of_lt_of_le (by decide : 3 < 2 ^ 2)
          (Nat.pow_le_pow_right (by decide) (by omega)))
        simp [this]
      simp [h3, show 2 + (i - 2) = i by omega]
  have hlt := a.isLt
  rw [h, BitVec.toNat_shiftLeft, BitVec.toNat_ushiftRight, Nat.shiftLeft_eq, Nat.shiftRight_eq_div_pow]
  omega

/-- An aligned address is the address of its word. -/
theorem wordOf_aligned {a : Addr} (h : wordAligned a = true) : wordOf a = a := by
  apply BitVec.eq_of_toNat_eq
  rw [wordAligned_iff] at h
  rw [wordOf_toNat]
  omega

/-! ### Regions and the window (20_memory.md rules R60 to R62) -/

/-- An address whose region is RAM is ordinary memory. -/
theorem isRam_of_region {cfg : Config} {a : Addr} (h : region cfg a = .ram) : isRam cfg a = true := by
  unfold region at h
  split at h
  · cases h
  · split at h
    · cases h
    · split at h
      · assumption
      · cases h

/-- The bytes of one aligned word are all ordinary memory or none is (20_memory.md rule R61). -/
theorem isRamByte_congr {cfg : Config} {j k : Nat} (h : j / 4 = k / 4) : isRamByte cfg j = isRamByte cfg k := by
  simp only [isRamByte, inRange, h]

theorem windowAddr_toNat {cfg : Config} (h : cfg.blkBase.extractLsb' 0 8 = 0#8) (off : BitVec 8) :
    (windowAddr cfg off).toNat = cfg.blkBase.toNat + off.toNat := by
  have h8 : cfg.blkBase.toNat % 256 = 0 := by
    have := congrArg BitVec.toNat h
    simpa [BitVec.extractLsb'_toNat] using this
  have hb := cfg.blkBase.isLt
  have ho := off.isLt
  simp only [windowAddr, BitVec.toNat_add, BitVec.truncate_eq_setWidth, BitVec.toNat_setWidth]
  omega

/-- The address of a window offset decodes to that offset (20_memory.md rule R62, `BLK_BASE mod 256 = 0`). -/
theorem region_windowAddr {cfg : Config} (h : cfg.blkBase.extractLsb' 0 8 = 0#8) (off : BitVec 8) :
    region cfg (windowAddr cfg off) = .window off := by
  have ht := windowAddr_toNat h off
  have ho := off.isLt
  have hin : inWindow cfg (windowAddr cfg off) = true := by
    simp only [inWindow, ht, Bool.and_eq_true, decide_eq_true_eq]; omega
  have hoff : (windowAddr cfg off - cfg.blkBase).extractLsb' 0 8 = off := by
    apply BitVec.eq_of_toNat_eq
    have : windowAddr cfg off - cfg.blkBase = off.zeroExtend 32 := by
      unfold windowAddr; rw [BitVec.add_comm, BitVec.add_sub_cancel]
    rw [this, BitVec.extractLsb'_toNat]
    simpa using ho
  simp [region, hin, hoff]

/-- The parameters' constraints give the alignment of the window. -/
theorem blkBase_of_wf {cfg : Config} (h : Config.wf cfg = true) : cfg.blkBase.extractLsb' 0 8 = 0#8 := by
  simp only [Config.wf, Bool.and_eq_true, beq_iff_eq] at h
  exact h.1.1.1.1.1

/-! ### The address increment (30_encoding.md rules R114 and R115) -/

theorem ringInc_zero (a : Addr) : ringInc a 0 = a + 4 := by simp [ringInc]

/-- `ringInc` keeps 4-alignment. -/
theorem ringInc_aligned {a : Addr} (n : BitVec 4) (h : wordAligned a = true) : wordAligned (ringInc a n) = true := by
  have h4 : wordAligned (a + 4) = true := by
    rw [wordAligned_iff] at h ⊢
    rw [BitVec.toNat_add, show (4 : Addr).toNat = 4 from rfl]
    omega
  unfold ringInc
  split
  · exact h4
  · simp only [wordAligned, beq_iff_eq] at h h4 ⊢
    rw [BitVec.extractLsb'_or, BitVec.extractLsb'_and, BitVec.extractLsb'_and, h, h4]
    simp

/-! ### The word addresses of a buffer -/

@[simp] theorem wordAt_zero (a : Addr) : wordAt a 0 = a := by simp [wordAt]

theorem wordAt_succ (a : Addr) (k : Nat) : wordAt a (k + 1) = wordAt a k + 4 := by
  rw [wordAt, wordAt, BitVec.add_assoc]
  congr 1
  apply BitVec.eq_of_toNat_eq
  simp
  omega

/-- An increment without a ring goes to the next word address. -/
theorem ringInc_wordAt (a : Addr) (k : Nat) : ringInc (wordAt a k) 0 = wordAt a (k + 1) := by rw [ringInc_zero, wordAt_succ]

theorem wordAt_wordAt (a : Addr) (j k : Nat) : wordAt (wordAt a j) k = wordAt a (j + k) := by
  induction k with
  | zero => simp
  | succ k ih => rw [wordAt_succ, ih, ← Nat.add_assoc, wordAt_succ]

theorem wordAt_aligned {a : Addr} (k : Nat) (h : wordAligned a = true) : wordAligned (wordAt a k) = true := by
  rw [wordAligned_iff] at *
  simp only [wordAt, BitVec.toNat_add, BitVec.toNat_ofNat]
  omega

end Sys2Proof.Machine
end

