-- ==== Sys2Proof/Laws/Memory.lean ====
section
/-! SUPPORT. The laws of memory and of the race sets: read after write, other addresses untouched, the canonical forms kept,
equal readings are equal memories, membership after an insertion. -/

namespace Sys2Proof.Machine

/-! ### One byte -/

theorem memoryWfFrom_mono {m : Memory} {lo lo' : Nat} (h : memoryWfFrom lo m = true) (hle : lo' ≤ lo) :
    memoryWfFrom lo' m = true := by
  cases m with
  | nil => rfl
  | cons c rest =>
    obtain ⟨k, x⟩ := c
    simp only [memoryWfFrom, Bool.and_eq_true, decide_eq_true_eq] at h ⊢
    exact ⟨⟨by omega, h.1.2⟩, h.2⟩

/-- Below the lowest address, memory lists nothing. -/
theorem readByte_below {m : Memory} {lo a : Nat} (h : memoryWfFrom lo m = true) (ha : a < lo) :
    readByte m a = unlistedByte := by
  induction m generalizing lo with
  | nil => rfl
  | cons c rest ih =>
    obtain ⟨k, x⟩ := c
    simp only [memoryWfFrom, Bool.and_eq_true, decide_eq_true_eq] at h
    rw [readByte, if_neg (by omega)]
    exact ih h.2 (by omega)

theorem writeByte_wfFrom {m : Memory} {lo : Nat} (h : memoryWfFrom lo m = true) {a : Nat} (b : Byte) (ha : lo ≤ a) :
    memoryWfFrom lo (writeByte m a b) = true := by
  induction m generalizing lo with
  | nil =>
    unfold writeByte
    split
    · rfl
    · next hb => simp [memoryWfFrom, ha, hb]
  | cons c rest ih =>
    obtain ⟨k, x⟩ := c
    simp only [memoryWfFrom, Bool.and_eq_true, decide_eq_true_eq] at h
    unfold writeByte
    split
    · split
      · simpa [memoryWfFrom] using h
      · next hlt hb =>
        simp only [memoryWfFrom, Bool.and_eq_true, decide_eq_true_eq, bne_iff_ne, ne_eq]
        exact ⟨⟨ha, hb⟩, ⟨⟨by omega, by simpa using h.1.2⟩, h.2⟩⟩
    · split
      · split
        · exact memoryWfFrom_mono h.2 (by omega)
        · next hlt heq hb =>
          simp only [memoryWfFrom, Bool.and_eq_true, decide_eq_true_eq, bne_iff_ne, ne_eq]
          exact ⟨⟨h.1.1, hb⟩, h.2⟩
      · simp only [memoryWfFrom, Bool.and_eq_true, decide_eq_true_eq]
        exact ⟨h.1, ih h.2 (by omega)⟩

/-- A byte write keeps the canonical form. -/
theorem writeByte_wf {m : Memory} (h : Memory.wf m = true) (a : Nat) (b : Byte) :
    Memory.wf (writeByte m a b) = true := writeByte_wfFrom h b (Nat.zero_le a)

theorem readByte_writeByte_from {m : Memory} {lo : Nat} (h : memoryWfFrom lo m = true) (a : Nat) (b : Byte) (x : Nat) :
    readByte (writeByte m a b) x = if x = a then b else readByte m x := by
  induction m generalizing lo with
  | nil =>
    unfold writeByte
    by_cases hb : b = unlistedByte <;> by_cases hx : x = a <;> simp [hb, hx, readByte]
  | cons c rest ih =>
    obtain ⟨k, y⟩ := c
    simp only [memoryWfFrom, Bool.and_eq_true, decide_eq_true_eq] at h
    have below : ∀ {z}, z ≤ k → readByte rest z = unlistedByte := fun hz => readByte_below h.2 (by omega)
    unfold writeByte
    split
    · next hlt =>
      split
      · next hb =>
        by_cases hx : x = a
        · subst hx; rw [if_pos rfl, readByte, if_neg (by omega), below (by omega), hb]
        · rw [if_neg hx]
      · rw [readByte]
    · split
      · next hlt heq =>
        subst heq
        split
        · next hb =>
          by_cases hx : x = a
          · subst hx; rw [if_pos rfl, below (by omega), hb]
          · rw [if_neg hx, readByte, if_neg hx]
        · simp only [readByte]; split <;> rfl
      · next hlt heq =>
        rw [readByte, ih h.2, readByte]
        by_cases hxk : x = k
        · rw [if_pos hxk, if_pos hxk, if_neg (by omega)]
        · rw [if_neg hxk, if_neg hxk]

/-- Read after write, at the written address and elsewhere. -/
theorem readByte_writeByte {m : Memory} (h : Memory.wf m = true) (a : Nat) (b : Byte) (x : Nat) :
    readByte (writeByte m a b) x = if x = a then b else readByte m x := readByte_writeByte_from h a b x

/-! ### Several bytes -/

/-- A write of bytes keeps the canonical form. -/
theorem writeBytes_wf {m : Memory} (h : Memory.wf m = true) (a : Nat) (bs : List Byte) :
    Memory.wf (writeBytes m a bs) = true := by
  induction bs generalizing m a with
  | nil => exact h
  | cons b rest ih => exact ih (writeByte_wf h a b) (a + 1)

/-- A memory write of any width keeps the canonical form. -/
theorem writeMem_wf {m : Memory} (h : Memory.wf m = true) (a : Nat) (w : Width) (v : Word) :
    Memory.wf (writeMem m a w v) = true := writeBytes_wf h a _

/-- Read after a write of bytes: the byte written there, or the byte as it was. -/
theorem readByte_writeBytes {m : Memory} (h : Memory.wf m = true) (a : Nat) (bs : List Byte) (x : Nat) :
    readByte (writeBytes m a bs) x = if a ≤ x then (bs[x - a]?).getD (readByte m x) else readByte m x := by
  induction bs generalizing m a with
  | nil => simp [writeBytes]
  | cons b rest ih =>
    rw [writeBytes, ih (writeByte_wf h a b), readByte_writeByte h]
    by_cases hx : x = a
    · subst hx; simp
    · by_cases hle : a ≤ x
      · have h1 : a + 1 ≤ x := by omega
        have h2 : x - a = (x - (a + 1)) + 1 := by omega
        simp [hx, hle, h1, h2]
      · simp [hx, hle, show ¬ a + 1 ≤ x by omega]

theorem storedBytes_length (w : Width) (v : Word) : (storedBytes w v).length = widthBytes w := by cases w <;> rfl

/-- Every byte outside the written span reads as before. -/
theorem readByte_writeMem_outside {m : Memory} (h : Memory.wf m = true) (a : Nat) (w : Width) (v : Word) {x : Nat}
    (hx : x < a ∨ a + widthBytes w ≤ x) : readByte (writeMem m a w v) x = readByte m x := by
  unfold writeMem
  rw [readByte_writeBytes h]
  split
  · next hle =>
    rw [List.getElem?_eq_none (by rw [storedBytes_length]; omega)]
    rfl
  · rfl

/-- Every byte of the written span reads as the stored byte. -/
theorem readByte_writeMem_inside {m : Memory} (h : Memory.wf m = true) (a : Nat) (w : Width) (v : Word) {i : Nat}
    (hi : i < widthBytes w) : readByte (writeMem m a w v) (a + i) = byteOf v i := by
  unfold writeMem
  rw [readByte_writeBytes h, if_pos (by omega), Nat.add_sub_cancel_left]
  cases w
  · obtain rfl : i = 0 := by simp [widthBytes] at hi; omega
    rfl
  · have : i = 0 ∨ i = 1 := by simp [widthBytes] at hi; omega
    rcases this with rfl | rfl <;> rfl
  · have : i = 0 ∨ i = 1 ∨ i = 2 ∨ i = 3 := by simp [widthBytes] at hi; omega
    rcases this with rfl | rfl | rfl | rfl <;> rfl

/-- A written byte address is in memory only if it was or is one of the written addresses. -/
theorem mem_writeByte {m : Memory} {a : Nat} {b : Byte} {c : Host.Cell} (h : c ∈ writeByte m a b) :
    c ∈ m ∨ c.1 = a := by
  induction m with
  | nil =>
    unfold writeByte at h
    split at h
    · cases h
    · simp at h; exact .inr (by rw [h])
  | cons d rest ih =>
    obtain ⟨k, x⟩ := d
    unfold writeByte at h
    split at h
    · split at h
      · exact .inl h
      · rcases List.mem_cons.1 h with rfl | h
        · exact .inr rfl
        · exact .inl h
    · split at h
      · next heq =>
        split at h
        · exact .inl (List.mem_cons_of_mem _ h)
        · rcases List.mem_cons.1 h with rfl | h
          · exact .inr heq.symm
          · exact .inl (List.mem_cons_of_mem _ h)
      · rcases List.mem_cons.1 h with rfl | h
        · exact .inl List.mem_cons_self
        · rcases ih h with h | h
          · exact .inl (List.mem_cons_of_mem _ h)
          · exact .inr h

theorem mem_writeBytes {m : Memory} {a : Nat} {bs : List Byte} {c : Host.Cell} (h : c ∈ writeBytes m a bs) :
    c ∈ m ∨ (a ≤ c.1 ∧ c.1 < a + bs.length) := by
  induction bs generalizing m a with
  | nil => exact .inl h
  | cons b rest ih =>
    rcases ih h with h | ⟨h1, h2⟩
    · rcases mem_writeByte h with h | h
      · exact .inl h
      · exact .inr (by simp; omega)
    · exact .inr (by simp; omega)

/-- A cell of a written memory was there before, or lies in the written span. -/
theorem mem_writeMem {m : Memory} {a : Nat} {w : Width} {v : Word} {c : Host.Cell} (h : c ∈ writeMem m a w v) :
    c ∈ m ∨ (a ≤ c.1 ∧ c.1 < a + widthBytes w) := by
  have := mem_writeBytes h
  rwa [storedBytes_length] at this

/-! ### The race sets -/

theorem mem_insertAddr {a x : Nat} {l : List Nat} : x ∈ insertAddr a l ↔ x = a ∨ x ∈ l := by
  induction l with
  | nil => simp [insertAddr]
  | cons k rest ih =>
    unfold insertAddr
    split
    · simp
    · split
      · next h => subst h; simp
      · simp only [List.mem_cons, ih]; tauto

/-- Membership after a span is added. -/
theorem mem_addSpan {a n x : Nat} {l : List Nat} : x ∈ addSpan a n l ↔ (a ≤ x ∧ x < a + n) ∨ x ∈ l := by
  induction n generalizing a with
  | zero => simp only [addSpan]; exact ⟨Or.inr, fun h => h.elim (fun h => by omega) id⟩
  | succ n ih =>
    rw [addSpan, mem_insertAddr, ih]
    constructor
    · rintro (h | h | h)
      · exact .inl (by omega)
      · exact .inl (by omega)
      · exact .inr h
    · rintro (h | h)
      · by_cases hx : x = a
        · exact .inl hx
        · exact .inr (.inl (by omega))
      · exact .inr (.inr h)

/-- A span meets a set exactly when some address of it is in the set. -/
theorem meetsSpan_iff {a n : Nat} {l : List Nat} : meetsSpan a n l = true ↔ ∃ x, a ≤ x ∧ x < a + n ∧ x ∈ l := by
  induction n generalizing a with
  | zero => simp [meetsSpan]; omega
  | succ n ih =>
    simp only [meetsSpan, Bool.or_eq_true, decide_eq_true_eq, ih]
    constructor
    · rintro (h | ⟨x, h1, h2, h3⟩)
      · exact ⟨a, by omega, by omega, h⟩
      · exact ⟨x, by omega, by omega, h3⟩
    · rintro ⟨x, h1, h2, h3⟩
      by_cases hx : x = a
      · subst hx; exact .inl h3
      · exact .inr ⟨x, by omega, by omega, h3⟩

theorem insertAddr_risingFrom {lo a : Nat} {l : List Nat} (h : risingFrom lo l = true) (ha : lo ≤ a) :
    risingFrom lo (insertAddr a l) = true := by
  induction l generalizing lo with
  | nil => simp [insertAddr, risingFrom, ha]
  | cons k rest ih =>
    simp only [risingFrom, Bool.and_eq_true, decide_eq_true_eq] at h
    unfold insertAddr
    split
    · simp only [risingFrom, Bool.and_eq_true, decide_eq_true_eq]; exact ⟨ha, by omega, h.2⟩
    · split
      · simpa [risingFrom] using h
      · simp only [risingFrom, Bool.and_eq_true, decide_eq_true_eq]; exact ⟨h.1, ih h.2 (by omega)⟩

/-- Adding a span keeps the canonical form of a set. -/
theorem addSpan_rising {a n : Nat} {l : List Nat} (h : rising l = true) : rising (addSpan a n l) = true := by
  induction n generalizing a with
  | zero => exact h
  | succ n ih => exact insertAddr_risingFrom ih (Nat.zero_le a)

/-- The launch memory has the canonical form. -/
theorem reset_ram_wf : Memory.wf State.reset.ram = true := by decide

end Sys2Proof.Machine
end

