-- ==== Sys2Proof/Laws/State.lean ====
section
/-! SUPPORT. The small lemmas of the state: one per field per update, and what the accessors see of an update. No later proof
unfolds a record update of `setCh`, `record`, `raiseFault`, `clearDone`, `intrWrite`, `chanWrite`, `endOfStep` or `blockReset`. -/

namespace Sys2Proof.Machine

variable (s : State) (e e' : Engine) (c : Channel) (x : Event) (k : FaultCode) (v : Word)

/-! ### `ch` and `setCh` -/

@[simp] theorem ch_e0 : s.ch .e0 = s.ch0 := rfl
@[simp] theorem ch_e1 : s.ch .e1 = s.ch1 := rfl
@[simp] theorem setCh_ch_same : (s.setCh e c).ch e = c := by cases e <;> rfl
theorem setCh_ch_ne (h : e' ≠ e) : (s.setCh e c).ch e' = s.ch e' := by
  cases e <;> cases e' <;> first | rfl | exact absurd rfl h
theorem setCh_ch : (s.setCh e c).ch e' = if e' = e then c else s.ch e' := by
  cases e <;> cases e' <;> rfl
@[simp] theorem setCh_e0_ch0 : (s.setCh .e0 c).ch0 = c := rfl
@[simp] theorem setCh_e0_ch1 : (s.setCh .e0 c).ch1 = s.ch1 := rfl
@[simp] theorem setCh_e1_ch0 : (s.setCh .e1 c).ch0 = s.ch0 := rfl
@[simp] theorem setCh_e1_ch1 : (s.setCh .e1 c).ch1 = c := rfl
@[simp] theorem setCh_self : s.setCh e (s.ch e) = s := by cases e <;> rfl
@[simp] theorem setCh_setCh (d : Channel) : (s.setCh e c).setCh e d = s.setCh e d := by cases e <;> rfl
@[simp] theorem setCh_cfg : (s.setCh e c).cfg = s.cfg := by cases e <;> rfl
@[simp] theorem setCh_ram : (s.setCh e c).ram = s.ram := by cases e <;> rfl
@[simp] theorem setCh_fifo : (s.setCh e c).fifo = s.fifo := by cases e <;> rfl
@[simp] theorem setCh_out : (s.setCh e c).out = s.out := by cases e <;> rfl
@[simp] theorem setCh_rset : (s.setCh e c).rset = s.rset := by cases e <;> rfl
@[simp] theorem setCh_wset : (s.setCh e c).wset = s.wset := by cases e <;> rfl
@[simp] theorem setCh_ev : (s.setCh e c).ev = s.ev := by cases e <;> rfl
@[simp] theorem setCh_fault : (s.setCh e c).fault = s.fault := by cases e <;> rfl
@[simp] theorem setCh_rdata : (s.setCh e c).rdata = s.rdata := by cases e <;> rfl
@[simp] theorem setCh_host : (s.setCh e c).host = s.host := by cases e <;> rfl
@[simp] theorem setCh_sched : (s.setCh e c).sched = s.sched := by cases e <;> rfl
@[simp] theorem setCh_tick : (s.setCh e c).tick = s.tick := by cases e <;> rfl

/-! ### `record` -/

@[simp] theorem record_cfg : (s.record x).cfg = s.cfg := rfl
@[simp] theorem record_ch0 : (s.record x).ch0 = s.ch0 := rfl
@[simp] theorem record_ch1 : (s.record x).ch1 = s.ch1 := rfl
@[simp] theorem record_ram : (s.record x).ram = s.ram := rfl
@[simp] theorem record_fifo : (s.record x).fifo = s.fifo := rfl
@[simp] theorem record_out : (s.record x).out = s.out := rfl
@[simp] theorem record_rset : (s.record x).rset = s.rset := rfl
@[simp] theorem record_wset : (s.record x).wset = s.wset := rfl
@[simp] theorem record_ev : (s.record x).ev = s.ev ++ [x] := rfl
@[simp] theorem record_fault : (s.record x).fault = s.fault := rfl
@[simp] theorem record_rdata : (s.record x).rdata = s.rdata := rfl
@[simp] theorem record_host : (s.record x).host = s.host := rfl
@[simp] theorem record_sched : (s.record x).sched = s.sched := rfl
@[simp] theorem record_tick : (s.record x).tick = s.tick := rfl
@[simp] theorem record_ch : (s.record x).ch e = s.ch e := by cases e <;> rfl
@[simp] theorem record_live : (s.record x).live = s.live := rfl
@[simp] theorem record_dreq : (s.record x).dreq = s.dreq := rfl
theorem setCh_live_e0 : (s.setCh .e0 c).live = (c.busy || s.ch1.busy) := rfl
theorem setCh_live_e1 : (s.setCh .e1 c).live = (s.ch0.busy || c.busy) := rfl
@[simp] theorem setCh_dreq : (s.setCh e c).dreq = s.dreq := by cases e <;> rfl

/-- `LIVE` is that some engine is busy (10_state.md rule R26). -/
theorem live_iff : s.live = true ↔ ∃ e, (s.ch e).busy = true := by
  simp only [State.live, Bool.or_eq_true]
  constructor
  · rintro (h | h)
    · exact ⟨.e0, h⟩
    · exact ⟨.e1, h⟩
  · rintro ⟨e, h⟩
    cases e
    · exact .inl h
    · exact .inr h

/-- A busy engine makes the pipeline live (10_state.md rule R26). -/
theorem live_of_busy (h : (s.ch e).busy = true) : s.live = true := (live_iff s).2 ⟨e, h⟩

/-- With nothing live no engine is busy (10_state.md rule R26). -/
theorem not_busy_of_quiet (h : s.live = false) : (s.ch e).busy = false := by
  cases hb : (s.ch e).busy
  · rfl
  · rw [live_of_busy s e hb] at h; cases h

/-! ### `raiseFault` -/

@[simp] theorem raiseFault_cfg : (raiseFault k s).cfg = s.cfg := rfl
@[simp] theorem raiseFault_ch0 : (raiseFault k s).ch0 = s.ch0 := rfl
@[simp] theorem raiseFault_ch1 : (raiseFault k s).ch1 = s.ch1 := rfl
@[simp] theorem raiseFault_ram : (raiseFault k s).ram = s.ram := rfl
@[simp] theorem raiseFault_fifo : (raiseFault k s).fifo = s.fifo := rfl
@[simp] theorem raiseFault_out : (raiseFault k s).out = s.out := rfl
@[simp] theorem raiseFault_rset : (raiseFault k s).rset = s.rset := rfl
@[simp] theorem raiseFault_wset : (raiseFault k s).wset = s.wset := rfl
@[simp] theorem raiseFault_ev : (raiseFault k s).ev = s.ev := rfl
@[simp] theorem raiseFault_fault : (raiseFault k s).fault = some k := rfl
@[simp] theorem raiseFault_rdata : (raiseFault k s).rdata = s.rdata := rfl
@[simp] theorem raiseFault_host : (raiseFault k s).host = s.host := rfl
@[simp] theorem raiseFault_sched : (raiseFault k s).sched = s.sched := rfl
@[simp] theorem raiseFault_tick : (raiseFault k s).tick = s.tick := rfl
@[simp] theorem raiseFault_ch : (raiseFault k s).ch e = s.ch e := by cases e <;> rfl
@[simp] theorem raiseFault_live : (raiseFault k s).live = s.live := rfl

/-! ### `endOfStep` -/

@[simp] theorem endOfStep_cfg : (endOfStep s).cfg = s.cfg := by unfold endOfStep; split <;> rfl
@[simp] theorem endOfStep_ch0 : (endOfStep s).ch0 = s.ch0 := by unfold endOfStep; split <;> rfl
@[simp] theorem endOfStep_ch1 : (endOfStep s).ch1 = s.ch1 := by unfold endOfStep; split <;> rfl
@[simp] theorem endOfStep_ram : (endOfStep s).ram = s.ram := by unfold endOfStep; split <;> rfl
@[simp] theorem endOfStep_fifo : (endOfStep s).fifo = s.fifo := by unfold endOfStep; split <;> rfl
@[simp] theorem endOfStep_out : (endOfStep s).out = s.out := by unfold endOfStep; split <;> rfl
@[simp] theorem endOfStep_ev : (endOfStep s).ev = s.ev := by unfold endOfStep; split <;> rfl
@[simp] theorem endOfStep_fault : (endOfStep s).fault = s.fault := by unfold endOfStep; split <;> rfl
@[simp] theorem endOfStep_rdata : (endOfStep s).rdata = s.rdata := by unfold endOfStep; split <;> rfl
@[simp] theorem endOfStep_host : (endOfStep s).host = s.host := by unfold endOfStep; split <;> rfl
@[simp] theorem endOfStep_sched : (endOfStep s).sched = s.sched := by unfold endOfStep; split <;> rfl
@[simp] theorem endOfStep_tick : (endOfStep s).tick = s.tick := by unfold endOfStep; split <;> rfl
@[simp] theorem endOfStep_ch : (endOfStep s).ch e = s.ch e := by cases e <;> simp
@[simp] theorem endOfStep_live : (endOfStep s).live = s.live := by simp [State.live]

/-- What the end of a step can do (20_memory.md rule R79): keep the state, or empty the race sets of a quiet one. -/
theorem endOfStep_cases :
    (endOfStep s = s ∧ (s.live = true ∨ s.fault.isSome = true)) ∨
    (endOfStep s = { s with rset := [], wset := [] } ∧ s.live = false ∧ s.fault = none) := by
  unfold endOfStep
  cases hl : s.live <;> cases hf : s.fault <;> simp

/-- The end of a step done twice is the end of a step. -/
@[simp] theorem endOfStep_endOfStep : endOfStep (endOfStep s) = endOfStep s := by
  unfold endOfStep
  cases hl : s.live <;> cases hf : s.fault <;> simp_all [State.live]

/-! ### `blockReset` -/

@[simp] theorem blockReset_cfg : (blockReset s).cfg = s.cfg := rfl
@[simp] theorem blockReset_ch0 : (blockReset s).ch0 = Channel.reset := rfl
@[simp] theorem blockReset_ch1 : (blockReset s).ch1 = Channel.reset := rfl
@[simp] theorem blockReset_ram : (blockReset s).ram = s.ram := rfl
@[simp] theorem blockReset_fifo : (blockReset s).fifo = s.fifo := rfl
@[simp] theorem blockReset_out : (blockReset s).out = s.out := rfl
@[simp] theorem blockReset_rset : (blockReset s).rset = [] := rfl
@[simp] theorem blockReset_wset : (blockReset s).wset = [] := rfl
@[simp] theorem blockReset_ev : (blockReset s).ev = s.ev := rfl
@[simp] theorem blockReset_fault : (blockReset s).fault = none := rfl
@[simp] theorem blockReset_rdata : (blockReset s).rdata = s.rdata := rfl
@[simp] theorem blockReset_host : (blockReset s).host = s.host := rfl
@[simp] theorem blockReset_sched : (blockReset s).sched = s.sched := rfl
@[simp] theorem blockReset_tick : (blockReset s).tick = s.tick := rfl
@[simp] theorem blockReset_ch : (blockReset s).ch e = Channel.reset := by cases e <;> rfl
@[simp] theorem blockReset_live : (blockReset s).live = false := rfl

/-! ### `chanWrite`, `clearDone` and `intrWrite` -/

@[simp] theorem chanWrite_cfg (r : ChanReg) : (chanWrite e r v s).cfg = s.cfg := by cases r <;> simp [chanWrite]
@[simp] theorem chanWrite_ram (r : ChanReg) : (chanWrite e r v s).ram = s.ram := by cases r <;> simp [chanWrite]
@[simp] theorem chanWrite_fifo (r : ChanReg) : (chanWrite e r v s).fifo = s.fifo := by cases r <;> simp [chanWrite]
@[simp] theorem chanWrite_out (r : ChanReg) : (chanWrite e r v s).out = s.out := by cases r <;> simp [chanWrite]
@[simp] theorem chanWrite_rset (r : ChanReg) : (chanWrite e r v s).rset = s.rset := by cases r <;> simp [chanWrite]
@[simp] theorem chanWrite_wset (r : ChanReg) : (chanWrite e r v s).wset = s.wset := by cases r <;> simp [chanWrite]
@[simp] theorem chanWrite_ev (r : ChanReg) : (chanWrite e r v s).ev = s.ev := by cases r <;> simp [chanWrite]
@[simp] theorem chanWrite_fault (r : ChanReg) : (chanWrite e r v s).fault = s.fault := by cases r <;> simp [chanWrite]
@[simp] theorem chanWrite_rdata (r : ChanReg) : (chanWrite e r v s).rdata = s.rdata := by cases r <;> simp [chanWrite]
@[simp] theorem chanWrite_host (r : ChanReg) : (chanWrite e r v s).host = s.host := by cases r <;> simp [chanWrite]
@[simp] theorem chanWrite_sched (r : ChanReg) : (chanWrite e r v s).sched = s.sched := by cases r <;> simp [chanWrite]
@[simp] theorem chanWrite_tick (r : ChanReg) : (chanWrite e r v s).tick = s.tick := by cases r <;> simp [chanWrite]
@[simp] theorem chanWrite_busy (r : ChanReg) : ((chanWrite e r v s).ch e').busy = (s.ch e').busy := by
  cases r <;> cases e <;> cases e' <;> rfl
@[simp] theorem chanWrite_done (r : ChanReg) : ((chanWrite e r v s).ch e').done = (s.ch e').done := by
  cases r <;> cases e <;> cases e' <;> rfl
@[simp] theorem chanWrite_remaining (r : ChanReg) : ((chanWrite e r v s).ch e').remaining = (s.ch e').remaining := by
  cases r <;> cases e <;> cases e' <;> rfl
theorem chanWrite_other (r : ChanReg) (h : e' ≠ e) : (chanWrite e r v s).ch e' = s.ch e' := by
  cases r <;> simp [chanWrite, setCh_ch_ne, h]
@[simp] theorem chanWrite_live (r : ChanReg) : (chanWrite e r v s).live = s.live := by
  cases r <;> cases e <;> rfl
@[simp] theorem clearDone_cfg : (clearDone v e s).cfg = s.cfg := by unfold clearDone; split <;> simp
@[simp] theorem clearDone_ram : (clearDone v e s).ram = s.ram := by unfold clearDone; split <;> simp
@[simp] theorem clearDone_fifo : (clearDone v e s).fifo = s.fifo := by unfold clearDone; split <;> simp
@[simp] theorem clearDone_out : (clearDone v e s).out = s.out := by unfold clearDone; split <;> simp
@[simp] theorem clearDone_rset : (clearDone v e s).rset = s.rset := by unfold clearDone; split <;> simp
@[simp] theorem clearDone_wset : (clearDone v e s).wset = s.wset := by unfold clearDone; split <;> simp
@[simp] theorem clearDone_ev : (clearDone v e s).ev = s.ev := by unfold clearDone; split <;> simp
@[simp] theorem clearDone_fault : (clearDone v e s).fault = s.fault := by unfold clearDone; split <;> simp
@[simp] theorem clearDone_rdata : (clearDone v e s).rdata = s.rdata := by unfold clearDone; split <;> simp
@[simp] theorem clearDone_host : (clearDone v e s).host = s.host := by unfold clearDone; split <;> simp
@[simp] theorem clearDone_sched : (clearDone v e s).sched = s.sched := by unfold clearDone; split <;> simp
@[simp] theorem clearDone_tick : (clearDone v e s).tick = s.tick := by unfold clearDone; split <;> simp
@[simp] theorem intrWrite_cfg : (intrWrite v s).cfg = s.cfg := by simp [intrWrite]
@[simp] theorem intrWrite_ram : (intrWrite v s).ram = s.ram := by simp [intrWrite]
@[simp] theorem intrWrite_fifo : (intrWrite v s).fifo = s.fifo := by simp [intrWrite]
@[simp] theorem intrWrite_out : (intrWrite v s).out = s.out := by simp [intrWrite]
@[simp] theorem intrWrite_rset : (intrWrite v s).rset = s.rset := by simp [intrWrite]
@[simp] theorem intrWrite_wset : (intrWrite v s).wset = s.wset := by simp [intrWrite]
@[simp] theorem intrWrite_ev : (intrWrite v s).ev = s.ev := by simp [intrWrite]
@[simp] theorem intrWrite_fault : (intrWrite v s).fault = s.fault := by simp [intrWrite]
@[simp] theorem intrWrite_rdata : (intrWrite v s).rdata = s.rdata := by simp [intrWrite]
@[simp] theorem intrWrite_host : (intrWrite v s).host = s.host := by simp [intrWrite]
@[simp] theorem intrWrite_sched : (intrWrite v s).sched = s.sched := by simp [intrWrite]
@[simp] theorem intrWrite_tick : (intrWrite v s).tick = s.tick := by simp [intrWrite]

/-- A write-1-to-clear touches one engine's DONE and nothing else (40_host_register_access.md rule R179). -/
theorem clearDone_ch :
    (clearDone v e s).ch e' = if e' = e then { s.ch e with done := (s.ch e).done && !(maskBit v e) } else s.ch e' := by
  unfold clearDone
  cases h : maskBit v e <;> cases e <;> cases e' <;> simp

/-- An INTR write clears the flags whose bits are 1 and changes no other register (40_host_register_access.md rule
R179). -/
theorem intrWrite_ch :
    (intrWrite v s).ch e = { s.ch e with done := (s.ch e).done && !(maskBit v e) } := by
  cases e <;> simp only [intrWrite, clearDone_ch] <;> simp

/-- An INTR write leaves the busy flags, so LIVE, as they are. -/
@[simp] theorem intrWrite_live : (intrWrite v s).live = s.live := by
  have h0 := intrWrite_ch s .e0 v
  have h1 := intrWrite_ch s .e1 v
  simp only [ch_e0, ch_e1] at h0 h1
  simp [State.live, h0, h1]

/-- Two states are equal when every field is. -/
theorem state_ext {s t : State} (h0 : s.cfg = t.cfg) (h1 : s.ch0 = t.ch0) (h2 : s.ch1 = t.ch1) (h3 : s.ram = t.ram)
    (h4 : s.fifo = t.fifo) (h5 : s.out = t.out) (h6 : s.rset = t.rset) (h7 : s.wset = t.wset) (h8 : s.ev = t.ev)
    (h9 : s.fault = t.fault) (h10 : s.rdata = t.rdata) (h11 : s.host = t.host) (h12 : s.sched = t.sched)
    (h13 : s.tick = t.tick) : s = t := by
  cases s; cases t; simp_all

end Sys2Proof.Machine
end

