-- ==== Sys2Proof/Laws/Ops.lean ====
section
/-! SUPPORT. One lemma per shared operation, which says once everything the operation can do where it answers a next state. -/

namespace Sys2Proof.Machine

variable {s t u : State} {e : Engine} {m : Master} {v : Word}

/-! ### Ending a command -/

theorem conclude_ok (h : s.fault = none) : conclude s (.ok t) = .next t := by simp [conclude, h]

theorem conclude_error (h : s.fault = none) (c : FaultCode) : conclude s (.error c) = .next (raiseFault c s) := by
  simp [conclude, h]

theorem conclude_stuck {c : FaultCode} (h : s.fault = some c) (r : Except FaultCode State) :
    conclude s r = .fault (.stuck c) := by simp [conclude, h]

/-- A command that ends in a next state was run where `FAULT` is none, and its effect or its fault record is that state. -/
theorem conclude_cases {r : Except FaultCode State} (h : conclude s r = .next t) :
    s.fault = none ∧ (r = .ok t ∨ ∃ c, r = .error c ∧ t = raiseFault c s) := by
  cases hf : s.fault with
  | some c => simp [conclude, hf] at h
  | none =>
    cases r with
    | ok u => simp [conclude, hf] at h; exact ⟨rfl, .inl (by rw [h])⟩
    | error c => simp [conclude, hf] at h; exact ⟨rfl, .inr ⟨c, rfl, h.symm⟩⟩

/-- No meaning that ends by `conclude` refuses. -/
theorem conclude_not_refused {r : Except FaultCode State} {x : Refusal} : conclude s r ≠ .refused x := by
  unfold conclude; split
  · simp
  · split <;> simp

/-! ### Triggers -/

/-- Everything a trigger can do (41_trigger_and_completion.md rule R201). -/
theorem trigger_cases (h : trigger e s = .ok t) :
    (s.ch e).busy = false ∧
    ((ctrlEn (s.ch e).ctrl = false ∧ t = s.record (.ignored e)) ∨
     (ctrlEn (s.ch e).ctrl = true ∧ (s.ch e).reload = 0 ∧
        t = (s.setCh e { s.ch e with done := true }).record (.null e)) ∨
     (ctrlEn (s.ch e).ctrl = true ∧ (s.ch e).reload ≠ 0 ∧ ctrlDataSize (s.ch e).ctrl = wordSize ∧
        t = (s.setCh e { s.ch e with remaining := (s.ch e).reload, busy := true }).record
          (.block e (s.ch e).readAddr (s.ch e).writeAddr (s.ch e).reload))) := by
  unfold trigger at h
  split at h
  · cases h
  · next hb =>
    refine ⟨by simpa using hb, ?_⟩
    split at h
    · next hen => cases h; exact .inl ⟨by simpa using hen, rfl⟩
    · next hen =>
      split at h
      · next hr => cases h; exact .inr (.inl ⟨by simpa using hen, hr, rfl⟩)
      · next hr =>
        split at h
        · cases h
        · next hd => cases h; exact .inr (.inr ⟨by simpa using hen, hr, by simpa using hd, rfl⟩)

/-- Why a trigger faults (rules R202 and R205). -/
theorem trigger_error {c : FaultCode} (h : trigger e s = .error c) :
    (c = .triggerBusy ∧ (s.ch e).busy = true) ∨
    (c = .dataSize ∧ (s.ch e).busy = false ∧ ctrlEn (s.ch e).ctrl = true ∧ (s.ch e).reload ≠ 0 ∧
      ctrlDataSize (s.ch e).ctrl ≠ wordSize) := by
  unfold trigger at h
  split at h
  · next hb => cases h; exact .inl ⟨rfl, hb⟩
  · next hb =>
    split at h
    · cases h
    · next hen =>
      split at h
      · cases h
      · next hr =>
        split at h
        · next hd => cases h; exact .inr ⟨rfl, by simpa using hb, by simpa using hen, hr, by simpa using hd⟩
        · cases h

/-- The kinds of event a trigger records. -/
def isTriggerEvent : Event → Bool
  | .ignored _ | .null _ | .block _ _ _ _ => true
  | .word _ _ _ _ | .complete _ => false

/-- What every trigger leaves as it was, and the one event it records: it touches one engine's REMAINING, BUSY and DONE. -/
theorem trigger_frame (h : trigger e s = .ok t) :
    (∃ x, isTriggerEvent x = true ∧ t.ev = s.ev ++ [x]) ∧
    (∀ e', e' ≠ e → t.ch e' = s.ch e') ∧
    (t.ch e).readAddr = (s.ch e).readAddr ∧ (t.ch e).writeAddr = (s.ch e).writeAddr ∧
    (t.ch e).reload = (s.ch e).reload ∧ (t.ch e).ctrl = (s.ch e).ctrl ∧
    t.cfg = s.cfg ∧ t.ram = s.ram ∧ t.fifo = s.fifo ∧ t.out = s.out ∧ t.rset = s.rset ∧ t.wset = s.wset ∧
    t.fault = s.fault ∧ t.rdata = s.rdata ∧ t.host = s.host ∧ t.sched = s.sched ∧ t.tick = s.tick := by
  obtain ⟨-, ⟨-, rfl⟩ | ⟨-, -, rfl⟩ | ⟨-, -, -, rfl⟩⟩ := trigger_cases h
  · exact ⟨⟨_, rfl, rfl⟩, fun _ _ => by simp, by simp⟩
  · exact ⟨⟨.null e, rfl, by simp⟩, fun _ hne => by simp [setCh_ch_ne, hne], by simp⟩
  · exact ⟨⟨.block e _ _ _, rfl, by rw [record_ev, setCh_ev]⟩, fun _ hne => by simp [setCh_ch_ne, hne], by simp⟩

/-! ### Register writes -/

/-- Everything a channel-slot write can do (40_host_register_access.md rules R141 and R142). -/
theorem slotWrite_cases {r : ChanReg} {trig : Bool} (h : slotWrite e r trig v m s = .ok t) :
    (s.ch e).busy = false ∧ (m = .host → s.live = false) ∧
    ((trig = false ∧ t = chanWrite e r v s) ∨ (trig = true ∧ trigger e (chanWrite e r v s) = .ok t)) := by
  unfold slotWrite at h
  split at h
  · cases h
  · next hb =>
    split at h
    · cases h
    · next hl =>
      refine ⟨by simpa using hb, fun hm => ?_, ?_⟩
      · cases hlive : s.live
        · rfl
        · exact absurd ⟨hm, hlive⟩ hl
      · split at h
        · next ht => exact .inr ⟨ht, h⟩
        · next ht => cases h; exact .inl ⟨by simpa using ht, rfl⟩

/-- One of START's two triggers happens or not (rule R181). -/
theorem startTrigger_cases (h : startTrigger v e s = .ok t) :
    (maskBit v e = false ∧ t = s) ∨ (maskBit v e = true ∧ trigger e s = .ok t) := by
  unfold startTrigger at h
  split at h
  · next hm => exact .inr ⟨hm, h⟩
  · next hm => cases h; exact .inl ⟨by simpa using hm, rfl⟩

/-- Everything a START write can do (rule R181): the triggers it names, engine 0 first. -/
theorem startWrite_cases (h : startWrite v m s = .ok t) :
    ∃ u, startTrigger v .e0 s = .ok u ∧ startTrigger v .e1 u = .ok t := by
  unfold startWrite at h
  split at h
  · cases h
  · split at h
    · cases h
    · next u hu => exact ⟨u, hu, h⟩

/-- Everything a register write can do (rule R141). -/
theorem regWrite_cases {off : BitVec 8} (h : regWrite off v m s = .ok t) :
    t = intrWrite v s ∨ startWrite v m s = .ok t ∨ t = s ∨
    ∃ e r trig, slotWrite e r trig v m s = .ok t := by
  unfold regWrite at h
  split at h
  · split at h
    · cases h; exact .inl rfl
    · split at h
      · exact .inr (.inl h)
      · split at h
        · cases h; exact .inr (.inr (.inl rfl))
        · cases h
  · exact .inr (.inr (.inr ⟨_, _, _, h⟩))

/-- What every register write keeps that its three parts keep: the register stores to an idle engine, the INTR clear and
the triggers. -/
theorem regWrite_keeps (P : State → Prop) {off : BitVec 8} (h : regWrite off v m s = .ok t) (hs : P s)
    (hchan : ∀ e r, (s.ch e).busy = false → P (chanWrite e r v s))
    (hintr : P (intrWrite v s))
    (htrig : ∀ e a b, trigger e a = .ok b → P a → P b) : P t := by
  obtain rfl | h | rfl | ⟨e, r, trig, h⟩ := regWrite_cases h
  · exact hintr
  · obtain ⟨u, h0, h1⟩ := startWrite_cases h
    have hu : P u := by
      obtain ⟨-, rfl⟩ | ⟨-, h0⟩ := startTrigger_cases h0
      · exact hs
      · exact htrig _ _ _ h0 hs
    obtain ⟨-, rfl⟩ | ⟨-, h1⟩ := startTrigger_cases h1
    · exact hu
    · exact htrig _ _ _ h1 hu
  · exact hs
  · obtain ⟨hb, -, ⟨-, rfl⟩ | ⟨-, h⟩⟩ := slotWrite_cases h
    · exact hchan e r hb
    · exact htrig _ _ _ h (hchan e r hb)

/-! ### Memory, the FIFO and the bus -/

/-- Everything an engine's tracked read can do (20_memory.md rule R78). -/
theorem raceRead_cases {a : Nat} (h : raceRead a s = .ok t) :
    meetsSpan a 4 s.wset = false ∧ t = { s with rset := addSpan a 4 s.rset } := by
  unfold raceRead at h
  split at h
  · cases h
  · next hm => cases h; exact ⟨by simpa using hm, rfl⟩

/-- Everything a host's tracked write can do (20_memory.md rule R78). -/
theorem raceWrite_cases {a n : Nat} (h : raceWrite a n s = .ok t) :
    (s.live = false ∧ t = s) ∨
    (s.live = true ∧ meetsSpan a n s.rset = false ∧ t = { s with wset := addSpan a n s.wset }) := by
  unfold raceWrite at h
  split at h
  · next hl =>
    split at h
    · cases h
    · next hm => cases h; exact .inr ⟨hl, by simpa using hm, rfl⟩
  · next hl => cases h; exact .inl ⟨by simpa using hl, rfl⟩

/-- Everything a push can do (20_memory.md rule R71). -/
theorem fifoPush_cases (h : fifoPush v s = .ok t) :
    s.dreq = true ∧ t = { s with fifo := s.fifo ++ [v], out := s.out ++ [v] } := by
  unfold fifoPush at h
  split at h
  · next hd => cases h; exact ⟨hd, rfl⟩
  · cases h

/-- Everything a bus read can do (20_memory.md rule R65). -/
theorem busRead_cases {a : Addr} (h : busRead a s = .ok (v, t)) :
    (region s.cfg a = .ram ∧ meetsSpan a.toNat 4 s.wset = false ∧ v = readWord s.ram a.toNat ∧
      t = { s with rset := addSpan a.toNat 4 s.rset }) ∨
    (∃ off, region s.cfg a = .window off ∧ regRead off s = .ok v ∧ t = s) := by
  unfold busRead at h
  split at h
  · next hr =>
    split at h
    · next u hu =>
      obtain ⟨hm, rfl⟩ := raceRead_cases hu
      cases h
      exact .inl ⟨hr, hm, rfl, rfl⟩
    · cases h
  · next off hr =>
    split at h
    · next w hw => cases h; exact .inr ⟨off, hr, hw, rfl⟩
    · cases h
  · cases h
  · cases h

/-- Everything a bus write can do (20_memory.md rule R66). -/
theorem busWrite_cases {a : Addr} (h : busWrite e a v s = .ok t) :
    (region s.cfg a = .ram ∧ t = { s with ram := writeMem s.ram a.toNat .word v }) ∨
    (∃ off, region s.cfg a = .window off ∧ regWrite off v (.engine e) s = .ok t) ∨
    (region s.cfg a = .fifo ∧ s.dreq = true ∧ t = { s with fifo := s.fifo ++ [v], out := s.out ++ [v] }) := by
  unfold busWrite at h
  split at h
  · next hr => cases h; exact .inl ⟨hr, rfl⟩
  · next off hr => exact .inr (.inl ⟨off, hr, h⟩)
  · next hr =>
    obtain ⟨hd, rfl⟩ := fifoPush_cases h
    exact .inr (.inr ⟨hr, hd, rfl⟩)
  · cases h

/-! ### The word-transfer step -/

/-- Everything the read part of a word step can do (42_engine_transfer.md rule R240). -/
theorem fetchWord_cases (h : fetchWord e s = .ok (v, t)) :
    wordAligned (s.ch e).readAddr = true ∧ wordAligned (s.ch e).writeAddr = true ∧
    busRead (s.ch e).readAddr s = .ok (v, t) := by
  unfold fetchWord at h
  split at h
  · cases h
  · next ha =>
    simp only [Bool.or_eq_true, Bool.not_eq_true', not_or, Bool.not_eq_false] at ha
    exact ⟨ha.1, ha.2, h⟩

/-- Everything a completion's chain can do (41_trigger_and_completion.md rule R210). -/
theorem chain_cases (h : chain e s = .ok t) :
    (ctrlChainEn (s.ch e).ctrl = false ∧ t = s) ∨
    (ctrlChainEn (s.ch e).ctrl = true ∧ trigger (ctrlChainTo (s.ch e).ctrl) s = .ok t) := by
  unfold chain at h
  split at h
  · next hc => exact .inr ⟨hc, h⟩
  · next hc => cases h; exact .inl ⟨by simpa using hc, rfl⟩

/-- Everything the counter can do (42_engine_transfer.md rules R245 and R246). -/
theorem countWord_cases (h : countWord e s = .ok t) :
    ((s.ch e).remaining - 1 ≠ 0 ∧ t = s.setCh e { s.ch e with remaining := (s.ch e).remaining - 1 }) ∨
    ((s.ch e).remaining - 1 = 0 ∧
      chain e ((s.setCh e { s.ch e with remaining := (s.ch e).remaining - 1, busy := false }).record (.complete e))
        = .ok t) := by
  unfold countWord at h
  split at h
  · next hr => exact .inr ⟨hr, h⟩
  · next hr => cases h; exact .inl ⟨hr, rfl⟩

/-- Everything the rest of a word step can do (42_engine_transfer.md rule R240): its parts in order. -/
theorem moveWord_cases (h : moveWord e v s = .ok u) :
    ∃ a b, busWrite e (s.ch e).writeAddr v (s.record (.word e (s.ch e).readAddr (s.ch e).writeAddr v)) = .ok a ∧
      countWord e (a.setCh e (advance (s.ch e).readAddr (s.ch e).writeAddr (a.ch e))) = .ok b ∧ u = endOfStep b := by
  unfold moveWord at h
  split at h
  · cases h
  · next a ha =>
    split at h
    · cases h
    · next b hb => cases h; exact ⟨a, b, ha, hb, rfl⟩

/-- Everything a word step can do (42_engine_transfer.md rule R240): read, then move. -/
theorem engineStep_cases (h : engineStep e s = .ok u) :
    ∃ v t, fetchWord e s = .ok (v, t) ∧ moveWord e v t = .ok u := by
  unfold engineStep at h
  split at h
  · cases h
  · next v t hf => exact ⟨v, t, hf, h⟩

/-- Everything a word step with a known word can do: it reads, and moves the known word. -/
theorem engineStepWith_cases (h : engineStepWith e v s = .ok u) :
    ∃ w t, fetchWord e s = .ok (w, t) ∧ moveWord e v t = .ok u := by
  unfold engineStepWith at h
  split at h
  · cases h
  · next w t hf => exact ⟨w, t, hf, h⟩

/-- A word step with the word that its read gives is the word step. -/
theorem engineStepWith_eq (h : fetchWord e s = .ok (v, t)) : engineStepWith e v s = engineStep e s := by
  simp [engineStepWith, engineStep, h]

/-- Everything an engine's turn can do (42_engine_transfer.md rules R241 and R252). -/
theorem engineTurn_cases (e : Engine) (s : State) :
    (engineEnabled e s = false ∧ engineTurn e s = s) ∨
    (engineEnabled e s = true ∧
      ((∃ t, engineStep e s = .ok t ∧ engineTurn e s = t) ∨
       (∃ c, engineStep e s = .error c ∧ engineTurn e s = raiseFault c s))) := by
  unfold engineTurn
  cases he : engineEnabled e s
  · exact .inl ⟨rfl, by simp⟩
  · refine .inr ⟨rfl, ?_⟩
    cases h : engineStep e s with
    | ok t => exact .inl ⟨t, rfl, by simp⟩
    | error c => exact .inr ⟨c, rfl, by simp⟩

/-- The same of a turn with a known word. -/
theorem engineTurnWith_cases (e : Engine) (v : Word) (s : State) :
    (engineEnabled e s = false ∧ engineTurnWith e v s = s) ∨
    (engineEnabled e s = true ∧
      ((∃ t, engineStepWith e v s = .ok t ∧ engineTurnWith e v s = t) ∨
       (∃ c, engineStepWith e v s = .error c ∧ engineTurnWith e v s = raiseFault c s))) := by
  unfold engineTurnWith
  cases he : engineEnabled e s
  · exact .inl ⟨rfl, by simp⟩
  · refine .inr ⟨rfl, ?_⟩
    cases h : engineStepWith e v s with
    | ok t => exact .inl ⟨t, rfl, by simp⟩
    | error c => exact .inr ⟨c, rfl, by simp⟩

/-- When a word step is enabled (42_engine_transfer.md rule R241). -/
theorem engineEnabled_iff :
    engineEnabled e s = true ↔
      s.fault = none ∧ (s.ch e).busy = true ∧ (ctrlPaced (s.ch e).ctrl = false ∨ s.dreq = true) := by
  simp [engineEnabled, and_assoc]

/-! ### The host's RAM accesses -/

/-- Everything a host RAM write can do (40_host_register_access.md rule R185). -/
theorem hostWrite_cases {a : Addr} {w : Width} (h : hostWrite a w v s = .ok t) :
    ∃ u, raceWrite a.toNat (widthBytes w) s = .ok u ∧ t = { u with ram := writeMem u.ram a.toNat w v } := by
  unfold hostWrite at h
  split at h
  · next u hu => cases h; exact ⟨u, hu, rfl⟩
  · cases h

/-! ### Turns and steps -/

/-- Everything a step's end can do to a result. -/
theorem finish_next {r : Result} (h : finish r = .next t) : ∃ u, r = .next u ∧ t = endOfStep u := by
  cases r with
  | next u => simp [finish] at h; exact ⟨u, rfl, h.symm⟩
  | fault c => simp [finish] at h
  | refused x => simp [finish] at h

/-- A step is the turn that comes next, on the state with the turn taken off, and the end of the step. -/
theorem step_next (h : step s = .next t) :
    ∃ u, takeTurn (nextTurn s).1 (nextTurn s).2 = .next u ∧ t = endOfStep u := finish_next h

/-- Taking the next turn off changes the schedule or the tick and nothing else. -/
theorem nextTurn_cases (s : State) :
    (∃ t rest, s.sched = t :: rest ∧ nextTurn s = (t, { s with sched := rest })) ∨
    (s.sched = [] ∧ nextTurn s = (freeTurn s.tick, { s with tick := s.tick + 1 })) := by
  unfold nextTurn
  cases h : s.sched with
  | nil => exact .inr ⟨rfl, rfl⟩
  | cons t rest => exact .inl ⟨t, rest, rfl, rfl⟩

/-- Everything a turn can do where it answers a next state. -/
theorem takeTurn_cases {x : Turn} (h : takeTurn x s = .next t) :
    (x = .blockReset ∧ t = blockReset s) ∨
    (s.fault = none ∧
      ((x = .host ∧ hostTurn s = .next t) ∨
       (∃ e, x = .engine e ∧ t = engineTurn e s) ∨
       (x = .descriptor ∧ descriptorTurn s = .next t) ∨
       (x = .output ∧ t = outputStep s))) := by
  cases hf : s.fault with
  | some c => cases x <;> simp [takeTurn, hf] at h; exact .inl ⟨rfl, h.symm⟩
  | none =>
    cases x with
    | host => simp [takeTurn, hf] at h; exact .inr ⟨rfl, .inl ⟨rfl, h⟩⟩
    | engine e => simp [takeTurn, hf] at h; exact .inr ⟨rfl, .inr (.inl ⟨e, rfl, h.symm⟩)⟩
    | descriptor => simp [takeTurn, hf] at h; exact .inr ⟨rfl, .inr (.inr (.inl ⟨rfl, h⟩))⟩
    | output => simp [takeTurn, hf] at h; exact .inr ⟨rfl, .inr (.inr (.inr ⟨rfl, h.symm⟩))⟩
    | blockReset => simp [takeTurn] at h; exact .inl ⟨rfl, h.symm⟩

/-- Everything a host access can do where it answers a next state (20_memory.md rule R68). -/
theorem hostAccess_cases {a : Addr} {w : Width} {d : Access} (h : hostAccess a w d s = .next t) :
    (∃ off i, region s.cfg (wordOf a) = .window off ∧ w = .word ∧ wordAligned a = true ∧
      decode (.window .host) (commandRecord off d) = .ok i ∧ exec i s = .next t) ∨
    (∃ off, region s.cfg (wordOf a) = .window off ∧ s.fault = none ∧ t = raiseFault .hostWidth s) ∨
    (region s.cfg (wordOf a) = .ram ∧ naturallyAligned a w = true ∧ s.fault = none ∧
      ((d = .read ∧ t = hostRead a w s) ∨
       (∃ v, d = .write v ∧ (hostWrite a w v s = .ok t ∨ ∃ c, hostWrite a w v s = .error c ∧ t = raiseFault c s)))) := by
  unfold hostAccess at h
  split at h
  · next off hr =>
    split at h
    · next hw =>
      unfold runRecord at h
      split at h
      · next i hi => exact .inl ⟨off, i, hr, hw.1, hw.2, hi, h⟩
      · cases h
    · obtain ⟨hf, h | ⟨c, hc, rfl⟩⟩ := conclude_cases h
      · cases h
      · cases hc; exact .inr (.inl ⟨off, hr, hf, rfl⟩)
  · next hr =>
    split at h
    · next hn =>
      split at h
      · obtain ⟨hf, h | ⟨c, hc, -⟩⟩ := conclude_cases h
        · cases h; exact .inr (.inr ⟨hr, hn, hf, .inl ⟨rfl, rfl⟩⟩)
        · cases hc
      · next v =>
        obtain ⟨hf, h | ⟨c, hc, rfl⟩⟩ := conclude_cases h
        · exact .inr (.inr ⟨hr, hn, hf, .inr ⟨v, rfl, .inl h⟩⟩)
        · exact .inr (.inr ⟨hr, hn, hf, .inr ⟨v, rfl, .inr ⟨c, hc, rfl⟩⟩⟩)
    · cases h
  · cases h
  · cases h

/-- Everything the host's turn can do where it answers a next state: nothing, when its program is over, or the next command
on the state without it; a `POLL` may put itself back. -/
theorem hostTurn_cases (h : hostTurn s = .next t) :
    (s.host = [] ∧ t = s) ∨
    ∃ op rest a w d u, s.host = op :: rest ∧ hostAccess a w d { s with host := rest } = .next u ∧
      ((op = .read a w ∧ d = .read ∧ t = u) ∨ (∃ v, op = .write a w v ∧ d = .write v ∧ t = u) ∨
       (∃ mask, op = .poll a mask ∧ w = .word ∧ d = .read ∧
         t = if pollAgain mask u then { u with host := .poll a mask :: u.host } else u)) := by
  unfold hostTurn at h
  cases hh : s.host with
  | nil => simp [hh] at h; exact .inl ⟨rfl, h.symm⟩
  | cons op rest =>
    rw [hh] at h
    refine .inr ?_
    cases op with
    | read a w => exact ⟨_, _, a, w, .read, t, rfl, h, .inl ⟨rfl, rfl, rfl⟩⟩
    | write a w v => exact ⟨_, _, a, w, .write v, t, rfl, h, .inr (.inl ⟨v, rfl, rfl, rfl⟩)⟩
    | poll a mask =>
      simp only [hostCommand] at h
      split at h
      · next u hu =>
        injection h with h
        exact ⟨_, _, a, .word, .read, u, rfl, hu, .inr (.inr ⟨mask, rfl, rfl, rfl, h.symm⟩)⟩
      · cases h
      · cases h

/-- Everything the CTE's descriptor turn can do where it answers a next state. -/
theorem descriptorTurn_cases (h : descriptorTurn s = .next t) :
    (atDescriptor s = false ∧ t = engineTurn .e0 s) ∨
    (atDescriptor s = true ∧ ∃ i, decode .list (descriptorBytes s.ram s.ch0.readAddr) = .ok i ∧ exec i s = .next t) := by
  unfold descriptorTurn at h
  split at h
  · next ha =>
    split at h
    · next i hi => exact .inr ⟨ha, i, hi, h⟩
    · cases h
  · next ha => injection h with h; exact .inl ⟨by simpa using ha, h.symm⟩

/-- Everything an instruction can do where it answers a next state: where nothing faults, a register write of some master,
a read into the host's data word, or a descriptor's two words; else the fault record alone. -/
theorem exec_cases {i : Instr} (h : exec i s = .next t) :
    s.fault = none ∧
    ((∃ c, t = raiseFault c s) ∨
     (∃ off v m, regWrite off v m s = .ok t) ∨
     (∃ v, t = { s with rdata := v }) ∨
     (∃ c a, t = loadDescriptor c a s)) := by
  have slot : ∀ {e : Engine} {r : ChanReg} {trig : Bool} {v : Word} {m : Master} (off : BitVec 8),
      off.getLsbD 7 = false → engineOfBit (off.getLsbD 6) = e → regAt (off.extractLsb' 2 4).toNat = r →
      isTriggerSlot (off.extractLsb' 2 4).toNat = trig →
      conclude s (slotWrite e r trig v m s) = .next t →
      s.fault = none ∧
      ((∃ c, t = raiseFault c s) ∨ (∃ off v m, regWrite off v m s = .ok t) ∨ (∃ v, t = { s with rdata := v }) ∨
       (∃ c a, t = loadDescriptor c a s)) := by
    intro e r trig v m off h7 he hr ht h
    obtain ⟨hf, h | ⟨c, -, h⟩⟩ := conclude_cases h
    · exact ⟨hf, .inr (.inl ⟨off, v, m, by unfold regWrite; rw [if_neg (by rw [h7]; decide), he, hr, ht, h]⟩)⟩
    · exact ⟨hf, .inl ⟨c, h⟩⟩
  have read : ∀ {v : Word}, conclude s (.ok { s with rdata := v }) = .next t →
      s.fault = none ∧
      ((∃ c, t = raiseFault c s) ∨ (∃ off v m, regWrite off v m s = .ok t) ∨ (∃ v, t = { s with rdata := v }) ∨
       (∃ c a, t = loadDescriptor c a s)) := by
    intro v h
    obtain ⟨hf, h | ⟨c, h, -⟩⟩ := conclude_cases h
    · cases h; exact ⟨hf, .inr (.inr (.inl ⟨v, rfl⟩))⟩
    · cases h
  have other : ∀ {v : Word} {m : Master} (off : BitVec 8), conclude s (regWrite off v m s) = .next t →
      s.fault = none ∧
      ((∃ c, t = raiseFault c s) ∨ (∃ off v m, regWrite off v m s = .ok t) ∨ (∃ v, t = { s with rdata := v }) ∨
       (∃ c a, t = loadDescriptor c a s)) := by
    intro v m off h
    obtain ⟨hf, h | ⟨c, -, h⟩⟩ := conclude_cases h
    · exact ⟨hf, .inr (.inl ⟨off, v, m, h⟩)⟩
    · exact ⟨hf, .inl ⟨c, h⟩⟩
  have load : ∀ {c a : Word}, conclude s (.ok (loadDescriptor c a s)) = .next t →
      s.fault = none ∧
      ((∃ c, t = raiseFault c s) ∨ (∃ off v m, regWrite off v m s = .ok t) ∨ (∃ v, t = { s with rdata := v }) ∨
       (∃ c a, t = loadDescriptor c a s)) := by
    intro c a h
    obtain ⟨hf, h | ⟨k, h, -⟩⟩ := conclude_cases h
    · cases h; exact ⟨hf, .inr (.inr (.inr ⟨c, a, rfl⟩))⟩
    · cases h
  cases i with
  | wrReadAddr e v m => cases e <;> first | exact slot 0x00 rfl rfl rfl rfl h | exact slot 0x40 rfl rfl rfl rfl h
  | wrWriteAddr e v m => cases e <;> first | exact slot 0x04 rfl rfl rfl rfl h | exact slot 0x44 rfl rfl rfl rfl h
  | wrTransCount e v m => cases e <;> first | exact slot 0x08 rfl rfl rfl rfl h | exact slot 0x48 rfl rfl rfl rfl h
  | wrCtrlTrig e v m => cases e <;> first | exact slot 0x0C rfl rfl rfl rfl h | exact slot 0x4C rfl rfl rfl rfl h
  | wrAl1Ctrl e v m => cases e <;> first | exact slot 0x10 rfl rfl rfl rfl h | exact slot 0x50 rfl rfl rfl rfl h
  | wrAl1ReadAddr e v m => cases e <;> first | exact slot 0x14 rfl rfl rfl rfl h | exact slot 0x54 rfl rfl rfl rfl h
  | wrAl1WriteAddr e v m => cases e <;> first | exact slot 0x18 rfl rfl rfl rfl h | exact slot 0x58 rfl rfl rfl rfl h
  | wrAl1TransCountTrig e v m => cases e <;> first | exact slot 0x1C rfl rfl rfl rfl h | exact slot 0x5C rfl rfl rfl rfl h
  | wrAl2Ctrl e v m => cases e <;> first | exact slot 0x20 rfl rfl rfl rfl h | exact slot 0x60 rfl rfl rfl rfl h
  | wrAl2TransCount e v m => cases e <;> first | exact slot 0x24 rfl rfl rfl rfl h | exact slot 0x64 rfl rfl rfl rfl h
  | wrAl2ReadAddr e v m => cases e <;> first | exact slot 0x28 rfl rfl rfl rfl h | exact slot 0x68 rfl rfl rfl rfl h
  | wrAl2WriteAddrTrig e v m => cases e <;> first | exact slot 0x2C rfl rfl rfl rfl h | exact slot 0x6C rfl rfl rfl rfl h
  | wrAl3Ctrl e v m => cases e <;> first | exact slot 0x30 rfl rfl rfl rfl h | exact slot 0x70 rfl rfl rfl rfl h
  | wrAl3WriteAddr e v m => cases e <;> first | exact slot 0x34 rfl rfl rfl rfl h | exact slot 0x74 rfl rfl rfl rfl h
  | wrAl3TransCount e v m => cases e <;> first | exact slot 0x38 rfl rfl rfl rfl h | exact slot 0x78 rfl rfl rfl rfl h
  | wrAl3ReadAddrTrig e v m => cases e <;> first | exact slot 0x3C rfl rfl rfl rfl h | exact slot 0x7C rfl rfl rfl rfl h
  | rdReadAddr e => exact read h
  | rdWriteAddr e => exact read h
  | rdTransCount e => exact read h
  | rdCtrlTrig e => exact read h
  | rdAl1Ctrl e => exact read h
  | rdAl1ReadAddr e => exact read h
  | rdAl1WriteAddr e => exact read h
  | rdAl1TransCountTrig e => exact read h
  | rdAl2Ctrl e => exact read h
  | rdAl2TransCount e => exact read h
  | rdAl2ReadAddr e => exact read h
  | rdAl2WriteAddrTrig e => exact read h
  | rdAl3Ctrl e => exact read h
  | rdAl3WriteAddr e => exact read h
  | rdAl3TransCount e => exact read h
  | rdAl3ReadAddrTrig e => exact read h
  | rdIntr => exact read h
  | rdStart => exact read h
  | rdBusy => exact read h
  | wrIntr v m => exact other (v := v) (m := m) 0x80 h
  | wrStart v m => exact other (v := v) (m := m) 0x84 h
  | wrBusy v => exact other (v := v) (m := .host) 0x88 h
  | reserved8C d => exact other (v := 0) (m := .host) 0x8C h
  | reserved90 g d => exact other (v := 0) (m := .host) 0x90 h
  | reservedA0 g d => exact other (v := 0) (m := .host) 0xA0 h
  | reservedC0 g d => exact other (v := 0) (m := .host) 0xC0 h
  | descData c a => exact load h
  | descSentinel a => exact load h

/-- Every meaning ends by `conclude`. -/
theorem exec_eq_conclude (i : Instr) (s : State) : ∃ r, exec i s = conclude s r := by
  cases i <;> (
      simp only [exec, execWrReadAddr, execWrWriteAddr, execWrTransCount, execWrCtrlTrig, execWrAl1Ctrl,
        execWrAl1ReadAddr, execWrAl1WriteAddr, execWrAl1TransCountTrig, execWrAl2Ctrl, execWrAl2TransCount,
        execWrAl2ReadAddr, execWrAl2WriteAddrTrig, execWrAl3Ctrl, execWrAl3WriteAddr, execWrAl3TransCount,
        execWrAl3ReadAddrTrig, execRdReadAddr, execRdWriteAddr, execRdTransCount, execRdCtrlTrig, execRdAl1Ctrl,
        execRdAl1ReadAddr, execRdAl1WriteAddr, execRdAl1TransCountTrig, execRdAl2Ctrl, execRdAl2TransCount,
        execRdAl2ReadAddr, execRdAl2WriteAddrTrig, execRdAl3Ctrl, execRdAl3WriteAddr, execRdAl3TransCount,
        execRdAl3ReadAddrTrig, execRdIntr, execWrIntr, execRdStart, execWrStart, execRdBusy, execWrBusy,
        execReserved8C, execReserved90, execReservedA0, execReservedC0, execDescData, execDescSentinel]
      exact ⟨_, rfl⟩)

/-- No instruction is refused. -/
theorem exec_not_refused {i : Instr} {x : Refusal} : exec i s ≠ .refused x := by
  obtain ⟨r, h⟩ := exec_eq_conclude i s
  rw [h]; exact conclude_not_refused

/-- An instruction stops exactly where `FAULT` is set, with the recorded code (60_exceptions.md rule R321). -/
theorem exec_stuck {i : Instr} {c : FaultCode} (h : s.fault = some c) : exec i s = .fault (.stuck c) := by
  obtain ⟨r, hr⟩ := exec_eq_conclude i s
  rw [hr, conclude_stuck h]

end Sys2Proof.Machine
end

