-- ==== Sys2Proof/Laws/Engine.lean ====
section
/-! SUPPORT. What an engine's word leaves alone, the fields of the CTRL words that arming writes, the CTE's write ring inside the
register window, and runs of the machine. -/

namespace Sys2Proof.Machine

variable {s t u : State} {e : Engine} {m : Master} {v : Word}

/-! ### Frames -/

/-- What only the host, the schedule and a fault change. -/
structure OutsideKept (s t : State) : Prop where
  fault : t.fault = s.fault
  rdata : t.rdata = s.rdata
  host : t.host = s.host
  sched : t.sched = s.sched
  tick : t.tick = s.tick

theorem OutsideKept.refl (s : State) : OutsideKept s s := ⟨rfl, rfl, rfl, rfl, rfl⟩

theorem OutsideKept.trans (h : OutsideKept s t) (h' : OutsideKept t u) : OutsideKept s u :=
  ⟨h'.1.trans h.1, h'.2.trans h.2, h'.3.trans h.3, h'.4.trans h.4, h'.5.trans h.5⟩

theorem trigger_outside (h : trigger e s = .ok t) : OutsideKept s t := by
  obtain ⟨-, -, -, -, -, -, -, -, -, -, -, -, f, r, h, d, k⟩ := trigger_frame h
  exact ⟨f, r, h, d, k⟩

theorem regWrite_outside {off : BitVec 8} (h : regWrite off v m s = .ok t) : OutsideKept s t :=
  regWrite_keeps (fun t => OutsideKept s t) h (OutsideKept.refl s) (fun e r _ => ⟨by simp, by simp, by simp, by simp, by simp⟩)
    ⟨by simp, by simp, by simp, by simp, by simp⟩ (fun e a b h ha => ha.trans (trigger_outside h))

/-- A word-transfer step that does not fault leaves the fault record, the host's program, the schedule and the host's last read. -/
theorem engineStep_outside (h : engineStep e s = .ok t) : OutsideKept s t := by
  obtain ⟨v, u, hf, hm⟩ := engineStep_cases h
  obtain ⟨-, -, hf⟩ := fetchWord_cases hf
  have hu : OutsideKept s u := by
    obtain ⟨-, -, -, rfl⟩ | ⟨off, -, -, rfl⟩ := busRead_cases hf <;> exact ⟨rfl, rfl, rfl, rfl, rfl⟩
  obtain ⟨a, b, h1, h2, rfl⟩ := moveWord_cases hm
  have ha : OutsideKept u a := by
    obtain ⟨-, rfl⟩ | ⟨off, -, h⟩ | ⟨-, -, rfl⟩ := busWrite_cases h1
    · exact ⟨rfl, rfl, rfl, rfl, rfl⟩
    · obtain ⟨f, a, b, c, d⟩ := regWrite_outside h
      exact ⟨by simpa using f, by simpa using a, by simpa using b, by simpa using c, by simpa using d⟩
    · exact ⟨rfl, rfl, rfl, rfl, rfl⟩
  have hb : OutsideKept a b := by
    obtain ⟨-, rfl⟩ | ⟨-, h⟩ := countWord_cases h2
    · exact ⟨by simp, by simp, by simp, by simp, by simp⟩
    · obtain ⟨-, rfl⟩ | ⟨-, h⟩ := chain_cases h
      · exact ⟨by simp, by simp, by simp, by simp, by simp⟩
      · obtain ⟨f, a, b, c, d⟩ := trigger_outside h
        exact ⟨by simpa using f, by simpa using a, by simpa using b, by simpa using c, by simpa using d⟩
  obtain ⟨f, a, b, c, d⟩ := (hu.trans ha).trans hb
  exact ⟨by simpa using f, by simpa using a, by simpa using b, by simpa using c, by simpa using d⟩

/-- An engine's turn leaves the host's program, the schedule and the host's last read. -/
theorem engineTurn_outside (e : Engine) (s : State) : (engineTurn e s).rdata = s.rdata ∧ (engineTurn e s).host = s.host ∧
    (engineTurn e s).sched = s.sched ∧ (engineTurn e s).tick = s.tick := by
  obtain ⟨-, h⟩ | ⟨-, ⟨t, ht, h⟩ | ⟨c, -, h⟩⟩ := engineTurn_cases e s
  · rw [h]; exact ⟨rfl, rfl, rfl, rfl⟩
  · rw [h]; obtain ⟨-, a, b, c, d⟩ := engineStep_outside ht; exact ⟨a, b, c, d⟩
  · rw [h]; exact ⟨rfl, rfl, rfl, rfl⟩

/-! ### The CTRL words of arming (30_encoding.md rule R119) -/

theorem cteCtrl_fields (r : BitVec 4) : let c := ctrlStored (cteCtrl r 3)
    ctrlEn c = true ∧ ctrlDataSize c = wordSize ∧ ctrlIncrRead c = true ∧ ctrlIncrWrite c = true ∧ ctrlReadRing c = r ∧
      ctrlWriteRing c = 3 ∧ ctrlPaced c = false ∧ ctrlChainEn c = false := by
  revert r; decide

theorem dteCtrl_fields (x : Engine) : let c := ctrlStored (dteCtrl x)
    ctrlEn c = true ∧ ctrlDataSize c = wordSize ∧ ctrlIncrRead c = true ∧ ctrlIncrWrite c = false ∧ ctrlReadRing c = 0 ∧
      ctrlWriteRing c = 0 ∧ ctrlPaced c = true ∧ ctrlChainEn c = true ∧ ctrlChainTo c = x := by
  cases x <;> decide

/-! ### The register window -/

theorem windowAddr_aligned {cfg : Config} (h : cfg.blkBase.extractLsb' 0 8 = 0#8) (off : BitVec 8) (ho : off.toNat % 4 = 0) :
    wordAligned (windowAddr cfg off) = true := by
  rw [wordAligned_iff, windowAddr_toNat h]
  have h8 : cfg.blkBase.toNat % 256 = 0 := by
    have := congrArg BitVec.toNat h
    simpa [BitVec.extractLsb'_toNat] using this
  omega

/-! ### Runs -/

/-- One more step at the front of a run. -/
theorem core_run_succ {n : Nat} (h : step s = .next t) :
    Host.Core.run Sys2Proof.core (n + 1) s = Host.Core.run Sys2Proof.core n t := by
  have general : ∀ (M : Host.Core) (n : Nat) (s t : M.State), M.step s = .next t → M.run (n + 1) s = M.run n t := by
    intro M n s t h
    rw [Host.Core.run, h]
  exact general Sys2Proof.core n s t h

/-- A step whose turn is the first of the schedule. -/
theorem step_of_sched {x : Turn} {turns : List Turn} (h : s.sched = x :: turns) :
    step s = finish (takeTurn x { s with sched := turns }) := by
  simp only [step, nextTurn, h]

end Sys2Proof.Machine
end

