-- ==== Sys2Proof/Laws/PerInstr.lean ====
section
/-! SUPPORT. Statements about every instruction as syntax, one lemma per constructor. -/

namespace Sys2Proof.Laws

/-- The length of an encoding: a read is its command word, a write has its data word after it, a descriptor has two words
(30_encoding.md rule R117: one access or two words, no other form). -/
def EncodedLength.Statement (i : Instr) : Prop :=
  (encode i).length = match portOf i with
    | .list => 8
    | .window _ => if ((encode i)[1]?).getD 0 = 1 then 6 else 2

theorem EncodedLength.wrReadAddr (e : Engine) (v : Word) (m : Master) :
    EncodedLength.Statement (.wrReadAddr e v m) := rfl
theorem EncodedLength.wrWriteAddr (e : Engine) (v : Word) (m : Master) :
    EncodedLength.Statement (.wrWriteAddr e v m) := rfl
theorem EncodedLength.wrTransCount (e : Engine) (v : Word) (m : Master) :
    EncodedLength.Statement (.wrTransCount e v m) := rfl
theorem EncodedLength.wrCtrlTrig (e : Engine) (v : Word) (m : Master) :
    EncodedLength.Statement (.wrCtrlTrig e v m) := rfl
theorem EncodedLength.wrAl1Ctrl (e : Engine) (v : Word) (m : Master) :
    EncodedLength.Statement (.wrAl1Ctrl e v m) := rfl
theorem EncodedLength.wrAl1ReadAddr (e : Engine) (v : Word) (m : Master) :
    EncodedLength.Statement (.wrAl1ReadAddr e v m) := rfl
theorem EncodedLength.wrAl1WriteAddr (e : Engine) (v : Word) (m : Master) :
    EncodedLength.Statement (.wrAl1WriteAddr e v m) := rfl
theorem EncodedLength.wrAl1TransCountTrig (e : Engine) (v : Word) (m : Master) :
    EncodedLength.Statement (.wrAl1TransCountTrig e v m) := rfl
theorem EncodedLength.wrAl2Ctrl (e : Engine) (v : Word) (m : Master) :
    EncodedLength.Statement (.wrAl2Ctrl e v m) := rfl
theorem EncodedLength.wrAl2TransCount (e : Engine) (v : Word) (m : Master) :
    EncodedLength.Statement (.wrAl2TransCount e v m) := rfl
theorem EncodedLength.wrAl2ReadAddr (e : Engine) (v : Word) (m : Master) :
    EncodedLength.Statement (.wrAl2ReadAddr e v m) := rfl
theorem EncodedLength.wrAl2WriteAddrTrig (e : Engine) (v : Word) (m : Master) :
    EncodedLength.Statement (.wrAl2WriteAddrTrig e v m) := rfl
theorem EncodedLength.wrAl3Ctrl (e : Engine) (v : Word) (m : Master) :
    EncodedLength.Statement (.wrAl3Ctrl e v m) := rfl
theorem EncodedLength.wrAl3WriteAddr (e : Engine) (v : Word) (m : Master) :
    EncodedLength.Statement (.wrAl3WriteAddr e v m) := rfl
theorem EncodedLength.wrAl3TransCount (e : Engine) (v : Word) (m : Master) :
    EncodedLength.Statement (.wrAl3TransCount e v m) := rfl
theorem EncodedLength.wrAl3ReadAddrTrig (e : Engine) (v : Word) (m : Master) :
    EncodedLength.Statement (.wrAl3ReadAddrTrig e v m) := rfl
theorem EncodedLength.rdReadAddr (e : Engine) : EncodedLength.Statement (.rdReadAddr e) := rfl
theorem EncodedLength.rdWriteAddr (e : Engine) : EncodedLength.Statement (.rdWriteAddr e) := rfl
theorem EncodedLength.rdTransCount (e : Engine) : EncodedLength.Statement (.rdTransCount e) := rfl
theorem EncodedLength.rdCtrlTrig (e : Engine) : EncodedLength.Statement (.rdCtrlTrig e) := rfl
theorem EncodedLength.rdAl1Ctrl (e : Engine) : EncodedLength.Statement (.rdAl1Ctrl e) := rfl
theorem EncodedLength.rdAl1ReadAddr (e : Engine) : EncodedLength.Statement (.rdAl1ReadAddr e) := rfl
theorem EncodedLength.rdAl1WriteAddr (e : Engine) : EncodedLength.Statement (.rdAl1WriteAddr e) := rfl
theorem EncodedLength.rdAl1TransCountTrig (e : Engine) : EncodedLength.Statement (.rdAl1TransCountTrig e) := rfl
theorem EncodedLength.rdAl2Ctrl (e : Engine) : EncodedLength.Statement (.rdAl2Ctrl e) := rfl
theorem EncodedLength.rdAl2TransCount (e : Engine) : EncodedLength.Statement (.rdAl2TransCount e) := rfl
theorem EncodedLength.rdAl2ReadAddr (e : Engine) : EncodedLength.Statement (.rdAl2ReadAddr e) := rfl
theorem EncodedLength.rdAl2WriteAddrTrig (e : Engine) : EncodedLength.Statement (.rdAl2WriteAddrTrig e) := rfl
theorem EncodedLength.rdAl3Ctrl (e : Engine) : EncodedLength.Statement (.rdAl3Ctrl e) := rfl
theorem EncodedLength.rdAl3WriteAddr (e : Engine) : EncodedLength.Statement (.rdAl3WriteAddr e) := rfl
theorem EncodedLength.rdAl3TransCount (e : Engine) : EncodedLength.Statement (.rdAl3TransCount e) := rfl
theorem EncodedLength.rdAl3ReadAddrTrig (e : Engine) : EncodedLength.Statement (.rdAl3ReadAddrTrig e) := rfl
theorem EncodedLength.rdIntr : EncodedLength.Statement (.rdIntr) := rfl
theorem EncodedLength.wrIntr (v : Word) (m : Master) : EncodedLength.Statement (.wrIntr v m) := rfl
theorem EncodedLength.rdStart : EncodedLength.Statement (.rdStart) := rfl
theorem EncodedLength.wrStart (v : Word) (m : Master) : EncodedLength.Statement (.wrStart v m) := rfl
theorem EncodedLength.rdBusy : EncodedLength.Statement (.rdBusy) := rfl
theorem EncodedLength.wrBusy (v : Word) : EncodedLength.Statement (.wrBusy v) := rfl
theorem EncodedLength.reserved8C (d : Access) : EncodedLength.Statement (.reserved8C d) := by cases d <;> rfl
theorem EncodedLength.reserved90 (g : BitVec 2) (d : Access) :
    EncodedLength.Statement (.reserved90 g d) := by cases d <;> rfl
theorem EncodedLength.reservedA0 (g : BitVec 3) (d : Access) :
    EncodedLength.Statement (.reservedA0 g d) := by cases d <;> rfl
theorem EncodedLength.reservedC0 (g : BitVec 4) (d : Access) :
    EncodedLength.Statement (.reservedC0 g d) := by cases d <;> rfl
theorem EncodedLength.descData (transferCount : Word) (sourceAddress : Word) :
    EncodedLength.Statement (.descData transferCount sourceAddress) := rfl
theorem EncodedLength.descSentinel (sourceAddress : Word) :
    EncodedLength.Statement (.descSentinel sourceAddress) := rfl

end Sys2Proof.Laws
end

