-- ==== Sys2Proof/Tests/Slice0.lean ====
section
/-! SUPPORT. Tests: the WellFormed smoke test, every constructor decoded from a word written out from the tables of 30_encoding.md,
small one-step tests whose results are those of 95_test_vectors.md, and, for every statement with hypotheses, a concrete case that
meets them. -/

namespace Sys2Proof.Tests

open Sys2Proof.Machine Sys2Proof.Claims

/-! ### WellFormed -/

/-- Rule R113: a descriptor with count 0 is the sentinel, so the term of a data descriptor with count 0 is ill formed. -/
theorem test_wf_refuses_zero_count : (Instr.descData 0 0x20000100).wf = false := by decide

theorem test_wf_accepts : (Instr.descData 1 0).wf = true ∧ (Instr.descSentinel 0).wf = true := by decide

/-! ### Decoding, one word per constructor, written out as `W off` from rules R100, R101, R104 and R111 -/

theorem test_decode_wrReadAddr : decodeTableWord 16 0b100000000 = some (.wrReadAddr .e0 0 .host) ∧
    decodeTableWord 16 0b101000000 = some (.wrReadAddr .e1 0 .host) := by decide

theorem test_decode_wrWriteAddr : decodeTableWord 16 0b100000100 = some (.wrWriteAddr .e0 0 .host) ∧
    decodeTableWord 16 0b101000100 = some (.wrWriteAddr .e1 0 .host) := by decide

theorem test_decode_wrTransCount : decodeTableWord 16 0b100001000 = some (.wrTransCount .e0 0 .host) ∧
    decodeTableWord 16 0b101001000 = some (.wrTransCount .e1 0 .host) := by decide

theorem test_decode_wrCtrlTrig : decodeTableWord 16 0b100001100 = some (.wrCtrlTrig .e0 0 .host) ∧
    decodeTableWord 16 0b101001100 = some (.wrCtrlTrig .e1 0 .host) := by decide

theorem test_decode_wrAl1Ctrl : decodeTableWord 16 0b100010000 = some (.wrAl1Ctrl .e0 0 .host) ∧
    decodeTableWord 16 0b101010000 = some (.wrAl1Ctrl .e1 0 .host) := by decide

theorem test_decode_wrAl1ReadAddr : decodeTableWord 16 0b100010100 = some (.wrAl1ReadAddr .e0 0 .host) ∧
    decodeTableWord 16 0b101010100 = some (.wrAl1ReadAddr .e1 0 .host) := by decide

theorem test_decode_wrAl1WriteAddr : decodeTableWord 16 0b100011000 = some (.wrAl1WriteAddr .e0 0 .host) ∧
    decodeTableWord 16 0b101011000 = some (.wrAl1WriteAddr .e1 0 .host) := by decide

theorem test_decode_wrAl1TransCountTrig : decodeTableWord 16 0b100011100 = some (.wrAl1TransCountTrig .e0 0 .host) ∧
    decodeTableWord 16 0b101011100 = some (.wrAl1TransCountTrig .e1 0 .host) := by decide

theorem test_decode_wrAl2Ctrl : decodeTableWord 16 0b100100000 = some (.wrAl2Ctrl .e0 0 .host) ∧
    decodeTableWord 16 0b101100000 = some (.wrAl2Ctrl .e1 0 .host) := by decide

theorem test_decode_wrAl2TransCount : decodeTableWord 16 0b100100100 = some (.wrAl2TransCount .e0 0 .host) ∧
    decodeTableWord 16 0b101100100 = some (.wrAl2TransCount .e1 0 .host) := by decide

theorem test_decode_wrAl2ReadAddr : decodeTableWord 16 0b100101000 = some (.wrAl2ReadAddr .e0 0 .host) ∧
    decodeTableWord 16 0b101101000 = some (.wrAl2ReadAddr .e1 0 .host) := by decide

theorem test_decode_wrAl2WriteAddrTrig : decodeTableWord 16 0b100101100 = some (.wrAl2WriteAddrTrig .e0 0 .host) ∧
    decodeTableWord 16 0b101101100 = some (.wrAl2WriteAddrTrig .e1 0 .host) := by decide

theorem test_decode_wrAl3Ctrl : decodeTableWord 16 0b100110000 = some (.wrAl3Ctrl .e0 0 .host) ∧
    decodeTableWord 16 0b101110000 = some (.wrAl3Ctrl .e1 0 .host) := by decide

theorem test_decode_wrAl3WriteAddr : decodeTableWord 16 0b100110100 = some (.wrAl3WriteAddr .e0 0 .host) ∧
    decodeTableWord 16 0b101110100 = some (.wrAl3WriteAddr .e1 0 .host) := by decide

theorem test_decode_wrAl3TransCount : decodeTableWord 16 0b100111000 = some (.wrAl3TransCount .e0 0 .host) ∧
    decodeTableWord 16 0b101111000 = some (.wrAl3TransCount .e1 0 .host) := by decide

theorem test_decode_wrAl3ReadAddrTrig : decodeTableWord 16 0b100111100 = some (.wrAl3ReadAddrTrig .e0 0 .host) ∧
    decodeTableWord 16 0b101111100 = some (.wrAl3ReadAddrTrig .e1 0 .host) := by decide

theorem test_decode_rdReadAddr : decodeTableWord 16 0b000000000 = some (.rdReadAddr .e0) ∧
    decodeTableWord 16 0b001000000 = some (.rdReadAddr .e1) := by decide

theorem test_decode_rdWriteAddr : decodeTableWord 16 0b000000100 = some (.rdWriteAddr .e0) ∧
    decodeTableWord 16 0b001000100 = some (.rdWriteAddr .e1) := by decide

theorem test_decode_rdTransCount : decodeTableWord 16 0b000001000 = some (.rdTransCount .e0) ∧
    decodeTableWord 16 0b001001000 = some (.rdTransCount .e1) := by decide

theorem test_decode_rdCtrlTrig : decodeTableWord 16 0b000001100 = some (.rdCtrlTrig .e0) ∧
    decodeTableWord 16 0b001001100 = some (.rdCtrlTrig .e1) := by decide

theorem test_decode_rdAl1Ctrl : decodeTableWord 16 0b000010000 = some (.rdAl1Ctrl .e0) ∧
    decodeTableWord 16 0b001010000 = some (.rdAl1Ctrl .e1) := by decide

theorem test_decode_rdAl1ReadAddr : decodeTableWord 16 0b000010100 = some (.rdAl1ReadAddr .e0) ∧
    decodeTableWord 16 0b001010100 = some (.rdAl1ReadAddr .e1) := by decide

theorem test_decode_rdAl1WriteAddr : decodeTableWord 16 0b000011000 = some (.rdAl1WriteAddr .e0) ∧
    decodeTableWord 16 0b001011000 = some (.rdAl1WriteAddr .e1) := by decide

theorem test_decode_rdAl1TransCountTrig : decodeTableWord 16 0b000011100 = some (.rdAl1TransCountTrig .e0) ∧
    decodeTableWord 16 0b001011100 = some (.rdAl1TransCountTrig .e1) := by decide

theorem test_decode_rdAl2Ctrl : decodeTableWord 16 0b000100000 = some (.rdAl2Ctrl .e0) ∧
    decodeTableWord 16 0b001100000 = some (.rdAl2Ctrl .e1) := by decide

theorem test_decode_rdAl2TransCount : decodeTableWord 16 0b000100100 = some (.rdAl2TransCount .e0) ∧
    decodeTableWord 16 0b001100100 = some (.rdAl2TransCount .e1) := by decide

theorem test_decode_rdAl2ReadAddr : decodeTableWord 16 0b000101000 = some (.rdAl2ReadAddr .e0) ∧
    decodeTableWord 16 0b001101000 = some (.rdAl2ReadAddr .e1) := by decide

theorem test_decode_rdAl2WriteAddrTrig : decodeTableWord 16 0b000101100 = some (.rdAl2WriteAddrTrig .e0) ∧
    decodeTableWord 16 0b001101100 = some (.rdAl2WriteAddrTrig .e1) := by decide

theorem test_decode_rdAl3Ctrl : decodeTableWord 16 0b000110000 = some (.rdAl3Ctrl .e0) ∧
    decodeTableWord 16 0b001110000 = some (.rdAl3Ctrl .e1) := by decide

theorem test_decode_rdAl3WriteAddr : decodeTableWord 16 0b000110100 = some (.rdAl3WriteAddr .e0) ∧
    decodeTableWord 16 0b001110100 = some (.rdAl3WriteAddr .e1) := by decide

theorem test_decode_rdAl3TransCount : decodeTableWord 16 0b000111000 = some (.rdAl3TransCount .e0) ∧
    decodeTableWord 16 0b001111000 = some (.rdAl3TransCount .e1) := by decide

theorem test_decode_rdAl3ReadAddrTrig : decodeTableWord 16 0b000111100 = some (.rdAl3ReadAddrTrig .e0) ∧
    decodeTableWord 16 0b001111100 = some (.rdAl3ReadAddrTrig .e1) := by decide

theorem test_decode_rdIntr : decodeTableWord 16 0b010000000 = some .rdIntr := by decide

theorem test_decode_wrIntr : decodeTableWord 16 0b110000000 = some (.wrIntr 0 .host) := by decide

theorem test_decode_rdStart : decodeTableWord 16 0b010000100 = some .rdStart := by decide

theorem test_decode_wrStart : decodeTableWord 16 0b110000100 = some (.wrStart 0 .host) := by decide

theorem test_decode_rdBusy : decodeTableWord 16 0b010001000 = some .rdBusy := by decide

theorem test_decode_wrBusy : decodeTableWord 16 0b110001000 = some (.wrBusy 0) := by decide

/-- Rule R104: `g = 3`, then 4 to 7, 8 to 15 and 16 to 31, at both ends of each row. -/
theorem test_decode_reserved8C : decodeTableWord 16 0b010001100 = some (.reserved8C .read) ∧
    decodeTableWord 16 0b110001100 = some (.reserved8C (.write 0)) := by decide

theorem test_decode_reserved90 : decodeTableWord 16 0b010010000 = some (.reserved90 0 .read) ∧
    decodeTableWord 16 0b110011100 = some (.reserved90 3 (.write 0)) := by decide

theorem test_decode_reservedA0 : decodeTableWord 16 0b010100000 = some (.reservedA0 0 .read) ∧
    decodeTableWord 16 0b110111100 = some (.reservedA0 7 (.write 0)) := by decide

theorem test_decode_reservedC0 : decodeTableWord 16 0b011000000 = some (.reservedC0 0 .read) ∧
    decodeTableWord 16 0b111111100 = some (.reservedC0 15 (.write 0)) := by decide

/-- Rule R113 with the bytes as RAM holds them (rule R63): 95_test_vectors.md V1's two descriptors. -/
theorem test_decode_descData :
    decode .list [0x02, 0x00, 0x00, 0x00, 0x00, 0x01, 0x00, 0x20] = .ok (.descData 2 0x20000100) := by decide

theorem test_decode_descSentinel :
    decode .list [0x00, 0x00, 0x00, 0x00, 0xEF, 0xBE, 0xAD, 0xDE] = .ok (.descSentinel 0xDEADBEEF) := by decide

/-- An engine's write of the data word 0xDEADBEEF to offset 0x7C (T4). -/
theorem test_decode_data_word :
    decode (.window (.engine .e0)) [0x7C, 0x01, 0xEF, 0xBE, 0xAD, 0xDE] =
      .ok (.wrAl3ReadAddrTrig .e1 0xDEADBEEF (.engine .e0)) := by decide

/-- Rule R111: no command at an offset that is not 4-aligned; the record's own bits above `C[8]` must be 0. -/
theorem test_decode_rejects : decode (.window .host) [0x02, 0x00] = .error .misaligned ∧
    decode (.window .host) [0x00, 0x02] = .error .highBits ∧ decode (.window .host) [0x00, 0x01] = .error .length ∧
    decode .list [1, 0, 0, 0] = .error .length := by decide


/-! ### Small states -/

/-- Block reset with the parameters and the zero memory of 95_test_vectors.md section 0. -/
def idle : State := State.reset

/-- Engine 0 busy with 5 words to move, moving words (T45). -/
def busy0 : State := { idle with ch0 := { Channel.reset with reload := 5, remaining := 5, ctrl := 0x5, busy := true } }

/-- Engine 1 busy. -/
def busy1 : State := { idle with ch1 := { Channel.reset with reload := 5, remaining := 5, ctrl := 0x5, busy := true } }

/-- The list `[(2, 0x20000100), (0, 0)]` at `0x20000000` and its buffer `[0xAA, 0xAA]` (V1). -/
def ramV1 : Memory := [(0x20000000, 2), (0x20000005, 1), (0x20000007, 0x20), (0x20000100, 0xAA), (0x20000104, 0xAA)]

/-- `ARM_DTE` and `ARM_CTE` done, then engine 0 started: the state after step 13 of PROG1, without its event. -/
def started : State := { idle with
  ram := ramV1
  ch0 := ⟨0x20000000, 0x50000078, 2, 2, 0x061D, true, false⟩
  ch1 := ⟨0, 0x50200010, 0, 0, 0x600D, false, false⟩ }

/-- Engine 1 at the start of V1's buffer (T62). -/
def streaming : State := { idle with
  ram := ramV1
  ch0 := ⟨0x20000008, 0x50000078, 2, 0, 0x061D, false, false⟩
  ch1 := ⟨0x20000100, 0x50200010, 2, 2, 0x600D, true, false⟩ }

/-- Engine 0 busy with one word of `c` from `ra` to `wa`. -/
def oneWord (ra wa : Addr) (c : BitVec 16) : State := { idle with ch0 := ⟨ra, wa, 1, 1, c, true, false⟩ }

/-- RAM at both ends of the address space, and there the list `[(3, 0xFFFFFFFC), (0, 7)]` at `0xFFFFFFF8`: the list and its buffer go on
from `0xFFFFFFFC` to 0 (00_scope.md rule R10). -/
def wrapped : State := { started with
  cfg := { Config.vectors with ramRanges := [⟨0x3FFFFFF0, 16⟩, ⟨0, 16⟩] }
  ram := [(4, 7), (0xFFFFFFF8, 3), (0xFFFFFFFC, 0xFC), (0xFFFFFFFD, 0xFF), (0xFFFFFFFE, 0xFF), (0xFFFFFFFF, 0xFF)]
  ch0 := ⟨0xFFFFFFF8, 0x50000078, 2, 2, 0x061D, true, false⟩ }

/-- The state that an answer holds. -/
def after (r : Result) : Option State :=
  match r with
  | .next t => some t
  | _ => none

theorem next_of_after {r : Result} {t : State} (h : after r = some t) : r = .next t := by
  cases r <;> simp_all [after]

/-! ### One step each, from the tables of 95_test_vectors.md -/

/-- T28: bits 31:16 are ignored, no trigger, no event. -/
theorem test_wr_ctrl_stores_low_half : after (exec (.wrAl1Ctrl .e0 0xFFFFFFFF .host) idle) =
    some { idle with ch0 := { Channel.reset with ctrl := 0xFFFF } } := by decide

/-- T29. -/
theorem test_rd_ctrl_widens : (after (exec (.rdCtrlTrig .e0) { idle with ch0 := { Channel.reset with ctrl := 0xFFFF } })).map (·.rdata) =
    some 0x0000FFFF := by decide

/-- T30. -/
theorem test_rd_ctrl_busy_bit : (after (exec (.rdAl1Ctrl .e1) streaming)).map (·.rdata) = some 0x8000600D := by decide

/-- T31, T33. -/
theorem test_rd_trans_count_mux : (after (exec (.rdTransCount .e1) { streaming with
      ch1 := { streaming.ch1 with remaining := 1 } })).map (·.rdata) = some 1 ∧
    (after (exec (.rdTransCount .e0) streaming)).map (·.rdata) = some 2 := by decide

/-- T34. -/
theorem test_rd_busy : (after (exec .rdBusy streaming)).map (·.rdata) = some 2 := by decide

/-- T41. -/
theorem test_rd_start : (after (exec .rdStart streaming)).map (·.rdata) = some 0 := by decide

/-- T35: the read that V1's POLL makes, and a write of one clears. -/
theorem test_rd_intr : (after (exec .rdIntr { idle with ch1 := { Channel.reset with done := true } })).map (·.rdata) = some 2 := by
  decide

theorem test_wr_intr : after (exec (.wrIntr 2 .host) { idle with
      ch0 := { Channel.reset with done := true }, ch1 := { Channel.reset with done := true } }) =
    some { idle with ch0 := { Channel.reset with done := true } } := by decide

/-- T40: engine 0 starts, then engine 1's trigger is a null trigger. -/
theorem test_wr_start_both : after (exec (.wrStart 3 .host) { started with ch0 := { started.ch0 with remaining := 0, busy := false } }) =
    some { started with
      ch1 := { started.ch1 with done := true }
      ev := [.block .e0 0x20000000 0x50000078 2, .null .e1] } := by decide

/-- T48. -/
theorem test_wr_start_live : after (exec (.wrStart 1 .host) busy0) = some { busy0 with fault := some .hostLive } := by decide

/-- T42. -/
theorem test_wr_busy : after (exec (.wrBusy 3) busy0) = some busy0 := by decide

/-- T43. -/
theorem test_reserved : after (exec (.reserved8C .read) idle) = some { idle with fault := some .reservedOffset } ∧
    after (exec (.reservedC0 15 (.write 1)) idle) = some { idle with fault := some .reservedOffset } := by decide

/-- T45, T46: WRITE_BUSY before any trigger; HOST_LIVE for the idle engine. -/
theorem test_wr_ctrl_trig_busy : after (exec (.wrCtrlTrig .e0 5 .host) busy0) = some { busy0 with fault := some .writeBusy } := by decide

theorem test_wr_read_addr_live : after (exec (.wrReadAddr .e1 0 .host) busy0) = some { busy0 with fault := some .hostLive } := by decide

/-- T57: the fault undoes the write that came before the trigger. -/
theorem test_wr_ctrl_trig_data_size : after (exec (.wrCtrlTrig .e0 1 .host) { idle with ch0 := { Channel.reset with reload := 5 } }) =
    some { idle with ch0 := { Channel.reset with reload := 5 }, fault := some .dataSize } := by decide

/-- T56: the null check comes before the DATA_SIZE check. -/
theorem test_wr_ctrl_trig_null : after (exec (.wrCtrlTrig .e0 1 .host) idle) =
    some { idle with ch0 := { Channel.reset with ctrl := 1, done := true }, ev := [.null .e0] } := by decide

/-- T50, its last write. -/
theorem test_wr_write_addr_trig : after (exec (.wrAl2WriteAddrTrig .e0 0x20000010 .host)
      { idle with ch0 := { Channel.reset with ctrl := 5, reload := 3 } }) =
    some { idle with ch0 := ⟨0, 0x20000010, 3, 3, 5, true, false⟩, ev := [.block .e0 0 0x20000010 3] } := by decide

/-- T89: an engine's write of a count to a trigger slot, with a reserved DATA_SIZE. -/
theorem test_wr_trans_count_trig : after (exec (.wrAl1TransCountTrig .e1 7 (.engine .e0))
      { busy0 with ch1 := { Channel.reset with ctrl := 1 } }) =
    some { busy0 with ch1 := { Channel.reset with ctrl := 1 }, fault := some .dataSize } := by decide

/-- V1, steps 2 and 3: a data descriptor. -/
theorem test_desc_data : (after (exec (.descData 2 0x20000100) started)).map (fun t => (t.ch0.busy, t.ch0.readAddr, t.ch1)) =
    some (false, 0x20000008, ⟨0x20000100, 0x50200010, 2, 2, 0x600D, true, false⟩) := by decide

/-- V3, steps 2 and 3: the sentinel alone. -/
theorem test_desc_sentinel : (after (exec (.descSentinel 0) started)).map (fun t => (t.live, t.ch1.done, t.ch1.reload, t.out)) =
    some (false, true, 0, []) := by decide

/-- T62. -/
theorem test_dte_word : (engineTurn .e1 streaming).fifo = [0xAA] ∧ (engineTurn .e1 streaming).ch1.readAddr = 0x20000104 ∧
    (engineTurn .e1 streaming).ch1.remaining = 1 := by decide

/-- T59, T60: an engine's write of START. -/
theorem test_engine_writes_start :
    (engineTurn .e0 { oneWord 0x20000000 0x50000084 5 with ram := [(0x20000000, 1)] }).fault = some .triggerBusy ∧
    (engineTurn .e0 { oneWord 0x20000000 0x50000084 5 with ram := [(0x20000000, 2)] }).ev =
      [.word .e0 0x20000000 0x50000084 2, .ignored .e1, .complete .e0] := by decide

/-- T65 to T68: the order of the faults of one step. -/
theorem test_fault_order : (engineTurn .e0 (oneWord 0x20000002 0x90000000 5)).fault = some .align ∧
    (engineTurn .e0 (oneWord 0x90000000 0x50000090 5)).fault = some .bus ∧
    (engineTurn .e0 (oneWord 0x20000000 0x90000000 5)) = { oneWord 0x20000000 0x90000000 5 with fault := some .bus } ∧
    (engineTurn .e0 (oneWord 0x50200010 0x20000000 5)).fault = some .fifoRead := by decide

/-- T72: an engine reads the BUSY register and sees its own bit. -/
theorem test_engine_reads_busy : (engineTurn .e0 (oneWord 0x50000088 0x20000020 5)).ram = [(0x20000020, 1)] := by decide

/-- T61: a chain of an engine to itself. -/
theorem test_chain_to_itself : (engineTurn .e0 (oneWord 0x20000000 0x20000010 0x4005)).ev =
    [.word .e0 0x20000000 0x20000010 0, .complete .e0, .block .e0 0x20000000 0x20000010 1] := by decide

/-- T18, T19, T21 to T24. -/
theorem test_ringInc : ringInc 0x50000078 3 = 0x5000007C ∧ ringInc 0x5000007C 3 = 0x50000078 ∧
    ringInc 0x2000000C 4 = 0x20000000 ∧ ringInc 0x20000004 1 = 0x20000004 ∧ ringInc 0x20000004 2 = 0x20000004 ∧
    ringInc 0x2000001C 5 = 0x20000000 := by decide

/-- T11 to T14. -/
theorem test_ctrl_words : cteCtrl 0 3 = 0x061D ∧ cteCtrl 4 3 = 0x069D ∧ dteCtrl .e0 = 0x600D ∧
    ctrlv { en := true, dataSize := 2, incrRead := true, readRing := 4, paced := true, chainEn := true } = 0x608D := by decide

/-- T51 to T53. -/
theorem test_host_memory :
    (after (hostAccess 0x20000000 .word (.write 0x11223344) idle)).map (·.ram) =
      some [(0x20000000, 0x44), (0x20000001, 0x33), (0x20000002, 0x22), (0x20000003, 0x11)] ∧
    (after (hostAccess 0x20000001 .byte (.write 0xAB) { idle with ram := [(0x20000000, 0x44), (0x20000001, 0x33)] })).map (·.ram) =
      some [(0x20000000, 0x44), (0x20000001, 0xAB)] ∧
    (after (hostAccess 0x20000002 .half (.write 0xBEEF) idle)).map (·.ram) = some [(0x20000002, 0xEF), (0x20000003, 0xBE)] := by
  decide

/-- T44, T85. -/
theorem test_host_width : (after (hostAccess 0x50000000 .half (.write 0) idle)).map (·.fault) = some (some .hostWidth) ∧
    (after (hostAccess 0x50000002 .word .read idle)).map (·.fault) = some (some .hostWidth) ∧
    (after (hostAccess 0x50000090 .byte (.write 0) idle)).map (·.fault) = some (some .hostWidth) := by decide

/-- T74: the host writes a word that an engine has read in this LIVE period. -/
theorem test_race : (after (hostAccess 0x20000000 .word (.write 9) (engineTurn .e0 started))).map (·.fault) = some (some .race) := by
  decide

/-! ### Witnesses: a concrete case that meets the hypotheses of each statement, one per clause where it has several -/

theorem witness_DecodeOfEncodeIsTheInstruction : (Instr.descData 1 0).wf = true ∧ (Instr.wrIntr 0 (.engine .e1)).wf = true := by
  decide

theorem witness_EncodeOfDecodeIsTheBytes : decode (.window .host) [0xFC, 0x00] = .ok (.reservedC0 15 .read) ∧
    decode .list [0, 0, 0, 0, 1, 0, 0, 0] = .ok (.descSentinel 1) := by decide

theorem witness_EveryAlignedOffsetIsACommand : (0xFC : BitVec 8).extractLsb' 0 2 = 0 ∧ (0x00 : BitVec 8).extractLsb' 0 2 = 0 ∧
    (0xFF : BitVec 8).extractLsb' 0 2 ≠ 0 ∧ (0x01 : BitVec 8).extractLsb' 0 2 ≠ 0 := by decide

theorem witness_RegWriteIsTheDecodedCommand :
    decode (.window (.engine .e0)) (commandRecord 0x7C (.write 3)) = .ok (.wrAl3ReadAddrTrig .e1 3 (.engine .e0)) ∧
    decode (.window .host) (commandRecord 0x80 (.write 3)) = .ok (.wrIntr 3 .host) := by decide

theorem witness_RegReadIsTheDecodedCommand : decode (.window (.engine .e1)) (commandRecord 0x00 .read) = .ok (.rdReadAddr .e0) ∧
    decode (.window .host) (commandRecord 0x8C .read) = .ok (.reserved8C .read) := by decide

/-- The clauses of a plain slot write: a busy engine, a live sequencer and the host, the host with nothing live, an engine while live. -/
theorem witness_slot_writes : (busy0.fault = none ∧ (busy0.ch .e0).busy = true) ∧
    ((busy0.ch .e1).busy = false ∧ Master.host = .host ∧ busy0.live = true) ∧
    (idle.fault = none ∧ (idle.ch .e1).busy = false ∧ (Master.host = .host → idle.live = false)) ∧
    ((busy0.ch .e1).busy = false ∧ (Master.engine .e0 = .host → busy0.live = false)) := by decide

theorem witness_PlainWritesOfTheAddressRegisters : busy0.fault = none ∧ (busy0.ch .e0).busy = true ∧ (busy0.ch .e1).busy = false ∧
    busy0.live = true ∧ (idle.ch .e0).busy = false ∧ idle.live = false := by decide

theorem witness_PlainWritesOfTransCount : started.fault = none ∧ (started.ch .e1).busy = false ∧
    ctrlEn (started.ch .e1).ctrl = true := by decide

theorem witness_PlainWritesOfCtrl : busy1.fault = none ∧ (busy1.ch .e1).busy = true ∧ (busy1.ch .e0).busy = false ∧
    busy1.live = true := by decide

/-- The four outcomes of the trigger after a CTRL write: ignored, null, DATA_SIZE, a block. -/
theorem witness_TriggerSlotWritesStoreThenTrigger :
    let w (v : Word) (s : State) : State := s.setCh .e0 { s.ch .e0 with ctrl := v.extractLsb' 0 16 }
    let five : State := { idle with ch0 := { Channel.reset with reload := 5 } }
    (idle.fault = none ∧ (idle.ch .e0).busy = false ∧ idle.live = false) ∧
    ctrlEn ((w 0 idle).ch .e0).ctrl = false ∧
    (ctrlEn ((w 1 idle).ch .e0).ctrl = true ∧ ((w 1 idle).ch .e0).reload = 0) ∧
    (ctrlEn ((w 1 five).ch .e0).ctrl = true ∧ ((w 1 five).ch .e0).reload ≠ 0 ∧ ctrlDataSize ((w 1 five).ch .e0).ctrl ≠ 0b10) ∧
    (ctrlEn ((w 5 five).ch .e0).ctrl = true ∧ ((w 5 five).ch .e0).reload ≠ 0 ∧ ctrlDataSize ((w 5 five).ch .e0).ctrl = 0b10) := by
  decide

theorem witness_ReadsOfTheAddressRegisters : busy0.fault = none ∧ idle.fault = none := by decide

theorem witness_ReadsOfTransCount : streaming.fault = none ∧ (streaming.ch .e1).busy = true ∧ (streaming.ch .e0).busy = false ∧
    ((streaming.ch .e1).busy = true → (2 : Word) = (streaming.ch .e1).remaining) ∧
    ((streaming.ch .e0).busy = false → (2 : Word) = (streaming.ch .e0).reload) := by decide

theorem witness_ReadsOfCtrl : streaming.fault = none ∧ (0x8000600D : Word).getLsbD 31 = (streaming.ch .e1).busy ∧
    (0x8000600D : Word).extractLsb' 16 15 = 0 ∧ (0x8000600D : Word).extractLsb' 0 16 = (streaming.ch .e1).ctrl := by decide

theorem witness_ReadsOfTheGlobalRegisters : streaming.fault = none ∧ (0 : Word).extractLsb' 2 30 = 0 ∧
    (0 : Word).getLsbD 1 = streaming.ch1.done ∧ (0 : Word).getLsbD 0 = streaming.ch0.done ∧ (2 : Word).extractLsb' 2 30 = 0 ∧
    (2 : Word).getLsbD 1 = streaming.ch1.busy ∧ (2 : Word).getLsbD 0 = streaming.ch0.busy := by decide

theorem witness_RegReadFollowsTheMap : 0x8C ≤ (0x8C : BitVec 8).toNat ∧ (0x8C : BitVec 8).extractLsb' 0 2 = 0 ∧
    0x8C ≤ (0xFC : BitVec 8).toNat ∧ (0xFC : BitVec 8).extractLsb' 0 2 = 0 := by decide

theorem witness_IntrWriteClearsTheNamedFlags : busy0.fault = none := by decide

theorem witness_StartWriteTriggersInOrder : (busy0.fault = none ∧ busy0.live = true ∧ (1 : Word).extractLsb' 0 2 ≠ 0) ∧
    ((4 : Word).extractLsb' 0 2 = 0) ∧ (Master.host = .host → idle.live = false) ∧
    (Master.engine .e0 = .host → busy0.live = false) ∧ (5 : Word).extractLsb' 0 2 = 1 ∧ (2 : Word).extractLsb' 0 2 = 2 ∧
    (3 : Word).extractLsb' 0 2 = 3 := by decide

theorem witness_StartTriggerStartsTheArmedCte :
    let armed : State := { started with ch0 := { started.ch0 with remaining := 0, busy := false } }
    armed.fault = none ∧ armed.live = false ∧ (1 : Word).extractLsb' 0 2 = 1 ∧ armed.ch0.busy = false ∧
      ctrlEn armed.ch0.ctrl = true ∧ armed.ch0.reload ≠ 0 ∧ ctrlDataSize armed.ch0.ctrl = 0b10 := by decide

theorem witness_BusyWriteIsSkipped : busy0.fault = none := by decide

theorem witness_ReservedOffsetsFault : busy0.fault = none ∧ 0x8C ≤ (0x8C : BitVec 8).toNat ∧ (0x8C : BitVec 8).extractLsb' 0 2 = 0 ∧
    0x8C ≤ (0xFC : BitVec 8).toNat ∧ (0xFC : BitVec 8).extractLsb' 0 2 = 0 := by decide

theorem witness_TriggerChecksInOrder : (busy0.ch .e0).busy = true ∧
    ((idle.ch .e0).busy = false ∧ ctrlEn (idle.ch .e0).ctrl = false) ∧
    ((started.ch .e1).busy = false ∧ ctrlEn (started.ch .e1).ctrl = true ∧ (started.ch .e1).reload = 0) ∧
    (let s : State := { idle with ch0 := { Channel.reset with reload := 1, ctrl := 1 } };
      ctrlEn (s.ch .e0).ctrl = true ∧ (s.ch .e0).reload ≠ 0 ∧ ctrlDataSize (s.ch .e0).ctrl ≠ 0b10) ∧
    (let s : State := { idle with ch0 := { Channel.reset with reload := 1, ctrl := 5 } };
      ctrlEn (s.ch .e0).ctrl = true ∧ (s.ch .e0).reload ≠ 0 ∧ ctrlDataSize (s.ch .e0).ctrl = 0b10) := by decide

theorem witness_AWordStepTriggersAtMostTwice : ∃ t, (streaming.ch .e1).busy = true ∧ engineStep .e1 streaming = .ok t :=
  ⟨_, by decide, rfl⟩

/-- The second word of V1's first descriptor: the write that triggers engine 1. -/
theorem witness_BusWriteLeavesTheWriterAlone : ∃ t, (started.ch .e0).busy = true ∧
    busWrite .e0 0x5000007C 0x20000100 { started with ch1 := { started.ch1 with reload := 2 } } = .ok t ∧ t.ch1.busy = true :=
  ⟨_, by decide, rfl, by decide⟩

theorem cteReady_started : CteReady 0x20000000 0 started := by constructor <;> decide

theorem witness_DataDescriptorLoadsAndStartsTheDte : CteReady 0x20000000 0 started ∧ (1 : Word) ≠ 0 ∧ started.ch1.busy = false ∧
    ctrlEn started.ch1.ctrl = true ∧ ctrlDataSize started.ch1.ctrl = 0b10 := ⟨cteReady_started, by decide⟩

theorem witness_SentinelHaltsWithTheFlagSet : CteReady 0x20000000 0 started ∧ started.ch1.busy = false ∧
    ctrlEn started.ch1.ctrl = true := ⟨cteReady_started, by decide⟩

/-- V3's corner case, T97, a busy DTE, and an engine 0 that is not busy. -/
theorem witness_DescriptorAgainstAnUnreadyDte :
    (let s : State := { started with ch1 := Channel.reset };
      CteReady 0x20000000 0 s ∧ s.ch1.busy = false ∧ ctrlEn s.ch1.ctrl = false) ∧
    (let s : State := { started with ch1 := { started.ch1 with ctrl := 0x6009 } };
      CteReady 0x20000000 0 s ∧ s.ch1.busy = false ∧ ctrlEn s.ch1.ctrl = true ∧ ctrlDataSize s.ch1.ctrl ≠ 0b10) ∧
    (let s : State := { started with ch1 := { started.ch1 with busy := true, remaining := 1 } };
      CteReady 0x20000000 0 s ∧ s.ch1.busy = true) ∧
    (idle.fault = none ∧ engineEnabled .e0 idle = false) := by
  refine ⟨⟨by constructor <;> decide, by decide⟩, ⟨by constructor <;> decide, by decide⟩, ⟨by constructor <;> decide, by decide⟩,
    by decide⟩

theorem witness_DescriptorTurnIsTwoEngineSteps : started.fault = none ∧ atDescriptor started = true := by decide

theorem witness_StepRunsTheHostsCommand : idle.fault = none ∧ wordAligned 0x500000FC = true ∧
    region idle.cfg 0x500000FC = .window 0xFC ∧ region idle.cfg 0x50000000 = .window 0x00 ∧
    decode (.window .host) (commandRecord 0xFC .read) = .ok (.reservedC0 15 .read) ∧
    decode (.window .host) (commandRecord 0x00 (.write 1)) = .ok (.wrReadAddr .e0 1 .host) := by decide

theorem witness_StepRunsTheDescriptor : started.fault = none ∧ atDescriptor started = true ∧
    decode .list (descriptorBytes started.ram started.ch0.readAddr) = .ok (.descData 2 0x20000100) := by decide

theorem witness_PlacedCommandIsRunNext : idle.fault = none ∧ Config.wf idle.cfg = true ∧
    decodeTableWord 16 0b110000100 = some (.wrStart 0 .host) := by decide

/-- A POLL that ends, and one that comes again. -/
theorem witness_PollRepeatsUntilTheMaskIsMet :
    let done : State := { idle with ch1 := { Channel.reset with done := true } }
    (∃ t, hostAccess 0x50000080 .word .read { { done with host := [.poll 0x50000080 2] } with host := [] } = .next t ∧ t.fault = none ∧
      t.rdata &&& 2 ≠ 0) ∧
    (∃ t, hostAccess 0x50000080 .word .read { { idle with host := [.poll 0x50000080 2] } with host := [] } = .next t ∧ t.fault = none ∧
      t.rdata &&& 2 = 0) :=
  ⟨⟨{ idle with ch1 := { Channel.reset with done := true }, rdata := 2 }, next_of_after (by decide), by decide⟩,
    ⟨idle, next_of_after (by decide), by decide⟩⟩

theorem witness_FaultStopsEveryAgentUntilReset : ({ idle with fault := some .race } : State).fault = some .race := rfl

theorem witness_AFaultingStepWritesOnlyTheRecord :
    (∃ t, exec (.reserved8C .read) idle = .next t ∧ t.fault = some .reservedOffset) ∧
    (let s := oneWord 0x90000000 0x20000000 5; s.fault = none ∧ (engineTurn .e0 s).fault = some .bus) ∧
    (∃ t, hostTurn { idle with host := [.read 0x5000008C .word] } = .next t ∧ t.fault = some .reservedOffset) :=
  ⟨⟨_, next_of_after rfl, rfl⟩, by decide,
    ⟨{ idle with fault := some .reservedOffset }, next_of_after (by decide), rfl⟩⟩

theorem readsRam_streaming : ReadsRam .e1 streaming := by constructor <;> decide

theorem witness_AWordGoesFromRamToTheFifo : ReadsRam .e1 streaming ∧ region streaming.cfg (streaming.ch .e1).writeAddr = .fifo ∧
    streaming.dreq = true ∧ (streaming.ch .e1).remaining ≠ 1 := ⟨readsRam_streaming, by decide⟩

theorem witness_AWordGoesFromRamToRam :
    let s : State := { idle with ram := ramV1, ch0 := ⟨0x20000100, 0x20000010, 3, 3, 5, true, false⟩ }
    ReadsRam .e0 s ∧ Memory.wf s.ram = true ∧ region s.cfg (s.ch .e0).writeAddr = .ram ∧ (s.ch .e0).remaining ≠ 1 :=
  ⟨by constructor <;> decide, by decide⟩

/-- Engine 1 before the last word of V1's buffer, with CTRL `c` and engine 0's CTRL `x`. -/
def lastWord (c x : BitVec 16) : State := { streaming with
  ch0 := { streaming.ch0 with ctrl := x }
  ch1 := ⟨0x20000104, 0x50200010, 2, 1, c, true, false⟩ }

theorem ok_of_toBool {α : Type} {r : Except FaultCode α} (h : r.toBool = true) : ∃ t, r = .ok t := by
  cases r with
  | ok t => exact ⟨t, rfl⟩
  | error c => exact absurd h (by simp [Except.toBool])

/-- The last word with and without a chain, the chained trigger answering and faulting. -/
theorem witness_TheLastWordCompletesAndChains :
    (ReadsRam .e1 (lastWord 0x200D 0x061D) ∧ ctrlChainEn ((lastWord 0x200D 0x061D).ch .e1).ctrl = false) ∧
    (region Config.vectors 0x50200010 = .fifo ∧ (lastWord 0x600D 0x061D).dreq = true ∧ ((lastWord 0x600D 0x061D).ch .e1).remaining = 1) ∧
    (ReadsRam .e1 (lastWord 0x600D 0x061D) ∧ ctrlChainEn ((lastWord 0x600D 0x061D).ch .e1).ctrl = true) ∧
    (∃ t, trigger .e0 (lastPushed .e1 (lastWord 0x600D 0x061D)) = .ok t) ∧ ReadsRam .e1 (lastWord 0x600D 1) ∧
    trigger .e0 (lastPushed .e1 (lastWord 0x600D 1)) = .error .dataSize := by
  refine ⟨⟨by constructor <;> decide, by decide⟩, by decide, ⟨by constructor <;> decide, by decide⟩, ok_of_toBool (by decide),
    by constructor <;> decide, by decide⟩

theorem witness_HoldsOverflowsAndMisalignments :
    (let s : State := { streaming with fifo := [1, 2, 3, 4] }; ctrlPaced (s.ch .e1).ctrl = true ∧ s.dreq = false) ∧
    (let s : State := { streaming with fifo := [1, 2, 3, 4], ch1 := { streaming.ch1 with ctrl := 0x000D } };
      ReadsRam .e1 s ∧ region s.cfg (s.ch .e1).writeAddr = .fifo ∧ s.dreq = false) ∧
    (let s := oneWord 0x20000002 0x90000000 5; engineEnabled .e0 s = true ∧ wordAligned (s.ch .e0).readAddr = false) ∧
    (let s := oneWord 0x20000000 0x20000011 5; engineEnabled .e0 s = true ∧ wordAligned (s.ch .e0).writeAddr = false) :=
  ⟨by decide, ⟨by constructor <;> decide, by decide⟩, by decide, by decide⟩

/-- The write side: a read of the window that answers, and a write to UNMAPPED (T67), to both ends of the reserved range, and to both
ends of the writer's own block (T70). -/
theorem witness_HoldsOverflowsAndMisalignments_writes : let s := oneWord 0x50000080 0x90000000 5
    engineEnabled .e0 s = true ∧ wordAligned (s.ch .e0).readAddr = true ∧ wordAligned (s.ch .e0).writeAddr = true ∧
    (∃ v t, busRead (s.ch .e0).readAddr s = .ok (v, t)) ∧ region s.cfg (s.ch .e0).writeAddr = .unmapped ∧
    (region s.cfg 0x5000008C = .window 0x8C ∧ region s.cfg 0x500000FC = .window 0xFC ∧ wordAligned 0x500000FC = true) ∧
    (region s.cfg 0x50000000 = .window 0x00 ∧ region s.cfg 0x5000003C = .window 0x3C ∧ wordAligned 0x5000003C = true ∧
      (s.ch (engineOfBit ((0x3C : BitVec 8).getLsbD 6))).busy = true) :=
  ⟨by decide, by decide, by decide, ⟨_, _, rfl⟩, by decide, by decide, by decide⟩

theorem witness_AFaultingReadComesBeforeTheWrite :
    (engineEnabled .e0 (oneWord 0x90000000 0x90000000 5) = true ∧ engineEnabled .e0 (oneWord 0x50200010 0x90000000 5) = true ∧
      engineEnabled .e0 (oneWord 0x20000000 0x90000000 5) = true ∧ engineEnabled .e0 (oneWord 0x5000008C 0x90000000 5) = true) ∧
    (wordAligned 0x90000000 = true ∧ wordAligned 0x50200010 = true ∧ wordAligned 0x20000000 = true ∧
      wordAligned 0x5000008C = true ∧ wordAligned 0x500000FC = true) ∧
    (region Config.vectors 0x90000000 = .unmapped ∧ region Config.vectors 0x50200010 = .fifo) ∧
    (region Config.vectors 0x20000000 = .ram ∧ meetsSpan 0x20000000 4 [0x20000003] = true) ∧
    (region Config.vectors 0x5000008C = .window 0x8C ∧ region Config.vectors 0x500000FC = .window 0xFC) :=
  ⟨by decide, by decide, by decide, by decide, by decide⟩

theorem witness_AStreamDeliversTheBufferInOrder :
    let s := streaming
    s.fault = none ∧ (s.ch .e1).busy = true ∧ ctrlIncrRead (s.ch .e1).ctrl = true ∧ ctrlReadRing (s.ch .e1).ctrl = 0 ∧
    ctrlIncrWrite (s.ch .e1).ctrl = false ∧ wordAligned (s.ch .e1).readAddr = true ∧ wordAligned (s.ch .e1).writeAddr = true ∧
    region s.cfg (s.ch .e1).writeAddr = .fifo ∧
    (∀ k, k < 1 → region s.cfg (wordAt (s.ch .e1).readAddr k) = .ram) ∧ s.wset = [] ∧ 1 < (s.ch .e1).remaining.toNat ∧ s.fifo.length + 1 ≤ s.cfg.outFifoDepth := by
  decide

theorem witness_RingIncWrapsInsideItsBlock : (0 : BitVec 4) = 0 ∧ (15 : BitVec 4) ≠ 0 := by decide

theorem witness_RingIncCyclesThroughItsBlock : wordAligned 0x20000000 = true ∧ 3 ≤ (3 : BitVec 4).toNat := by decide

theorem witness_OutputStepRemovesTheOldestWord : let s : State := { idle with fifo := [7] }; s.fault = none ∧ s.fifo = [7] := by
  decide

/-- A write while live of a byte read, of a byte not read, and with nothing live. -/
theorem witness_HostWriteStoresItsBytes :
    let s : State := { started with rset := [0x20000003] }
    s.fault = none ∧ Memory.wf s.ram = true ∧ region s.cfg (wordOf 0x20000003) = .ram ∧ 0x20000003 % widthBytes .byte = 0 ∧
    s.live = true ∧ meetsSpan 0x20000003 (widthBytes .byte) s.rset = true ∧
    meetsSpan 0x20000002 (widthBytes .byte) s.rset = false ∧ 0x2003FFFE % widthBytes .half = 0 ∧
    region s.cfg (wordOf 0x2003FFFE) = .ram ∧ idle.live = false := by decide

theorem witness_HostReadReturnsTheBytes : started.fault = none ∧ region started.cfg (wordOf 0x20000101) = .ram ∧
    0x20000101 % widthBytes .byte = 0 := by decide

theorem witness_HostAccessesOutsideTheCommands : idle.fault = none ∧ region idle.cfg (wordOf 0x50000002) = .window 0x00 ∧
    wordAligned 0x50000002 = false ∧ region idle.cfg (wordOf 0x500000FF) = .window 0xFC ∧ Width.byte ≠ .word ∧
    region idle.cfg (wordOf 0x20000001) = .ram ∧ 0x20000001 % widthBytes .word ≠ 0 ∧
    region idle.cfg (wordOf 0x90000000) = .unmapped ∧ region idle.cfg (wordOf 0x50200010) = .fifo := by decide

theorem witness_RegionsPartitionTheAddressSpace : Config.wf Config.vectors = true := by decide

theorem witness_MemoryIsWhatItReads : Memory.wf [] = true ∧ Memory.wf ramV1 = true := by decide

theorem started_invariant : Invariant started where
  ramWf := by decide
  ramOnly := by decide
  rsetRising := by decide
  wsetRising := by decide
  rsetRam := by decide
  wsetRam := by decide
  noRace := by decide
  quietSets := by decide
  busyCounts := by intro e; cases e <;> decide
  busyLegal := by intro e; cases e <;> decide
  fifoBound := by decide
  fifoOut := by decide

/-- A step of engine 0 from a state with the invariant. -/
theorem witness_EveryStepKeepsTheInvariant : ∃ t, Invariant { started with sched := [.engine .e0] } ∧
    step { started with sched := [.engine .e0] } = .next t :=
  ⟨_, ⟨started_invariant.1, started_invariant.2, started_invariant.3, started_invariant.4, started_invariant.5, started_invariant.6,
    started_invariant.7, started_invariant.8, started_invariant.9, started_invariant.10, started_invariant.11, started_invariant.12⟩, rfl⟩

/-- The state before the sentinel's second word: its turn empties the race sets. -/
def lastCteWord : State := { started with
  ram := []
  sched := [.engine .e0]
  rset := [0x20000000, 0x20000001, 0x20000002, 0x20000003]
  ch0 := ⟨0x20000004, 0x5000007C, 2, 1, 0x061D, true, false⟩ }

theorem lastCteWord_invariant : Invariant lastCteWord where
  ramWf := by decide
  ramOnly := by decide
  rsetRising := by decide
  wsetRising := by decide
  rsetRam := by decide
  wsetRam := by decide
  noRace := by decide
  quietSets := by decide
  busyCounts := by intro e; cases e <;> decide
  busyLegal := by intro e; cases e <;> decide
  fifoBound := by decide
  fifoOut := by decide

theorem witness_QuietStepsEmptyTheRaceSets : ∃ t, Invariant lastCteWord ∧ step lastCteWord = .next t ∧ t.live = false :=
  ⟨_, lastCteWord_invariant, rfl, by decide⟩

theorem witness_HistoriesOnlyGrow : ∃ t, step lastCteWord = .next t := ⟨_, rfl⟩

theorem witness_OnlyANullTriggerSetsDone : ∃ t, step lastCteWord = .next t ∧ (lastCteWord.ch .e1).done = false ∧
    (t.ch .e1).done = true := ⟨_, rfl, by decide, by decide⟩

theorem witness_OnlyIntrOrResetClearsDone :
    let s : State := { idle with
      ch1 := { Channel.reset with done := true }, host := [.write 0x50000080 .word 2], sched := [.host] }
    ∃ t, Config.wf s.cfg = true ∧ step s = .next t ∧ (s.ch .e1).done = true ∧ (t.ch .e1).done = false :=
  ⟨_, by decide, rfl, by decide, by decide⟩

theorem alternating_started : Alternating started := by constructor <;> decide

theorem witness_TheEnginesAlternate : ∃ t, Config.wf started.cfg = true ∧ Alternating started ∧ Turn.engine .e0 ≠ .host ∧
    Turn.engine .e0 ≠ .blockReset ∧ finish (takeTurn (.engine .e0) started) = .next t ∧ t.fault = none ∧ started.live = true :=
  ⟨_, by decide, alternating_started, by decide, by decide, rfl, by decide, by decide⟩

theorem witness_NoStepOfTheSequencerLeavesHalted : idle.fault = none ∧ idle.live = false ∧ Turn.output ≠ .host ∧
    Turn.output ≠ .blockReset := by decide

theorem witness_ArmingAndStartingReachesLoading :
    let k := Configuration.finite 0x20000000 0x50200010
    let s : State := { idle with
      host := armOps Config.vectors k ++ startCte Config.vectors
      sched := List.replicate 7 .host }
    Config.wf s.cfg = true ∧ inBlockReset s = true ∧ s.host = armOps s.cfg k ++ startCte s.cfg ∧
      s.sched = List.replicate s.host.length .host := by decide

/-- V1's list. -/
theorem witness_FiniteListsAreDeliveredInOrder :
    let s : State := { started with sched := [.engine .e0, .descriptor, .engine .e1, .output] }
    FiniteStarted 0x20000000 1 s ∧
      ∀ x ∈ s.sched, x = .engine .e0 ∨ x = .engine .e1 ∨ x = .descriptor ∨ x = .output := by
  refine ⟨?_, by decide⟩
  constructor <;> decide

/-- Rules R280 and R10: the list of `wrapped` is a finite list of one descriptor whose sentinel stands at 0, and its samples are the
words at `0xFFFFFFFC`, 0 and 4. -/
theorem test_list_wraps : isFiniteList wrapped.cfg wrapped.ram 0xFFFFFFF8 1 = true ∧
    samples wrapped.ram (descriptorAt wrapped.ram 0xFFFFFFF8 0) = [0xFFFFFFFC, 0, 7] ∧ atDescriptor wrapped = true := by decide

/-- The clauses of a finite list hold for one that wraps. -/
theorem witness_FiniteListsAreDeliveredInOrder_wrapped : FiniteStarted 0xFFFFFFF8 1 wrapped := by
  constructor <;> decide

/-- The output engine drains a full FIFO, one word a step. -/
def draining (n : Nat) : State := { idle with fifo := [1, 2, 3, 4].drop n, out := [1, 2, 3, 4] }

theorem draining_invariant : Invariant (draining 0) where
  ramWf := by decide
  ramOnly := by decide
  rsetRising := by decide
  wsetRising := by decide
  rsetRam := by decide
  wsetRam := by decide
  noRace := by decide
  quietSets := by decide
  busyCounts := by intro e; cases e <;> decide
  busyLegal := by intro e; cases e <;> decide
  fifoBound := by decide
  fifoOut := by decide

theorem witness_AFairRunLiftsTheHold : IsRun draining (fun _ => .output) ∧ WeaklyFair draining (fun _ => .output) ∧
    Invariant (draining 0) ∧ 1 ≤ (draining 0).cfg.outFifoDepth ∧ (draining 0).dreq = false := by
  refine ⟨?_, ?_, draining_invariant, by decide, by decide⟩
  · intro n
    show Host.Outcome.next (endOfStep { draining n with fifo := (draining n).fifo.tail }) = _
    simp [endOfStep, State.live, draining, idle, State.reset, Channel.reset]
  · intro t ht n
    refine ⟨n, Nat.le_refl n, ?_⟩
    simp only [List.mem_cons, List.not_mem_nil, or_false] at ht
    rcases ht with rfl | rfl | rfl
    · exact Or.inr rfl
    · exact Or.inr rfl
    · exact Or.inl rfl

end Sys2Proof.Tests
end

section
/-! SUPPORT. One word of an engine that reads RAM (42_engine_transfer.md rule R240): the parts of the step in order, and what the
whole turn is when the word goes to the output FIFO. -/

namespace Sys2Proof.Machine

open Sys2Proof.Claims

variable {s t a : State} {e : Engine}

theorem engineTurn_of_disabled {e : Engine} (h : engineEnabled e s = false) : engineTurn e s = s := by
  simp [engineTurn, h]

/-- An idle engine holds (42_engine_transfer.md rule R241). -/
theorem engineTurn_of_idle {e : Engine} (h : (s.ch e).busy = false) : engineTurn e s = s :=
  engineTurn_of_disabled (by simp [engineEnabled, h])

/-- A paced engine holds while the FIFO is full (42_engine_transfer.md rule R241). -/
theorem engineTurn_of_full {e : Engine} (hp : ctrlPaced (s.ch e).ctrl = true) (h : s.dreq = false) : engineTurn e s = s :=
  engineTurn_of_disabled (by simp [engineEnabled, hp, h])

/-- The read of engine `e` tracked in the race set (20_memory.md rule R78). -/
def readTracked (e : Engine) (s : State) : State := { s with rset := addSpan (s.ch e).readAddr.toNat 4 s.rset }

theorem fetchWord_of_readsRam (h : ReadsRam e s) : fetchWord e s = .ok (sourceWord e s, readTracked e s) := by
  simp [fetchWord, h.readAligned, h.writeAligned, busRead, h.ram, raceRead, h.quiet, sourceWord, readTracked]

/-- More words remain: only the counter changes (rule R245). -/
theorem countWord_of_more (h : (s.ch e).remaining ≠ 1) :
    countWord e s = .ok (s.setCh e { s.ch e with remaining := (s.ch e).remaining - 1 }) := by
  rw [countWord, if_neg (by bv_omega)]

/-- The block's last word: the engine is idle, the completion is recorded, then the chain (rule R246). -/
theorem countWord_of_last (h : (s.ch e).remaining = 1) :
    countWord e s = chain e ((s.setCh e { s.ch e with remaining := (s.ch e).remaining - 1, busy := false }).record (.complete e)) := by
  simp [countWord, h]

/-- A turn that reads RAM is its write, its count and the end of the step, where neither faults (rule R240). -/
theorem engineTurn_of_readsRam (h : ReadsRam e s)
    (hw : busWrite e (s.ch e).writeAddr (sourceWord e s) ((readTracked e s).record (wordEvent e s)) = .ok a)
    (hc : countWord e (a.setCh e (advance (s.ch e).readAddr (s.ch e).writeAddr (a.ch e))) = .ok t) :
    engineTurn e s = endOfStep t := by
  have hch : (readTracked e s).ch e = s.ch e := by cases e <;> rfl
  simp only [wordEvent] at hw
  simp only [engineTurn, h.enabled, engineStep, fetchWord_of_readsRam h, moveWord, hch, hw, hc, if_true]

/-- While an engine is busy, the end of a step keeps everything (20_memory.md rule R79). -/
theorem endOfStep_of_busy (h : (s.ch e).busy = true) : endOfStep s = s := by
  obtain ⟨hk, -⟩ | ⟨-, hl, -⟩ := endOfStep_cases s
  · exact hk
  · rw [live_of_busy s e h] at hl; cases hl

theorem busWrite_of_fifo {x : Addr} {v : Word} (hr : region s.cfg x = .fifo) (hd : s.dreq = true) :
    busWrite e x v s = .ok { s with fifo := s.fifo ++ [v], out := s.out ++ [v] } := by
  simp [busWrite, hr, fifoPush, hd]

/-- A word from RAM to the FIFO that is not the block's last (rules R242 to R245). -/
theorem engineTurn_pushes (h : ReadsRam e s) (hr : region s.cfg (s.ch e).writeAddr = .fifo) (hd : s.dreq = true)
    (hn : (s.ch e).remaining ≠ 1) :
    engineTurn e s = { s.setCh e (advanced e s) with
      fifo := s.fifo ++ [sourceWord e s]
      out := s.out ++ [sourceWord e s]
      rset := addSpan (s.ch e).readAddr.toNat 4 s.rset
      ev := s.ev ++ [wordEvent e s] } := by
  obtain ⟨-, hbusy, -⟩ := engineEnabled_iff.1 h.enabled
  rw [engineTurn_of_readsRam h (busWrite_of_fifo hr hd) (countWord_of_more (by cases e <;> exact hn)),
    endOfStep_of_busy (e := e) (by cases e <;> exact hbusy)]
  cases e <;> rfl

/-- Counting the pushed last word leaves the state before the chain. -/
theorem complete_pushed (e : Engine) (s : State) :
    let p : State := { (readTracked e s).record (wordEvent e s) with
      fifo := s.fifo ++ [sourceWord e s], out := s.out ++ [sourceWord e s] }
    (p.setCh e { advanced e s with busy := false }).record (.complete e) = lastPushed e s := by
  cases e <;> simp [lastPushed, readTracked, State.record, State.setCh]

/-- The last word of a block from RAM to the FIFO, whose chained trigger answers (rules R209, R210 and R246). -/
theorem engineTurn_pushes_last (h : ReadsRam e s) (hr : region s.cfg (s.ch e).writeAddr = .fifo) (hd : s.dreq = true)
    (hn : (s.ch e).remaining = 1) (hc : ctrlChainEn (s.ch e).ctrl = true)
    (ht : trigger (ctrlChainTo (s.ch e).ctrl) (lastPushed e s) = .ok t) : engineTurn e s = endOfStep t := by
  refine engineTurn_of_readsRam h (busWrite_of_fifo hr hd) ?_
  rw [countWord_of_last (by cases e <;> exact hn), chain, if_pos (by cases e <;> exact hc), ← ht, ← complete_pushed]
  cases e <;> rfl

end Sys2Proof.Machine
end

section
/-! SUPPORT. A stream of an engine: `n` turns push the first `n` words of its buffer (rules R242, R243, R245 and R250). -/

namespace Sys2Proof.Machine

open Sys2Proof.Claims

variable {s t : State} {e : Engine} {n : Nat}

@[simp] theorem meetsSpan_nil (a n : Nat) : meetsSpan a n [] = false := by
  induction n generalizing a with
  | zero => rfl
  | succ n ih => simp [meetsSpan, ih]

/-- The first `n` words of the buffer at `a`, modulo `2^32`. -/
def bufferWords (m : Memory) (a : Addr) (n : Nat) : List Word := (List.range n).map fun k => readWord m (wordAt a k).toNat

@[simp] theorem bufferWords_zero (m : Memory) (a : Addr) : bufferWords m a 0 = [] := rfl

theorem bufferWords_succ (m : Memory) (a : Addr) (n : Nat) :
    bufferWords m a (n + 1) = bufferWords m a n ++ [readWord m (wordAt a n).toNat] := by
  simp [bufferWords, List.range_succ]

@[simp] theorem bufferWords_length (m : Memory) (a : Addr) (n : Nat) : (bufferWords m a n).length = n := by
  simp [bufferWords]

/-- Engine `e` stands before a stream of `n` words from RAM to the FIFO: the premises of the claim. -/
structure StreamReady (e : Engine) (n : Nat) (s : State) : Prop where
  noFault : s.fault = none
  busy : (s.ch e).busy = true
  incrRead : ctrlIncrRead (s.ch e).ctrl = true
  noRing : ctrlReadRing (s.ch e).ctrl = 0
  fixedWrite : ctrlIncrWrite (s.ch e).ctrl = false
  readAligned : wordAligned (s.ch e).readAddr = true
  writeAligned : wordAligned (s.ch e).writeAddr = true
  toFifo : region s.cfg (s.ch e).writeAddr = .fifo
  ram : ∀ k, k < n → region s.cfg (wordAt (s.ch e).readAddr k) = .ram
  hostQuiet : s.wset = []
  more : n < (s.ch e).remaining.toNat
  room : s.fifo.length + n ≤ s.cfg.outFifoDepth

/-- `t` is `s` once engine `e` has streamed `n` words. -/
structure Streamed (e : Engine) (s : State) (n : Nat) (t : State) : Prop where
  channel : t.ch e = { s.ch e with
    readAddr := wordAt (s.ch e).readAddr n
    remaining := (s.ch e).remaining - BitVec.ofNat 32 n }
  out : t.out = s.out ++ bufferWords s.ram (s.ch e).readAddr n
  fifo : t.fifo = s.fifo ++ bufferWords s.ram (s.ch e).readAddr n
  cfg : t.cfg = s.cfg
  ram : t.ram = s.ram
  wset : t.wset = s.wset
  fault : t.fault = s.fault

theorem Streamed.zero (e : Engine) (s : State) : Streamed e s 0 s := by
  constructor <;> simp

/-- Where more words of the stream remain, the engine's next turn reads RAM, with room in the FIFO. -/
theorem Streamed.readsRam {k : Nat} (hs : StreamReady e n s) (ht : Streamed e s k t) (hk : k < n) :
    ReadsRam e t ∧ t.dreq = true := by
  have hd : t.dreq = true := by
    have hroom := hs.room
    simp only [State.dreq, ht.fifo, ht.cfg, List.length_append, bufferWords_length, decide_eq_true_eq]
    omega
  refine ⟨⟨?_, ?_, ?_, ?_, ?_⟩, hd⟩
  · exact engineEnabled_iff.2 ⟨ht.fault.trans hs.noFault, by rw [ht.channel]; exact hs.busy, .inr hd⟩
  · rw [ht.channel]; exact wordAt_aligned k hs.readAligned
  · rw [ht.channel]; exact hs.writeAligned
  · rw [ht.channel, ht.cfg]; exact hs.ram k hk
  · rw [ht.wset, hs.hostQuiet, meetsSpan_nil]

/-- One more turn streams one more word. -/
theorem Streamed.succ {k : Nat} (hs : StreamReady e n s) (ht : Streamed e s k t) (hk : k < n) :
    Streamed e s (k + 1) (engineTurn e t) := by
  obtain ⟨hr, hd⟩ := ht.readsRam hs hk
  have hmore := hs.more
  have hlt := (s.ch e).remaining.isLt
  have hn : (t.ch e).remaining ≠ 1 := by rw [ht.channel]; bv_omega
  have hf : region t.cfg (t.ch e).writeAddr = .fifo := by rw [ht.channel, ht.cfg]; exact hs.toFifo
  have hw : sourceWord e t = readWord s.ram (wordAt (s.ch e).readAddr k).toNat := by
    rw [sourceWord, ht.channel, ht.ram]
  have hadv : advanced e t = { s.ch e with
      readAddr := wordAt (s.ch e).readAddr (k + 1)
      remaining := (s.ch e).remaining - BitVec.ofNat 32 (k + 1) } := by
    simp only [advanced, ht.channel, hs.incrRead, hs.noRing, hs.fixedWrite, if_true, ringInc_wordAt, Bool.false_eq_true, if_false]
    congr 1
    bv_omega
  rw [engineTurn_pushes hr hf hd hn]
  constructor
  · rw [← hadv]; cases e <;> rfl
  · simp [ht.out, hw, bufferWords_succ]
  · simp [ht.fifo, hw, bufferWords_succ]
  · simp [ht.cfg]
  · simp [ht.ram]
  · simp [ht.wset]
  · simp [ht.fault]

/-- After `k` turns, `k` words are streamed. -/
theorem streamed_iterate (hs : StreamReady e n s) {k : Nat} (hk : k ≤ n) : Streamed e s k ((engineTurn e)^[k] s) := by
  induction k with
  | zero => exact Streamed.zero e s
  | succ k ih =>
    rw [Function.iterate_succ_apply']
    exact (ih (by omega)).succ hs hk

/-- Settles O41, by induction on the turns: after `k` of them `k` words are streamed. -/
theorem aStreamDeliversTheBufferInOrder : Obligations.AStreamDeliversTheBufferInOrder := by
  intro e s n h1 h2 h3 h4 h5 h6 h7 h8 h9 h10 h11 h12
  have hs : StreamReady e n s := ⟨h1, h2, h3, h4, h5, h6, h7, h8, h9, h10, h11, h12⟩
  have ht := streamed_iterate hs (Nat.le_refl n)
  refine ⟨ht.out, ht.fifo, ?_, ?_, ?_, ht.fault.trans hs.noFault, ht.ram⟩
  · rw [ht.channel]
  · rw [ht.channel]
  · rw [ht.channel]; exact hs.busy

end Sys2Proof.Machine
end

section
/-! SUPPORT. What every step keeps of the histories: the parameters stay, EV and OUT grow at their end (00_scope.md rule R9,
10_state.md rule R28, 43_pipeline_protocol.md rule R300). -/

namespace Sys2Proof.Machine

variable {s t u : State} {e : Engine} {m : Master} {v : Word}

/-- The parameters are the same, and the event history and OUT of `s` are prefixes of those of `t`. -/
structure Grows (s t : State) : Prop where
  cfg : t.cfg = s.cfg
  ev : s.ev <+: t.ev
  out : s.out <+: t.out

theorem Grows.refl (s : State) : Grows s s := ⟨rfl, List.prefix_rfl, List.prefix_rfl⟩

theorem Grows.trans (h : Grows s t) (h' : Grows t u) : Grows s u :=
  ⟨h'.cfg.trans h.cfg, h.ev.trans h'.ev, h.out.trans h'.out⟩

/-- An operation that leaves the parameters and both histories alone. -/
theorem Grows.of_eq (hc : t.cfg = s.cfg) (he : t.ev = s.ev) (ho : t.out = s.out) : Grows s t :=
  ⟨hc, he ▸ List.prefix_rfl, ho ▸ List.prefix_rfl⟩

theorem record_grows (x : Event) (s : State) : Grows s (s.record x) := ⟨rfl, List.prefix_append _ _, List.prefix_rfl⟩

theorem setCh_grows (e : Engine) (c : Channel) (s : State) : Grows s (s.setCh e c) := .of_eq (by simp) (by simp) (by simp)

theorem endOfStep_grows (s : State) : Grows s (endOfStep s) := .of_eq (by simp) (by simp) (by simp)

theorem raiseFault_grows (c : FaultCode) (s : State) : Grows s (raiseFault c s) := .of_eq rfl rfl rfl

theorem trigger_grows (h : trigger e s = .ok t) : Grows s t := by
  obtain ⟨-, ⟨-, rfl⟩ | ⟨-, -, rfl⟩ | ⟨-, -, -, rfl⟩⟩ := trigger_cases h
  · exact record_grows _ s
  · exact (setCh_grows _ _ s).trans (record_grows _ _)
  · exact (setCh_grows _ _ s).trans (record_grows _ _)

theorem regWrite_grows {off : BitVec 8} (h : regWrite off v m s = .ok t) : Grows s t :=
  regWrite_keeps (Grows s) h (.refl s) (fun _ _ _ => .of_eq (by simp) (by simp) (by simp))
    (.of_eq (by simp) (by simp) (by simp)) (fun _ _ _ h ha => ha.trans (trigger_grows h))

theorem busRead_grows {a : Addr} (h : busRead a s = .ok (v, t)) : Grows s t := by
  obtain ⟨-, -, -, rfl⟩ | ⟨off, -, -, rfl⟩ := busRead_cases h
  · exact .of_eq rfl rfl rfl
  · exact .refl t

theorem busWrite_grows {a : Addr} (h : busWrite e a v s = .ok t) : Grows s t := by
  obtain ⟨-, rfl⟩ | ⟨off, -, h⟩ | ⟨-, -, rfl⟩ := busWrite_cases h
  · exact .of_eq rfl rfl rfl
  · exact regWrite_grows h
  · exact ⟨rfl, List.prefix_rfl, List.prefix_append _ _⟩

theorem countWord_grows (h : countWord e s = .ok t) : Grows s t := by
  obtain ⟨-, rfl⟩ | ⟨-, h⟩ := countWord_cases h
  · exact setCh_grows _ _ s
  · have hrec : ∀ c, Grows s ((s.setCh e c).record (.complete e)) :=
      fun c => (setCh_grows e c s).trans (record_grows _ _)
    obtain ⟨-, rfl⟩ | ⟨-, h⟩ := chain_cases h
    · exact hrec _
    · exact (hrec _).trans (trigger_grows h)

theorem moveWord_grows (h : moveWord e v s = .ok t) : Grows s t := by
  obtain ⟨a, b, hw, hc, rfl⟩ := moveWord_cases h
  have ha : Grows s a := (record_grows _ s).trans (busWrite_grows hw)
  exact ((ha.trans (setCh_grows _ _ a)).trans (countWord_grows hc)).trans (endOfStep_grows b)

theorem fetchWord_grows (h : fetchWord e s = .ok (v, t)) : Grows s t := by
  obtain ⟨-, -, h⟩ := fetchWord_cases h
  exact busRead_grows h

theorem engineTurn_grows (e : Engine) (s : State) : Grows s (engineTurn e s) := by
  obtain ⟨-, h⟩ | ⟨-, ⟨t, ht, h⟩ | ⟨c, -, h⟩⟩ := engineTurn_cases e s <;> rw [h]
  · exact .refl s
  · obtain ⟨v, u, hf, hm⟩ := engineStep_cases ht
    exact (fetchWord_grows hf).trans (moveWord_grows hm)
  · exact raiseFault_grows c s

theorem engineTurnWith_grows (e : Engine) (v : Word) (s : State) : Grows s (engineTurnWith e v s) := by
  obtain ⟨-, h⟩ | ⟨-, ⟨t, ht, h⟩ | ⟨c, -, h⟩⟩ := engineTurnWith_cases e v s <;> rw [h]
  · exact .refl s
  · obtain ⟨w, u, hf, hm⟩ := engineStepWith_cases ht
    exact (fetchWord_grows hf).trans (moveWord_grows hm)
  · exact raiseFault_grows c s

theorem exec_grows {i : Instr} (h : exec i s = .next t) : Grows s t := by
  obtain ⟨-, ⟨c, rfl⟩ | ⟨off, v, m, h⟩ | ⟨v, rfl⟩ | ⟨c, a, rfl⟩⟩ := exec_cases h
  · exact raiseFault_grows c s
  · exact regWrite_grows h
  · exact .of_eq rfl rfl rfl
  · exact (engineTurnWith_grows .e0 c s).trans (engineTurnWith_grows .e0 a _)

theorem hostWrite_grows {a : Addr} {w : Width} (h : hostWrite a w v s = .ok t) : Grows s t := by
  obtain ⟨u, hu, rfl⟩ := hostWrite_cases h
  obtain ⟨-, rfl⟩ | ⟨-, -, rfl⟩ := raceWrite_cases hu
  · exact .of_eq rfl rfl rfl
  · exact .of_eq rfl rfl rfl

theorem hostAccess_grows {a : Addr} {w : Width} {d : Access} (h : hostAccess a w d s = .next t) : Grows s t := by
  obtain ⟨off, i, -, -, -, -, h⟩ | ⟨off, -, -, rfl⟩ | ⟨-, -, -, ⟨-, rfl⟩ | ⟨v, -, h | ⟨c, -, rfl⟩⟩⟩ :=
    hostAccess_cases h
  · exact exec_grows h
  · exact raiseFault_grows _ s
  · exact .of_eq rfl rfl rfl
  · exact hostWrite_grows h
  · exact raiseFault_grows c s

theorem hostTurn_grows (h : hostTurn s = .next t) : Grows s t := by
  obtain ⟨-, rfl⟩ | ⟨op, rest, a, w, d, u, -, hu, h⟩ := hostTurn_cases h
  · exact .refl t
  · obtain ⟨hc, he, ho⟩ := hostAccess_grows hu
    have hsu : Grows s u := ⟨hc, he, ho⟩
    obtain ⟨-, -, rfl⟩ | ⟨v, -, -, rfl⟩ | ⟨mask, -, -, -, rfl⟩ := h
    · exact hsu
    · exact hsu
    · split
      · exact hsu.trans (.of_eq rfl rfl rfl)
      · exact hsu

theorem takeTurn_grows {x : Turn} (h : takeTurn x s = .next t) : Grows s t := by
  obtain ⟨-, rfl⟩ | ⟨-, ⟨-, h⟩ | ⟨e, -, rfl⟩ | ⟨-, h⟩ | ⟨-, rfl⟩⟩ := takeTurn_cases h
  · exact .of_eq rfl rfl rfl
  · exact hostTurn_grows h
  · exact engineTurn_grows e s
  · obtain ⟨-, rfl⟩ | ⟨-, i, -, h⟩ := descriptorTurn_cases h
    · exact engineTurn_grows .e0 s
    · exact exec_grows h
  · exact .of_eq rfl rfl rfl

theorem nextTurn_grows (s : State) : Grows s (nextTurn s).2 := by
  obtain ⟨x, rest, -, h⟩ | ⟨-, h⟩ := nextTurn_cases s <;> rw [h] <;> exact .of_eq rfl rfl rfl

/-- Settles O53: the turn taken off, the turn and the end of the step each keep the parameters and only append. -/
theorem historiesOnlyGrow : Obligations.HistoriesOnlyGrow := by
  intro s t h
  obtain ⟨u, hu, rfl⟩ := step_next h
  obtain ⟨hc, he, ho⟩ := ((nextTurn_grows s).trans (takeTurn_grows hu)).trans (endOfStep_grows u)
  exact ⟨hc, he, ho⟩

end Sys2Proof.Machine
end

section
/-! SUPPORT. A faulting step (00_scope.md rule R11, 60_exceptions.md rule R321): where an operation answers a state, it has not touched
`FAULT`, so a record that a step leaves was raised on the state before it. -/

namespace Sys2Proof.Machine

variable {s t u : State} {m : Master} {v : Word}

/-- The instruction is one of the two descriptor rows. -/
def isDescriptor : Instr → Bool
  | .descData _ _ | .descSentinel _ => true
  | _ => false

theorem isDescriptor_eq_false {i : Instr} (hd : ∀ x a, i ≠ .descData x a) (hs : ∀ a, i ≠ .descSentinel a) :
    isDescriptor i = false := by
  cases i with
  | descData c a => exact absurd rfl (hd c a)
  | descSentinel a => exact absurd rfl (hs a)
  | _ => rfl

/-! ### No window command is a descriptor -/

theorem channelRead_not_descriptor (k : Nat) (e : Engine) : isDescriptor (channelRead k e) = false := by
  unfold channelRead; split <;> rfl

theorem channelWrite_not_descriptor (k : Nat) (e : Engine) (v : Word) (m : Master) :
    isDescriptor (channelWrite k e v m) = false := by
  unfold channelWrite; split <;> rfl

theorem globalCommand_not_descriptor (g : BitVec 5) (d : Access) (m : Master) :
    isDescriptor (globalCommand g d m) = false := by
  unfold globalCommand
  cases d <;> repeat' split
  all_goals rfl

theorem commandAt_not_descriptor (off : BitVec 8) (d : Access) (m : Master) :
    isDescriptor (commandAt off d m) = false := by
  unfold commandAt
  split
  · exact globalCommand_not_descriptor _ d m
  · cases d with
    | read => exact channelRead_not_descriptor _ _
    | write v => exact channelWrite_not_descriptor _ _ v m

/-- What arrives at the window decodes to a register-access command (30_encoding.md rule R111). -/
theorem decode_window_not_descriptor {bytes : List Byte} {i : Instr} (h : decode (.window m) bytes = .ok i) :
    isDescriptor i = false := by
  simp only [decode, decodeCommand] at h
  split at h
  · split at h
    · cases h
    · split at h
      · cases h
      · split at h
        · cases h; exact commandAt_not_descriptor _ _ m
        · cases h
  · cases h

/-! ### No answer touches the record -/

theorem slotWrite_fault {e : Engine} {r : ChanReg} {trig : Bool} (h : slotWrite e r trig v m s = .ok t) : t.fault = s.fault := by
  obtain ⟨-, -, ⟨-, rfl⟩ | ⟨-, h⟩⟩ := slotWrite_cases h
  · simp
  · rw [(trigger_outside h).fault, chanWrite_fault]

theorem startWrite_fault (h : startWrite v m s = .ok t) : t.fault = s.fault :=
  (regWrite_outside (off := 0x84) h).fault

/-- A command ends by `conclude` on an answer that has not touched the record. -/
theorem exec_command {i : Instr} (h : isDescriptor i = false) (s : State) :
    ∃ r, exec i s = conclude s r ∧ ∀ t, r = .ok t → t.fault = s.fault := by
  cases i with
  | descData | descSentinel => cases h
  | wrReadAddr | wrWriteAddr | wrTransCount | wrCtrlTrig | wrAl1Ctrl | wrAl1ReadAddr | wrAl1WriteAddr | wrAl1TransCountTrig
  | wrAl2Ctrl | wrAl2TransCount | wrAl2ReadAddr | wrAl2WriteAddrTrig | wrAl3Ctrl | wrAl3WriteAddr | wrAl3TransCount
  | wrAl3ReadAddrTrig => exact ⟨_, rfl, fun _ h => slotWrite_fault h⟩
  | wrIntr v => exact ⟨.ok (intrWrite v s), rfl, by rintro t ⟨⟩; exact intrWrite_fault s v⟩
  | wrStart => exact ⟨_, rfl, fun _ h => startWrite_fault h⟩
  | wrBusy => exact ⟨.ok s, rfl, by rintro t ⟨⟩; rfl⟩
  | reserved8C | reserved90 | reservedA0 | reservedC0 => exact ⟨.error .reservedOffset, rfl, nofun⟩
  | _ => exact ⟨.ok { s with rdata := _ }, rfl, by rintro t ⟨⟩; rfl⟩

/-- A command that leaves a fault record leaves that record and nothing else. -/
theorem exec_faulted {i : Instr} {c : FaultCode} (hi : isDescriptor i = false) (h : exec i s = .next t)
    (hc : t.fault = some c) : t = raiseFault c s := by
  obtain ⟨r, hr, hkeep⟩ := exec_command hi s
  obtain ⟨hf, hok | ⟨k, -, rfl⟩⟩ := conclude_cases (hr ▸ h)
  · rw [hkeep t hok, hf] at hc; cases hc
  · cases hc; rfl

theorem engineTurn_faulted {e : Engine} {c : FaultCode} (hf : s.fault = none) (hc : (engineTurn e s).fault = some c) :
    engineTurn e s = raiseFault c s := by
  obtain ⟨-, h⟩ | ⟨-, ⟨t, ht, h⟩ | ⟨k, -, h⟩⟩ := engineTurn_cases e s <;> rw [h] at hc ⊢
  · rw [hf] at hc; cases hc
  · rw [(engineStep_outside ht).fault, hf] at hc; cases hc
  · cases hc; rfl

theorem hostWrite_fault {a : Addr} {w : Width} (h : hostWrite a w v s = .ok t) : t.fault = s.fault := by
  obtain ⟨u, hu, rfl⟩ := hostWrite_cases h
  obtain ⟨-, rfl⟩ | ⟨-, -, rfl⟩ := raceWrite_cases hu <;> rfl

theorem hostAccess_faulted {a : Addr} {w : Width} {d : Access} {c : FaultCode} (h : hostAccess a w d s = .next t)
    (hc : t.fault = some c) : t = raiseFault c s := by
  obtain ⟨off, i, -, -, -, hi, h⟩ | ⟨off, -, -, rfl⟩ | ⟨-, -, hf, ⟨-, rfl⟩ | ⟨v, -, h | ⟨k, -, rfl⟩⟩⟩ :=
    hostAccess_cases h
  · exact exec_faulted (decode_window_not_descriptor hi) h hc
  · cases hc; rfl
  · rw [show (hostRead a w s).fault = s.fault from rfl, hf] at hc; cases hc
  · rw [hostWrite_fault h, hf] at hc; cases hc
  · cases hc; rfl

/-- A `POLL` whose read faulted is not put back, since only a state without a fault record polls again. -/
theorem pollAgain_faulted {c : FaultCode} (mask : Word) (h : s.fault = some c) : pollAgain mask s = false := by
  simp [pollAgain, h]

/-- A host turn that faults takes its command off the program and leaves the record. -/
theorem hostTurn_faulted {c : FaultCode} (hf : s.fault = none) (h : hostTurn s = .next t) (hc : t.fault = some c) :
    ∃ op ops, s.host = op :: ops ∧ t = raiseFault c { s with host := ops } := by
  obtain ⟨-, rfl⟩ | ⟨op, ops, a, w, d, u, hh, hu, hop⟩ := hostTurn_cases h
  · rw [hf] at hc; cases hc
  · have htu : t = u := by
      obtain ⟨-, -, h⟩ | ⟨v, -, -, h⟩ | ⟨mask, -, -, -, rfl⟩ := hop
      · exact h
      · exact h
      · have huc : u.fault = some c := by split at hc <;> exact hc
        rw [pollAgain_faulted mask huc]; rfl
    subst htu
    exact ⟨op, ops, hh, hostAccess_faulted hu hc⟩

/-- Settles O33: each of the three kinds of step raises its fault on the state before it. -/
theorem aFaultingStepWritesOnlyTheRecord : Obligations.AFaultingStepWritesOnlyTheRecord :=
  ⟨fun _ _ _ _ hd hs h hc => exec_faulted (isDescriptor_eq_false hd hs) h hc,
    fun _ _ _ hf hc => engineTurn_faulted hf hc,
    fun _ _ _ hf h hc => hostTurn_faulted hf h hc⟩

end Sys2Proof.Machine
end

section
/-! SUPPORT. The CTE's two words (42_engine_transfer.md rule R248): the count goes to the DTE's RELOAD, the address to its READ_ADDR,
whose slot triggers; and the descriptor turn, which is both words (log entry 5). -/

namespace Sys2Proof.Machine

open Sys2Proof.Claims

variable {s t a : State} {e : Engine} {v : Word}

/-! ### Triggers that answer (41_trigger_and_completion.md rule R201) -/

theorem trigger_of_null (hb : (s.ch e).busy = false) (hen : ctrlEn (s.ch e).ctrl = true) (hr : (s.ch e).reload = 0) :
    trigger e s = .ok ((s.setCh e { s.ch e with done := true }).record (.null e)) := by
  simp [trigger, hb, hen, hr]

theorem trigger_of_block (hb : (s.ch e).busy = false) (hen : ctrlEn (s.ch e).ctrl = true) (hr : (s.ch e).reload ≠ 0)
    (hd : ctrlDataSize (s.ch e).ctrl = wordSize) :
    trigger e s = .ok ((s.setCh e { s.ch e with remaining := (s.ch e).reload, busy := true }).record
      (.block e (s.ch e).readAddr (s.ch e).writeAddr (s.ch e).reload)) := by
  rw [trigger, if_neg (by simp [hb]), if_neg (by simp [hen]), if_neg hr, if_neg (by simp [hd])]

/-! ### The two words -/

theorem busWrite_of_count {x : Addr} (hr : region s.cfg x = .window 0x78) (hb : s.ch1.busy = false) :
    busWrite .e0 x v s = .ok (s.setCh .e1 { s.ch1 with reload := v }) := by
  simp only [busWrite, hr]
  show slotWrite .e1 .transCount false v (.engine .e0) s = _
  simp [slotWrite, hb, chanWrite, State.setCh]

theorem busWrite_of_address {x : Addr} (hr : region s.cfg x = .window 0x7C) (hb : s.ch1.busy = false) :
    busWrite .e0 x v s = trigger .e1 (s.setCh .e1 { s.ch1 with readAddr := v }) := by
  simp only [busWrite, hr]
  show slotWrite .e1 .readAddr true v (.engine .e0) s = _
  simp [slotWrite, hb, chanWrite, State.setCh]

/-- The CTE's first word: the DTE's RELOAD holds the count, and engine 0 goes on. -/
theorem engineTurn_loads_count (h : ReadsRam .e0 s) (hr : region s.cfg s.ch0.writeAddr = .window 0x78)
    (hb : s.ch1.busy = false) (hn : s.ch0.remaining ≠ 1) :
    engineTurn .e0 s = { s with
      ch0 := advanced .e0 s
      ch1 := { s.ch1 with reload := sourceWord .e0 s }
      rset := addSpan s.ch0.readAddr.toNat 4 s.rset
      ev := s.ev ++ [wordEvent .e0 s] } := by
  obtain ⟨-, hbusy, -⟩ := engineEnabled_iff.1 h.enabled
  rw [engineTurn_of_readsRam h (busWrite_of_count hr hb) (countWord_of_more hn), endOfStep_of_busy (e := .e0) (by exact hbusy)]
  rfl

/-- The state in which the CTE's second word triggers the DTE. -/
def addressLoaded (s : State) : State :=
  { s with
    ch1 := { s.ch1 with readAddr := sourceWord .e0 s }
    rset := addSpan s.ch0.readAddr.toNat 4 s.rset
    ev := s.ev ++ [wordEvent .e0 s] }

/-- The CTE's second word: the DTE's trigger, then engine 0's block ends without a chain. -/
theorem engineTurn_loads_address (h : ReadsRam .e0 s) (hr : region s.cfg s.ch0.writeAddr = .window 0x7C)
    (hb : s.ch1.busy = false) (hn : s.ch0.remaining = 1) (hc : ctrlChainEn s.ch0.ctrl = false)
    (ht : trigger .e1 (addressLoaded s) = .ok a) :
    engineTurn .e0 s = endOfStep ((a.setCh .e0 { advanced .e0 s with busy := false }).record (.complete .e0)) := by
  have ha : a.ch0 = s.ch0 := by
    obtain ⟨-, hother, -⟩ := trigger_frame ht
    exact hother .e0 (by decide)
  have hw : busWrite .e0 s.ch0.writeAddr (sourceWord .e0 s) ((readTracked .e0 s).record (wordEvent .e0 s)) = .ok a :=
    (busWrite_of_address (s := (readTracked .e0 s).record (wordEvent .e0 s)) hr hb).trans ht
  refine engineTurn_of_readsRam h hw ?_
  have hadv : a.setCh .e0 (advance s.ch0.readAddr s.ch0.writeAddr a.ch0) =
      a.setCh .e0 (advance s.ch0.readAddr s.ch0.writeAddr s.ch0) := by rw [ha]
  simp only [ch_e0, hadv]
  rw [countWord_of_last (by exact hn), chain, if_neg (by simp [hc, advance])]
  rfl

/-! ### The descriptor turn -/

/-- A word step with the word that its read gives, if it gives one, is the word step. -/
theorem engineTurnWith_eq_engineTurn (h : ∀ w t, fetchWord e s = .ok (w, t) → w = v) :
    engineTurnWith e v s = engineTurn e s := by
  unfold engineTurnWith engineTurn
  cases hf : fetchWord e s with
  | error c => simp [engineStepWith, engineStep, hf]
  | ok p =>
    obtain ⟨w, t⟩ := p
    obtain rfl := h w t hf
    rw [engineStepWith_eq hf]

theorem decode_descriptorBytes (m : Memory) (d : Addr) : decode .list (descriptorBytes m d) =
    if readWord m d.toNat = 0 then .ok (.descSentinel (readWord m (wordAt d 1).toNat))
    else .ok (.descData (readWord m d.toNat) (readWord m (wordAt d 1).toNat)) := rfl

/-- Running the decoded descriptor is loading the two words that memory holds. -/
theorem descriptorTurn_loads (hf : s.fault = none) (h : atDescriptor s = true) :
    descriptorTurn s = .next (loadDescriptor (readWord s.ram s.ch0.readAddr.toNat)
      (readWord s.ram (wordAt s.ch0.readAddr 1).toNat) s) := by
  simp only [descriptorTurn, h, if_true, decode_descriptorBytes]
  split
  · next i hi =>
    split at hi
    · next h0 => cases hi; rw [exec, execDescSentinel, conclude_ok hf, h0]
    · cases hi; rw [exec, execDescData, conclude_ok hf]
  · next hi => split at hi <;> cases hi

/-- A read of RAM that answers gives the word there, and found nothing of it written by the host. -/
theorem fetchWord_ram (hr : region s.cfg (s.ch e).readAddr = .ram) (h : fetchWord e s = .ok (v, t)) :
    meetsSpan (s.ch e).readAddr.toNat 4 s.wset = false ∧ v = sourceWord e s ∧ t = readTracked e s := by
  obtain ⟨-, -, h⟩ := fetchWord_cases h
  obtain ⟨-, hq, rfl, rfl⟩ | ⟨off, hwin, -⟩ := busRead_cases h
  · exact ⟨hq, rfl, rfl⟩
  · rw [hr] at hwin; cases hwin

/-- A CTE word that was moved into the DTE's RELOAD found the DTE idle (40_host_register_access.md rule R141). -/
theorem idle_of_busWrite_count {x : Addr} (hr : region s.cfg x = .window 0x78) (h : busWrite .e0 x v s = .ok t) :
    s.ch1.busy = false := by
  simp only [busWrite, hr] at h
  exact (slotWrite_cases (e := .e1) (r := .transCount) (trig := false) h).1

/-- The turn before a whole descriptor is two word steps of engine 0 (log entry 5). -/
theorem descriptorTurn_of_atDescriptor (hf : s.fault = none) (h : atDescriptor s = true) :
    descriptorTurn s = .next (engineTurn .e0 (engineTurn .e0 s)) := by
  rw [descriptorTurn_loads hf h, loadDescriptor]
  simp only [atDescriptor, Bool.and_eq_true, beq_iff_eq] at h
  obtain ⟨⟨⟨⟨⟨⟨⟨⟨⟨⟨⟨⟨hen, hrem⟩, hinc⟩, -⟩, -⟩, -⟩, -⟩, hwin⟩, -⟩, -⟩, hring⟩, hram⟩, hram'⟩ := h
  have hfirst : engineTurnWith .e0 (readWord s.ram s.ch0.readAddr.toNat) s = engineTurn .e0 s :=
    engineTurnWith_eq_engineTurn fun w t hw => by
      obtain ⟨-, hword, -⟩ := fetchWord_ram hram hw
      exact hword
  rw [hfirst]
  congr 1
  obtain ⟨hno, -⟩ | ⟨-, ⟨u, hu, -⟩ | ⟨c, -, hturn⟩⟩ := engineTurn_cases .e0 s
  · rw [hen] at hno; cases hno
  · obtain ⟨v, t, hfetch, hmove⟩ := engineStep_cases hu
    obtain ⟨hra, hwa, -⟩ := fetchWord_cases hfetch
    obtain ⟨hq, rfl, rfl⟩ := fetchWord_ram hram hfetch
    obtain ⟨a, b, hw, -⟩ := moveWord_cases hmove
    have hidle : s.ch1.busy = false := idle_of_busWrite_count (s := (readTracked .e0 s).record _) hwin hw
    rw [engineTurn_loads_count ⟨hen, hra, hwa, hram, hq⟩ hwin hidle (by rw [hrem]; decide)]
    have hnext : (advanced .e0 s).readAddr = wordAt s.ch0.readAddr 1 := by simp [advanced, hinc, hring]
    refine engineTurnWith_eq_engineTurn fun w t hw => ?_
    obtain ⟨-, rfl, -⟩ := fetchWord_ram (by simpa [hnext] using hram') hw
    simp [sourceWord, hnext]
  · rw [hturn]
    simp [engineTurnWith, engineTurn, engineEnabled]

end Sys2Proof.Machine
end

section
/-! SUPPORT. Regions of legal parameters (20_memory.md rules R60 to R62), and the CTE's write ring, which goes back and forth between
the last two offsets of the DTE's alias 3 (42_engine_transfer.md rule R248). -/

namespace Sys2Proof.Machine

/-- With legal parameters ordinary memory lies outside the window and is not the FIFO port. -/
theorem region_of_isRam {cfg : Config} {a : Addr} (hwf : Config.wf cfg = true) (h : isRam cfg a = true) :
    region cfg a = .ram := by
  have h8 : cfg.blkBase.toNat % 256 = 0 := by
    simpa [BitVec.extractLsb'_toNat] using congrArg BitVec.toNat (blkBase_of_wf hwf)
  simp only [Config.wf, Bool.and_eq_true, Bool.or_eq_true, Bool.not_eq_true', List.all_eq_true, decide_eq_true_eq] at hwf
  obtain ⟨⟨⟨-, hfifo⟩, -⟩, hranges⟩ := hwf
  have hout : inWindow cfg a = false := by
    obtain ⟨r, hr, hin⟩ := List.any_eq_true.1 h
    have hrange := (hranges r hr).2
    simp only [inRange, Bool.and_eq_true, decide_eq_true_eq] at hin
    simp only [inWindow, Bool.and_eq_false_iff, decide_eq_false_iff_not]
    omega
  have hne : a ≠ cfg.outFifoAddr := by
    rintro rfl
    rw [h] at hfifo; cases hfifo
  simp [region, hout, hne, h]

/-- With legal parameters the FIFO port decodes to the FIFO, and is aligned. -/
theorem region_outFifoAddr {cfg : Config} (hwf : Config.wf cfg = true) :
    region cfg cfg.outFifoAddr = .fifo ∧ wordAligned cfg.outFifoAddr = true := by
  simp only [Config.wf, Bool.and_eq_true, Bool.not_eq_true'] at hwf
  obtain ⟨⟨⟨⟨⟨-, hal⟩, hout⟩, -⟩, -⟩, -⟩ := hwf
  exact ⟨by simp [region, hout], hal⟩

/-- A window address is the window's base with its low byte replaced. -/
theorem windowAddr_eq_append {cfg : Config} (h : cfg.blkBase.extractLsb' 0 8 = 0#8) (off : BitVec 8) :
    windowAddr cfg off = cfg.blkBase.extractLsb' 8 24 ++ off := by
  apply BitVec.eq_of_toNat_eq
  have h8 : cfg.blkBase.toNat % 256 = 0 := by
    simpa [BitVec.extractLsb'_toNat] using congrArg BitVec.toNat h
  have hlt := cfg.blkBase.isLt
  have hoff := off.isLt
  rw [windowAddr_toNat h, BitVec.toNat_append, ← Nat.shiftLeft_add_eq_or_of_lt hoff, BitVec.extractLsb'_toNat,
    Nat.shiftLeft_eq, Nat.shiftRight_eq_div_pow]
  omega

/-- A ring of 8 bytes keeps bits 31:3 of a window address and takes the rest from the next word (30_encoding.md rule R114). -/
theorem ringInc_windowAddr {cfg : Config} (h : cfg.blkBase.extractLsb' 0 8 = 0#8) {off next : BitVec 8}
    (hn : off.zeroExtend 32 + 4#32 = next.zeroExtend 32) :
    ringInc (windowAddr cfg off) 3 = windowAddr cfg ((off &&& 0xF8) ||| (next &&& 7)) := by
  have hnext : windowAddr cfg off + 4 = windowAddr cfg next := by
    rw [windowAddr, BitVec.add_assoc, windowAddr, ← hn]
    rfl
  have hkeep : ~~~((1#32 <<< (3 : BitVec 4).toNat) - 1) = BitVec.allOnes 24 ++ 0xF8#8 := by decide
  have hmask : (1#32 <<< (3 : BitVec 4).toNat) - 1 = 0#24 ++ 7#8 := by decide
  rw [ringInc, if_neg (by decide), hnext, hkeep, hmask]
  simp only [windowAddr_eq_append h]
  rw [BitVec.and_append, BitVec.and_append, BitVec.or_append, BitVec.and_allOnes, BitVec.and_zero, BitVec.or_zero]
  rfl

theorem ringInc_count_offset {cfg : Config} (h : cfg.blkBase.extractLsb' 0 8 = 0#8) :
    ringInc (windowAddr cfg 0x78) 3 = windowAddr cfg 0x7C := ringInc_windowAddr h (next := 0x7C) (by decide)

theorem ringInc_address_offset {cfg : Config} (h : cfg.blkBase.extractLsb' 0 8 = 0#8) :
    ringInc (windowAddr cfg 0x7C) 3 = windowAddr cfg 0x78 := ringInc_windowAddr h (next := 0x80) (by decide)

end Sys2Proof.Machine
end

section
/-! SUPPORT. The round trip of a finite list (43_pipeline_protocol.md rules R296 to R298), by an invariant of a `FINITE` pipeline: it
stands before a count, before an address, before a sample, or has halted; every turn keeps it or moves it on. -/

namespace Sys2Proof.Machine

open Sys2Proof.Claims

variable {s t u : State} {d : Addr} {n k i : Nat} {c0 c1 : Channel} {out : List Word}

/-! ### What a started pipeline's list says -/

theorem started_count_ne_zero (hs : FiniteStarted d n s) (hk : k < n) : (descriptorAt s.ram d k).1 ≠ 0 := by
  have h := hs.list
  simp only [isFiniteList, Bool.and_eq_true, List.all_eq_true, List.mem_range, bne_iff_ne] at h
  obtain ⟨⟨-, hcounts⟩, -⟩ := h
  exact hcounts k hk

theorem started_count_end (hs : FiniteStarted d n s) : (descriptorAt s.ram d n).1 = 0 := by
  have h := hs.list
  simp only [isFiniteList, Bool.and_eq_true, beq_iff_eq] at h
  obtain ⟨-, hend⟩ := h
  exact hend

theorem started_aligned (hs : FiniteStarted d n s) : wordAligned d = true := by
  have h := hs.list
  simp only [isFiniteList, Bool.and_eq_true] at h
  obtain ⟨⟨⟨haligned, -⟩, -⟩, -⟩ := h
  exact haligned

theorem region_of_wordsInRam {cfg : Config} {a : Addr} {j : Nat} (hwf : Config.wf cfg = true)
    (h : wordsInRam cfg a k = true) (hj : j < k) : region cfg (wordAt a j) = .ram := by
  simp only [wordsInRam, List.all_eq_true, List.mem_range] at h
  exact region_of_isRam hwf (h j hj)

theorem started_list_ram (hs : FiniteStarted d n s) {j : Nat} (hj : j < 2 * (n + 1)) :
    region s.cfg (wordAt d j) = .ram := by
  have h := hs.list
  simp only [isFiniteList, Bool.and_eq_true] at h
  obtain ⟨⟨⟨-, hram⟩, -⟩, -⟩ := h
  exact region_of_wordsInRam hs.cfgWf hram hj

theorem started_buffer_ram (hs : FiniteStarted d n s) (hk : k < n) (hi : i < (descriptorAt s.ram d k).1.toNat) :
    region s.cfg (wordAt (descriptorAt s.ram d k).2 i) = .ram :=
  region_of_wordsInRam hs.cfgWf (hs.buffers k hk).2 hi

/-! ### Samples -/

theorem samples_eq_bufferWords (m : Memory) (c : Word × Word) : samples m c = bufferWords m c.2 c.1.toNat := rfl

theorem delivered_succ (m : Memory) (d : Addr) (k : Nat) :
    delivered m d (k + 1) = delivered m d k ++ samples m (descriptorAt m d k) := by
  simp [delivered, List.range_succ]

theorem delivered_prefix (m : Memory) (d : Addr) (h : k ≤ n) : delivered m d k <+: delivered m d n := by
  induction n, h using Nat.le_induction with
  | base => exact List.prefix_rfl
  | succ j _ ih => rw [delivered_succ]; exact ih.trans (List.prefix_append _ _)

theorem bufferWords_prefix (m : Memory) (a : Addr) {j : Nat} (h : i ≤ j) : bufferWords m a i <+: bufferWords m a j := by
  induction j, h using Nat.le_induction with
  | base => exact List.prefix_rfl
  | succ j _ ih => rw [bufferWords_succ]; exact ih.trans (List.prefix_append _ _)

/-- A part of buffer `k` after the buffers before it is a part of the whole delivery. -/
theorem partial_delivery_prefix (m : Memory) (d : Addr) (hk : k < n) (hi : i ≤ (descriptorAt m d k).1.toNat) :
    delivered m d k ++ bufferWords m (descriptorAt m d k).2 i <+: delivered m d n := by
  refine List.IsPrefix.trans ?_ (delivered_prefix m d (show k + 1 ≤ n from hk))
  rw [delivered_succ, samples_eq_bufferWords]
  exact (List.prefix_append_right_inj _).2 (bufferWords_prefix m _ hi)

/-! ### The invariant -/

/-- What no turn of the sequencer changes in a `FINITE` pipeline started in `s`. -/
structure FiniteFrame (s t : State) : Prop where
  cfg : t.cfg = s.cfg
  ram : t.ram = s.ram
  noFault : t.fault = none
  hostQuiet : t.wset = []
  cteReload : t.ch0.reload = 2
  cteCtrl : t.ch0.ctrl = ctrlStored (cteCtrl 0 3)
  dteTarget : t.ch1.writeAddr = s.cfg.outFifoAddr
  dteCtrl : t.ch1.ctrl = ctrlStored (dteCtrl .e0)

/-- Engine 0 is before the count of descriptor `k`; the buffers before `k` are delivered. -/
structure AtCount (s : State) (d : Addr) (n k : Nat) (c0 c1 : Channel) (out : List Word) : Prop where
  inList : k ≤ n
  cteBusy : c0.busy = true
  cteCounts : c0.remaining = 2
  cteRead : c0.readAddr = wordAt d (2 * k)
  cteWrite : c0.writeAddr = windowAddr s.cfg 0x78
  dteIdle : c1.busy = false
  notDone : c1.done = false
  out : out = s.out ++ delivered s.ram d k

/-- Engine 0 is before the address of descriptor `k`, whose count the DTE's RELOAD holds. -/
structure AtAddress (s : State) (d : Addr) (n k : Nat) (c0 c1 : Channel) (out : List Word) : Prop where
  inList : k ≤ n
  cteBusy : c0.busy = true
  cteCounts : c0.remaining = 1
  cteRead : c0.readAddr = wordAt d (2 * k + 1)
  cteWrite : c0.writeAddr = windowAddr s.cfg 0x7C
  dteIdle : c1.busy = false
  dteReload : c1.reload = (descriptorAt s.ram d k).1
  notDone : c1.done = false
  out : out = s.out ++ delivered s.ram d k

/-- Engine 1 is before word `i` of buffer `k`; engine 0 waits before descriptor `k + 1`. -/
structure AtSample (s : State) (d : Addr) (n k i : Nat) (c0 c1 : Channel) (out : List Word) : Prop where
  inList : k < n
  inBuffer : i < (descriptorAt s.ram d k).1.toNat
  cteIdle : c0.busy = false
  cteRead : c0.readAddr = wordAt d (2 * (k + 1))
  cteWrite : c0.writeAddr = windowAddr s.cfg 0x78
  dteBusy : c1.busy = true
  dteRead : c1.readAddr = wordAt (descriptorAt s.ram d k).2 i
  dteCounts : c1.remaining = (descriptorAt s.ram d k).1 - BitVec.ofNat 32 i
  notDone : c1.done = false
  out : out = s.out ++ (delivered s.ram d k ++ bufferWords s.ram (descriptorAt s.ram d k).2 i)

/-- The sentinel has halted the pipeline; everything is delivered. -/
structure AtHalt (s : State) (d : Addr) (n : Nat) (c0 c1 : Channel) (out : List Word) : Prop where
  cteIdle : c0.busy = false
  dteIdle : c1.busy = false
  done : c1.done = true
  out : out = s.out ++ delivered s.ram d n

/-- Where a `FINITE` pipeline can stand. -/
inductive FinitePhase (s : State) (d : Addr) (n : Nat) (c0 c1 : Channel) (out : List Word) : Prop where
  | count (k : Nat) (h : AtCount s d n k c0 c1 out)
  | address (k : Nat) (h : AtAddress s d n k c0 c1 out)
  | sample (k i : Nat) (h : AtSample s d n k i c0 c1 out)
  | halt (h : AtHalt s d n c0 c1 out)

/-- The invariant: `t` is a state of the `FINITE` pipeline started in `s`. -/
structure FinitePipeline (s : State) (d : Addr) (n : Nat) (t : State) : Prop where
  frame : FiniteFrame s t
  phase : FinitePhase s d n t.ch0 t.ch1 t.out

theorem FinitePipeline.start (hs : FiniteStarted d n s) : FinitePipeline s d n s := by
  obtain ⟨hread, hwrite, hreload, hremaining, hctrl, hbusy⟩ := hs.cte
  obtain ⟨htarget, hdctrl, hidle, hdone⟩ := hs.dte
  exact ⟨⟨rfl, rfl, hs.noFault, hs.hostQuiet, hreload, hctrl, htarget, hdctrl⟩,
    .count 0 ⟨Nat.zero_le n, hbusy, hremaining, by simpa using hread, hwrite, hidle, hdone, by simp [delivered]⟩⟩

/-- The invariant does not speak of FIFO, RSET, EV and the model's own fields. -/
theorem FinitePipeline.congr (h : FinitePipeline s d n t) (hcfg : u.cfg = t.cfg) (h0 : u.ch0 = t.ch0) (h1 : u.ch1 = t.ch1)
    (hram : u.ram = t.ram) (hout : u.out = t.out) (hfault : u.fault = t.fault) (hwset : u.wset = t.wset) :
    FinitePipeline s d n u := by
  obtain ⟨⟨a, b, c, e, f, g, i, j⟩, p⟩ := h
  rw [← hcfg] at a
  rw [← hram] at b
  rw [← hfault] at c
  rw [← hwset] at e
  rw [← h0] at f g
  rw [← h1] at i j
  rw [← h0, ← h1, ← hout] at p
  exact ⟨⟨a, b, c, e, f, g, i, j⟩, p⟩

/-- The end of a step leaves an empty WSET empty (20_memory.md rule R79). -/
theorem endOfStep_wset_nil (h : t.wset = []) : (endOfStep t).wset = [] := by
  obtain ⟨hk, -⟩ | ⟨hk, -⟩ := endOfStep_cases t <;> rw [hk]
  exact h

theorem FinitePipeline.keeps_endOfStep (h : FinitePipeline s d n t) : FinitePipeline s d n (endOfStep t) :=
  h.congr (by simp) (by simp) (by simp) (by simp) (by simp) (by simp)
    ((endOfStep_wset_nil h.frame.hostQuiet).trans h.frame.hostQuiet.symm)

/-! ### The CTE's turns -/

/-- Engine 0 before word `j` of the list reads RAM. -/
theorem cte_readsRam (hs : FiniteStarted d n s) (hf : FiniteFrame s t) (hb : t.ch0.busy = true) {j : Nat} {off : BitVec 8}
    (hr : t.ch0.readAddr = wordAt d j) (hj : j < 2 * (n + 1)) (hw : t.ch0.writeAddr = windowAddr s.cfg off)
    (ho : off.toNat % 4 = 0) : ReadsRam .e0 t := by
  obtain ⟨-, -, -, -, -, -, hpaced, -⟩ := cteCtrl_fields 0
  constructor
  · exact engineEnabled_iff.2 ⟨hf.noFault, hb, .inl (by rw [ch_e0, hf.cteCtrl]; exact hpaced)⟩
  · rw [ch_e0, hr]; exact wordAt_aligned j (started_aligned hs)
  · rw [ch_e0, hw]; exact windowAddr_aligned (blkBase_of_wf hs.cfgWf) off ho
  · rw [ch_e0, hr, hf.cfg]; exact started_list_ram hs hj
  · rw [hf.hostQuiet, meetsSpan_nil]

/-- Engine 0's registers after a word at list word `j`. -/
theorem cte_advanced (hf : FiniteFrame s t) {j : Nat} (hr : t.ch0.readAddr = wordAt d j) :
    advanced .e0 t = { t.ch0 with
      readAddr := wordAt d (j + 1)
      writeAddr := ringInc t.ch0.writeAddr 3
      remaining := t.ch0.remaining - 1 } := by
  obtain ⟨-, -, hincr, hincw, hrring, hwring, -, -⟩ := cteCtrl_fields 0
  simp only [advanced, ch_e0, hf.cteCtrl, hincr, hincw, hrring, hwring, hr, ringInc_wordAt, if_true]

theorem cte_counts (hs : FiniteStarted d n s) (hf : FiniteFrame s t) (h : AtCount s d n k t.ch0 t.ch1 t.out) :
    FinitePipeline s d n (engineTurn .e0 t) := by
  have hin := h.inList
  have hblk := blkBase_of_wf hs.cfgWf
  have hreads := cte_readsRam hs hf h.cteBusy h.cteRead (by omega) h.cteWrite (by decide)
  have hwin : region t.cfg t.ch0.writeAddr = .window 0x78 := by rw [h.cteWrite, hf.cfg]; exact region_windowAddr hblk _
  rw [engineTurn_loads_count hreads hwin h.dteIdle (by rw [h.cteCounts]; decide), cte_advanced hf h.cteRead]
  refine ⟨⟨hf.cfg, hf.ram, hf.noFault, hf.hostQuiet, hf.cteReload, hf.cteCtrl, hf.dteTarget, hf.dteCtrl⟩, .address k ?_⟩
  constructor
  · exact hin
  · exact h.cteBusy
  · show t.ch0.remaining - 1 = 1
    rw [h.cteCounts]; rfl
  · rfl
  · show ringInc t.ch0.writeAddr 3 = _
    rw [h.cteWrite]; exact ringInc_count_offset hblk
  · exact h.dteIdle
  · show readWord t.ram t.ch0.readAddr.toNat = _
    rw [hf.ram, h.cteRead]; rfl
  · exact h.notDone
  · exact h.out

/-- The CTE's second word, for the state that the DTE's trigger answers. -/
theorem cte_addresses (hs : FiniteStarted d n s) (hf : FiniteFrame s t) (h : AtAddress s d n k t.ch0 t.ch1 t.out) {a : State}
    (ht : trigger .e1 (addressLoaded t) = .ok a) :
    engineTurn .e0 t = endOfStep ((a.setCh .e0 { t.ch0 with
      readAddr := wordAt d (2 * (k + 1)), writeAddr := windowAddr s.cfg 0x78, remaining := 0, busy := false }).record
        (.complete .e0)) := by
  have hin := h.inList
  have hblk := blkBase_of_wf hs.cfgWf
  obtain ⟨-, -, -, -, -, -, -, hchain⟩ := cteCtrl_fields 0
  have hreads := cte_readsRam hs hf h.cteBusy h.cteRead (by omega) h.cteWrite (by decide)
  have hwin : region t.cfg t.ch0.writeAddr = .window 0x7C := by rw [h.cteWrite, hf.cfg]; exact region_windowAddr hblk _
  rw [engineTurn_loads_address hreads hwin h.dteIdle h.cteCounts (by rw [hf.cteCtrl]; exact hchain) ht,
    cte_advanced hf h.cteRead, h.cteWrite, ringInc_address_offset hblk, h.cteCounts]
  rfl

theorem cte_starts_buffer (hs : FiniteStarted d n s) (hf : FiniteFrame s t) (h : AtAddress s d n k t.ch0 t.ch1 t.out)
    (hk : k < n) : FinitePipeline s d n (engineTurn .e0 t) := by
  have hne := started_count_ne_zero hs hk
  obtain ⟨hen, hsize, -⟩ := dteCtrl_fields .e0
  have ht := trigger_of_block (e := .e1) (s := addressLoaded t) h.dteIdle (by rw [← hf.dteCtrl] at hen; exact hen)
    (by rw [← h.dteReload] at hne; exact hne) (by rw [← hf.dteCtrl] at hsize; exact hsize)
  rw [cte_addresses hs hf h ht]
  refine FinitePipeline.keeps_endOfStep ⟨⟨hf.cfg, hf.ram, hf.noFault, hf.hostQuiet, hf.cteReload, hf.cteCtrl, hf.dteTarget, hf.dteCtrl⟩,
    .sample k 0 ?_⟩
  constructor
  · exact hk
  · bv_omega
  · rfl
  · rfl
  · rfl
  · rfl
  · show readWord t.ram t.ch0.readAddr.toNat = _
    rw [hf.ram, h.cteRead, wordAt_zero]; rfl
  · show t.ch1.reload = _
    rw [h.dteReload]; simp
  · exact h.notDone
  · show t.out = _
    rw [h.out]; simp

theorem cte_halts (hs : FiniteStarted d n s) (hf : FiniteFrame s t) (h : AtAddress s d n n t.ch0 t.ch1 t.out) :
    FinitePipeline s d n (engineTurn .e0 t) := by
  have hend := started_count_end hs
  obtain ⟨hen, -⟩ := dteCtrl_fields .e0
  have ht := trigger_of_null (e := .e1) (s := addressLoaded t) h.dteIdle (by rw [← hf.dteCtrl] at hen; exact hen)
    (by rw [← h.dteReload] at hend; exact hend)
  rw [cte_addresses hs hf h ht]
  exact FinitePipeline.keeps_endOfStep ⟨⟨hf.cfg, hf.ram, hf.noFault, hf.hostQuiet, hf.cteReload, hf.cteCtrl, hf.dteTarget, hf.dteCtrl⟩,
    .halt ⟨rfl, h.dteIdle, rfl, h.out⟩⟩

/-! ### The DTE's turns -/

/-- Engine 1 before a sample reads RAM when the FIFO has room. -/
theorem dte_readsRam (hs : FiniteStarted d n s) (hf : FiniteFrame s t) (h : AtSample s d n k i t.ch0 t.ch1 t.out)
    (hd : t.dreq = true) : ReadsRam .e1 t := by
  constructor
  · exact engineEnabled_iff.2 ⟨hf.noFault, h.dteBusy, .inr hd⟩
  · rw [ch_e1, h.dteRead]; exact wordAt_aligned i (hs.buffers k h.inList).1
  · rw [ch_e1, hf.dteTarget]; exact (region_outFifoAddr hs.cfgWf).2
  · rw [ch_e1, h.dteRead, hf.cfg]; exact started_buffer_ram hs h.inList h.inBuffer
  · rw [hf.hostQuiet, meetsSpan_nil]

/-- Engine 1's registers after sample `i`. -/
theorem dte_advanced (hf : FiniteFrame s t) (h : AtSample s d n k i t.ch0 t.ch1 t.out) :
    advanced .e1 t = { t.ch1 with
      readAddr := wordAt (descriptorAt s.ram d k).2 (i + 1)
      remaining := (descriptorAt s.ram d k).1 - BitVec.ofNat 32 (i + 1) } := by
  obtain ⟨-, -, hincr, hincw, hrring, -⟩ := dteCtrl_fields .e0
  simp only [advanced, ch_e1, hf.dteCtrl, hincr, hincw, hrring, h.dteRead, ringInc_wordAt, if_true, Bool.false_eq_true, if_false,
    h.dteCounts]
  congr 1
  bv_omega

/-- OUT with sample `i` pushed. -/
theorem dte_out (hf : FiniteFrame s t) (h : AtSample s d n k i t.ch0 t.ch1 t.out) :
    t.out ++ [sourceWord .e1 t] = s.out ++ (delivered s.ram d k ++ bufferWords s.ram (descriptorAt s.ram d k).2 (i + 1)) := by
  rw [h.out, sourceWord, ch_e1, h.dteRead, hf.ram, bufferWords_succ]
  simp

theorem dte_target_fifo (hs : FiniteStarted d n s) (hf : FiniteFrame s t) : region t.cfg t.ch1.writeAddr = .fifo := by
  rw [hf.dteTarget, hf.cfg]
  exact (region_outFifoAddr hs.cfgWf).1

/-- The DTE's counter is at 1 exactly before the buffer's last word. -/
theorem dte_last_iff (h : AtSample s d n k i t.ch0 t.ch1 t.out) :
    t.ch1.remaining = 1 ↔ i + 1 = (descriptorAt s.ram d k).1.toNat := by
  have hin := h.inBuffer
  have hlt := (descriptorAt s.ram d k).1.isLt
  rw [h.dteCounts]
  bv_omega

theorem dte_pushes_more (hs : FiniteStarted d n s) (hf : FiniteFrame s t) (h : AtSample s d n k i t.ch0 t.ch1 t.out)
    (hd : t.dreq = true) (hmore : t.ch1.remaining ≠ 1) : FinitePipeline s d n (engineTurn .e1 t) := by
  have hin := h.inBuffer
  have hnext := mt (dte_last_iff h).2 hmore
  rw [engineTurn_pushes (dte_readsRam hs hf h hd) (dte_target_fifo hs hf) hd hmore, dte_advanced hf h, dte_out hf h]
  exact ⟨⟨hf.cfg, hf.ram, hf.noFault, hf.hostQuiet, hf.cteReload, hf.cteCtrl, hf.dteTarget, hf.dteCtrl⟩,
    .sample k (i + 1) ⟨h.inList, by omega, h.cteIdle, h.cteRead, h.cteWrite, h.dteBusy, rfl, rfl, h.notDone, rfl⟩⟩

/-- The last sample of buffer `k` chains to the CTE, which stands before descriptor `k + 1`. -/
theorem dte_pushes_last (hs : FiniteStarted d n s) (hf : FiniteFrame s t) (h : AtSample s d n k i t.ch0 t.ch1 t.out)
    (hd : t.dreq = true) (hlast : t.ch1.remaining = 1) : FinitePipeline s d n (engineTurn .e1 t) := by
  obtain ⟨-, -, -, -, -, -, -, hchain, hto⟩ := dteCtrl_fields .e0
  obtain ⟨hen, hsize, -⟩ := cteCtrl_fields 0
  rw [← hf.dteCtrl] at hchain hto
  rw [← hf.cteCtrl] at hen hsize
  have ht := trigger_of_block (e := .e0) (s := lastPushed .e1 t) h.cteIdle hen
    (by show t.ch0.reload ≠ 0; rw [hf.cteReload]; decide) hsize
  have hdte : (lastPushed .e1 t).ch1 = { t.ch1 with
      readAddr := wordAt (descriptorAt s.ram d k).2 (i + 1)
      remaining := (descriptorAt s.ram d k).1 - BitVec.ofNat 32 (i + 1)
      busy := false } := by
    show ({ advanced .e1 t with busy := false } : Channel) = _
    rw [dte_advanced hf h]
  have hout : (lastPushed .e1 t).out = s.out ++ delivered s.ram d (k + 1) := by
    show t.out ++ [sourceWord .e1 t] = _
    rw [dte_out hf h, (dte_last_iff h).1 hlast, delivered_succ, samples_eq_bufferWords]
  rw [engineTurn_pushes_last (dte_readsRam hs hf h hd) (dte_target_fifo hs hf) hd hlast hchain
    (by rw [ch_e1, hto]; exact ht)]
  exact FinitePipeline.keeps_endOfStep ⟨⟨hf.cfg, hf.ram, hf.noFault, hf.hostQuiet, hf.cteReload, hf.cteCtrl,
      (congrArg Channel.writeAddr hdte).trans hf.dteTarget, (congrArg Channel.ctrl hdte).trans hf.dteCtrl⟩,
    .count (k + 1) ⟨h.inList, rfl, hf.cteReload, h.cteRead, h.cteWrite, congrArg Channel.busy hdte, h.notDone, hout⟩⟩

/-! ### Every turn of the sequencer -/

theorem FinitePipeline.keeps_cteTurn (hs : FiniteStarted d n s) (h : FinitePipeline s d n t) :
    FinitePipeline s d n (engineTurn .e0 t) := by
  cases h.phase with
  | count k hp => exact cte_counts hs h.frame hp
  | address k hp =>
    obtain hk | rfl := Nat.lt_or_eq_of_le hp.inList
    · exact cte_starts_buffer hs h.frame hp hk
    · exact cte_halts hs h.frame hp
  | sample k i hp => rw [engineTurn_of_idle (e := .e0) hp.cteIdle]; exact h
  | halt hp => rw [engineTurn_of_idle (e := .e0) hp.cteIdle]; exact h

theorem FinitePipeline.keeps_dteTurn (hs : FiniteStarted d n s) (h : FinitePipeline s d n t) :
    FinitePipeline s d n (engineTurn .e1 t) := by
  cases h.phase with
  | count k hp => rw [engineTurn_of_idle (e := .e1) hp.dteIdle]; exact h
  | address k hp => rw [engineTurn_of_idle (e := .e1) hp.dteIdle]; exact h
  | sample k i hp =>
    cases hd : t.dreq with
    | false =>
      obtain ⟨-, -, -, -, -, -, hpaced, -⟩ := dteCtrl_fields .e0
      rw [← h.frame.dteCtrl] at hpaced
      rw [engineTurn_of_full (e := .e1) hpaced hd]; exact h
    | true =>
      by_cases hlast : t.ch1.remaining = 1
      · exact dte_pushes_last hs h.frame hp hd hlast
      · exact dte_pushes_more hs h.frame hp hd hlast
  | halt hp => rw [engineTurn_of_idle (e := .e1) hp.dteIdle]; exact h

theorem FinitePipeline.keeps_engineTurn (hs : FiniteStarted d n s) (e : Engine) (h : FinitePipeline s d n t) :
    FinitePipeline s d n (engineTurn e t) := by
  cases e
  · exact h.keeps_cteTurn hs
  · exact h.keeps_dteTurn hs

/-- The turns of the claim's schedules: no host's, no block reset. -/
def isSequencerTurn (x : Turn) : Prop := x = .engine .e0 ∨ x = .engine .e1 ∨ x = .descriptor ∨ x = .output

/-- Every turn of the sequencer answers a state of the same pipeline, and leaves the schedule. -/
theorem FinitePipeline.keeps_takeTurn (hs : FiniteStarted d n s) {x : Turn} (hx : isSequencerTurn x) (h : FinitePipeline s d n t) :
    ∃ u, takeTurn x t = .next u ∧ FinitePipeline s d n u ∧ u.sched = t.sched := by
  have hf := h.frame.noFault
  have hsched : ∀ e (v : State), (engineTurn e v).sched = v.sched := fun e v => by
    obtain ⟨-, -, hsched, -⟩ := engineTurn_outside e v
    exact hsched
  obtain rfl | rfl | rfl | rfl := hx
  · exact ⟨_, by simp [takeTurn, hf], h.keeps_engineTurn hs .e0, hsched _ _⟩
  · exact ⟨_, by simp [takeTurn, hf], h.keeps_engineTurn hs .e1, hsched _ _⟩
  · cases hd : atDescriptor t with
    | true =>
      exact ⟨_, by simp [takeTurn, hf, descriptorTurn_of_atDescriptor hf hd], (h.keeps_engineTurn hs .e0).keeps_engineTurn hs .e0,
        (hsched _ _).trans (hsched _ _)⟩
    | false => exact ⟨_, by simp [takeTurn, hf, descriptorTurn, hd], h.keeps_engineTurn hs .e0, hsched _ _⟩
  · exact ⟨outputStep t, by simp [takeTurn, hf], h.congr rfl rfl rfl rfl rfl rfl rfl, rfl⟩

/-- A schedule of sequencer turns runs to its end inside the pipeline, by induction on the schedule. -/
theorem FinitePipeline.run (hs : FiniteStarted d n s) (turns : List Turn) :
    ∀ t : State, t.sched = turns → (∀ x ∈ turns, isSequencerTurn x) → FinitePipeline s d n t →
      ∃ u, Host.Core.run Sys2Proof.core turns.length t = .next u ∧ FinitePipeline s d n u := by
  induction turns with
  | nil => exact fun t _ _ h => ⟨t, rfl, h⟩
  | cons x rest ih =>
    intro t hsched hturns h
    have hpop : FinitePipeline s d n { t with sched := rest } := h.congr rfl rfl rfl rfl rfl rfl rfl
    obtain ⟨u, hu, hpipe, hrest⟩ := hpop.keeps_takeTurn hs (hturns x List.mem_cons_self)
    have hstep : step t = .next (endOfStep u) := by rw [step_of_sched hsched, hu]; rfl
    rw [List.length_cons, core_run_succ hstep]
    exact ih _ (by simp [hrest]) (fun y hy => hturns y (List.mem_cons_of_mem x hy)) hpipe.keeps_endOfStep

/-! ### What the invariant says of OUT and the completion flag -/

theorem FinitePipeline.out_prefix (h : FinitePipeline s d n t) : t.out <+: s.out ++ delivered s.ram d n := by
  cases h.phase with
  | count k hp => rw [hp.out]; exact (List.prefix_append_right_inj _).2 (delivered_prefix _ d hp.inList)
  | address k hp => rw [hp.out]; exact (List.prefix_append_right_inj _).2 (delivered_prefix _ d hp.inList)
  | sample k i hp =>
    rw [hp.out]
    exact (List.prefix_append_right_inj _).2 (partial_delivery_prefix _ d hp.inList (Nat.le_of_lt hp.inBuffer))
  | halt hp => rw [hp.out]

theorem FinitePipeline.not_done_of_live (h : FinitePipeline s d n t) (hl : t.live = true) : t.ch1.done = false := by
  cases h.phase with
  | count k hp => exact hp.notDone
  | address k hp => exact hp.notDone
  | sample k i hp => exact hp.notDone
  | halt hp => simp [State.live, hp.cteIdle, hp.dteIdle] at hl

theorem FinitePipeline.delivered_of_quiet (h : FinitePipeline s d n t) (hl : t.live = false) :
    t.out = s.out ++ delivered s.ram d n ∧ t.ch1.done = true := by
  have idle := fun e => not_busy_of_quiet t e hl
  cases h.phase with
  | count k hp => cases hp.cteBusy.symm.trans (idle .e0)
  | address k hp => cases hp.cteBusy.symm.trans (idle .e0)
  | sample k i hp => cases hp.dteBusy.symm.trans (idle .e1)
  | halt hp => exact ⟨hp.out, hp.done⟩

/-- Settles O59: the schedule runs inside the invariant, which says what OUT and the flag are. -/
theorem finiteListsAreDeliveredInOrder : Obligations.FiniteListsAreDeliveredInOrder := by
  intro d n s hs hturns
  obtain ⟨t, hrun, h⟩ := FinitePipeline.run hs s.sched s rfl hturns (.start hs)
  exact ⟨t, hrun, h.frame.noFault, h.frame.ram, h.out_prefix, h.not_done_of_live, h.delivered_of_quiet⟩

end Sys2Proof.Machine
end

section
/-! SUPPORT. Memory is what it reads (10_state.md rule R28, 20_memory.md rules R63 and R75): the canonical list of a memory is
determined by its bytes, so an equation between memories is an equation byte by byte. -/

namespace Sys2Proof.Machine

variable {m n : Memory}

theorem memoryWfFrom_cons {lo k : Nat} {x : Byte} :
    memoryWfFrom lo ((k, x) :: m) = true ↔ lo ≤ k ∧ x ≠ unlistedByte ∧ memoryWfFrom (k + 1) m = true := by
  simp [memoryWfFrom, and_assoc]

@[simp] theorem readByte_head (k : Nat) (x : Byte) (m : Memory) : readByte ((k, x) :: m) k = x := if_pos rfl

theorem readByte_tail {a k : Nat} (x : Byte) (h : a ≠ k) : readByte ((k, x) :: m) a = readByte m a := if_neg h

/-- A listed byte differs from what a memory that lists nothing below a higher address reads there. -/
theorem readByte_head_ne {k lo : Nat} {x : Byte} (hx : x ≠ unlistedByte) (hn : memoryWfFrom lo n = true) (hk : k < lo) :
    readByte ((k, x) :: m) k ≠ readByte n k := by
  rw [readByte_head, readByte_below hn hk]
  exact hx

theorem memory_ext_from {lo lo' : Nat} (hm : memoryWfFrom lo m = true) (hn : memoryWfFrom lo' n = true)
    (h : ∀ a, readByte m a = readByte n a) : m = n := by
  induction m generalizing n lo lo' with
  | nil =>
    cases n with
    | nil => rfl
    | cons d n =>
      obtain ⟨-, hy, -⟩ := memoryWfFrom_cons.1 hn
      exact absurd (h d.1).symm (readByte_head_ne (lo := d.1 + 1) hy rfl (Nat.lt_succ_self _))
  | cons c m ih =>
    obtain ⟨k, x⟩ := c
    obtain ⟨-, hx, hm⟩ := memoryWfFrom_cons.1 hm
    cases n with
    | nil => exact absurd (h k) (readByte_head_ne (lo := k + 1) hx rfl (Nat.lt_succ_self _))
    | cons d n =>
      obtain ⟨j, y⟩ := d
      obtain ⟨-, hy, hn⟩ := memoryWfFrom_cons.1 hn
      obtain hlt | rfl | hgt := Nat.lt_trichotomy k j
      · exact absurd (h k) (readByte_head_ne hx (memoryWfFrom_cons.2 ⟨le_rfl, hy, hn⟩) hlt)
      · have hxy : x = y := by simpa using h k
        have hrest : ∀ a, readByte m a = readByte n a := fun a => by
          by_cases ha : a = k
          · rw [readByte_below hm (by omega), readByte_below hn (by omega)]
          · simpa only [readByte_tail _ ha] using h a
        rw [hxy, ih hm hn hrest]
      · exact absurd (h j).symm (readByte_head_ne hy (memoryWfFrom_cons.2 ⟨le_rfl, hx, hm⟩) hgt)

/-- Canonical memories that read the same are the same. -/
theorem memory_ext (hm : Memory.wf m = true) (hn : Memory.wf n = true) (h : ∀ a, readByte m a = readByte n a) : m = n :=
  memory_ext_from hm hn h

/-- What every byte reads after a write of a width. -/
theorem readByte_writeMem (hm : Memory.wf m = true) (a : Nat) (w : Width) (v : Word) (x : Nat) :
    readByte (writeMem m a w v) x = if a ≤ x ∧ x < a + widthBytes w then byteOf v (x - a) else readByte m x := by
  split
  · next hx =>
    have := readByte_writeMem_inside hm a w v (i := x - a) (by omega)
    rwa [Nat.add_sub_cancel' hx.1] at this
  · exact readByte_writeMem_outside hm a w v (by omega)

/-- The bytes of a word that memory holds are the bytes of memory. -/
theorem byteOf_readWord (m : Memory) (a : Nat) {i : Nat} (hi : i < 4) : byteOf (readWord m a) i = readByte m (a + i) := by
  obtain rfl | rfl | rfl | rfl : i = 0 ∨ i = 1 ∨ i = 2 ∨ i = 3 := by omega
  · exact byteOf_joinWord_0 ..
  · exact byteOf_joinWord_1 ..
  · exact byteOf_joinWord_2 ..
  · exact byteOf_joinWord_3 ..

/-- Writing a word back where it was read changes nothing. -/
theorem writeMem_readWord (hm : Memory.wf m = true) (a : Nat) : writeMem m a .word (readWord m a) = m := by
  refine memory_ext (writeMem_wf hm ..) hm fun x => ?_
  rw [readByte_writeMem hm]
  split
  · next hx =>
    rw [byteOf_readWord m a (by simp only [widthBytes] at hx; omega), Nat.add_sub_cancel' hx.1]
  · rfl

/-- A word written is read back. -/
theorem readWord_writeMem (hm : Memory.wf m = true) (a : Nat) (v : Word) : readWord (writeMem m a .word v) a = v := by
  have inside : ∀ i, i < 4 → readByte (writeMem m a .word v) (a + i) = byteOf v i :=
    fun _ hi => readByte_writeMem_inside hm a .word v hi
  have first : readByte (writeMem m a .word v) a = byteOf v 0 := inside 0 (by decide)
  rw [readWord, first, inside 1 (by decide), inside 2 (by decide), inside 3 (by decide), joinWord_wordBytes]

/-- The later of two writes to one place wins. -/
theorem writeMem_writeMem (hm : Memory.wf m = true) (a : Nat) (w : Width) (v v' : Word) :
    writeMem (writeMem m a w v) a w v' = writeMem m a w v' := by
  have hv := writeMem_wf hm a w v
  refine memory_ext (writeMem_wf hv ..) (writeMem_wf hm ..) fun x => ?_
  simp only [readByte_writeMem hv, readByte_writeMem hm]
  split <;> rfl

/-- Settles O49: canonical memories are compared byte by byte. -/
theorem memoryIsWhatItReads : Obligations.MemoryIsWhatItReads :=
  ⟨fun _ _ => memory_ext, fun _ a v w hm =>
    ⟨writeMem_readWord hm a, readWord_writeMem hm a v, writeMem_writeMem hm a .word v w⟩⟩

end Sys2Proof.Machine
end

section
/-! SUPPORT. What a host access does, by what it reaches (20_memory.md rule R68): a word access to the window is a register read or
a register write (30_encoding.md rule R111, 40_host_register_access.md rules R140 and R141), an access to RAM reads or writes it. -/

namespace Sys2Proof.Machine

variable {s t u : State} {m : Master} {v : Word} {off : BitVec 8} {d : Access}

/-! ### A command record is the command of its offset -/

theorem accessOf_wordBytes (v : Word) : accessOf true (wordBytes v) = .ok (.write v) :=
  congrArg (fun x => Except.ok (Access.write x)) (joinWord_wordBytes v)

/-- The record of an offset is rejected or is the command of that offset (30_encoding.md rule R111). -/
theorem decodeCommand_commandRecord (off : BitVec 8) (d : Access) (m : Master) :
    decodeCommand m (commandRecord off d) = if off &&& 3 = 0 then .ok (commandAt off d m) else .error .misaligned := by
  cases d with
  | read => simp [decodeCommand, commandRecord, accessOf, ite_not]
  | write v => simp [decodeCommand, commandRecord, accessOf_wordBytes, ite_not]

/-- A record that decodes has a 4-aligned offset, and is the command at that offset. -/
theorem decode_commandRecord {i : Instr} (h : decode (.window m) (commandRecord off d) = .ok i) :
    off &&& 3 = 0 ∧ i = commandAt off d m := by
  rw [decode, decodeCommand_commandRecord] at h
  split at h
  · next hoff => cases h; exact ⟨hoff, rfl⟩
  · cases h

theorem exec_channelWrite {k : Nat} (hk : k < 16) (e : Engine) (v : Word) (m : Master) (s : State) :
    exec (channelWrite k e v m) s = conclude s (slotWrite e (regAt k) (isTriggerSlot k) v m s) := by
  interval_cases k <;> rfl

/-- A channel read gives the host a word. -/
theorem exec_channelRead (k : Nat) (e : Engine) (s : State) :
    ∃ w, exec (channelRead k e) s = conclude s (.ok { s with rdata := w }) := by
  unfold channelRead
  split <;> exact ⟨_, rfl⟩

/-- A write command at an offset is `RegWrite` at that offset (40_host_register_access.md rule R141). -/
theorem exec_commandAt_write (off : BitVec 8) (v : Word) (m : Master) (s : State) :
    exec (commandAt off (.write v) m) s = conclude s (regWrite off v m s) := by
  unfold commandAt regWrite
  split
  · dsimp only [globalCommand]
    repeat' split
    all_goals rfl
  · exact exec_channelWrite (off.extractLsb' 2 4).isLt _ v m s

/-- A read command gives the host a word, or raises RESERVED_OFFSET (40_host_register_access.md rule R140). -/
theorem exec_commandAt_read (off : BitVec 8) (m : Master) (s : State) :
    (∃ w, exec (commandAt off .read m) s = conclude s (.ok { s with rdata := w })) ∨
    exec (commandAt off .read m) s = conclude s (.error .reservedOffset) := by
  unfold commandAt
  split
  · dsimp only [globalCommand]
    repeat' split
    case isTrue | isFalse.isTrue | isFalse.isFalse.isTrue => exact .inl ⟨_, rfl⟩
    all_goals exact .inr rfl
  · exact .inl (exec_channelRead _ _ s)

/-- Everything a window command can do where it answers a next state. -/
theorem exec_commandAt_cases (h : exec (commandAt off d m) s = .next t) :
    (∃ c, t = raiseFault c s) ∨ (∃ w, t = { s with rdata := w }) ∨ (∃ v, d = .write v ∧ regWrite off v m s = .ok t) := by
  cases d with
  | read =>
    obtain ⟨w, hw⟩ | hw := exec_commandAt_read off m s
    · obtain ⟨-, h | ⟨c, -, rfl⟩⟩ := conclude_cases (hw ▸ h)
      · cases h; exact .inr (.inl ⟨w, rfl⟩)
      · exact .inl ⟨c, rfl⟩
    · obtain ⟨-, h | ⟨c, -, rfl⟩⟩ := conclude_cases (hw ▸ h)
      · cases h
      · exact .inl ⟨c, rfl⟩
  | write v =>
    obtain ⟨-, h | ⟨c, -, rfl⟩⟩ := conclude_cases (exec_commandAt_write off v m s ▸ h)
    · exact .inr (.inr ⟨v, rfl, h⟩)
    · exact .inl ⟨c, rfl⟩

/-! ### A host access -/

/-- Everything a host access can do to the state where it answers a next state: raise a fault, return a word, write a register or
write RAM. -/
theorem hostAccess_effect {a : Addr} {w : Width} (h : hostAccess a w d s = .next t) :
    (∃ c, t = raiseFault c s) ∨ (∃ x, t = { s with rdata := x }) ∨
    (∃ off v, d = .write v ∧ w = .word ∧ region s.cfg a = .window off ∧ off &&& 3 = 0 ∧ regWrite off v .host s = .ok t) ∨
    (∃ v, d = .write v ∧ region s.cfg (wordOf a) = .ram ∧ naturallyAligned a w = true ∧ hostWrite a w v s = .ok t) := by
  obtain ⟨off, i, hr, hw, ha, hi, h⟩ | ⟨off, -, -, rfl⟩ | ⟨hr, hn, -, ⟨-, rfl⟩ | ⟨v, hd, h | ⟨c, -, rfl⟩⟩⟩ :=
    hostAccess_cases h
  · obtain ⟨hoff, rfl⟩ := decode_commandRecord hi
    rw [wordOf_aligned ha] at hr
    obtain hc | hx | ⟨v, hd, h⟩ := exec_commandAt_cases h
    · exact .inl hc
    · exact .inr (.inl hx)
    · exact .inr (.inr (.inl ⟨off, v, hd, hw, hr, hoff, h⟩))
  · exact .inl ⟨_, rfl⟩
  · exact .inr (.inl ⟨_, rfl⟩)
  · exact .inr (.inr (.inr ⟨v, hd, hr, hn, h⟩))
  · exact .inl ⟨c, rfl⟩

/-- Everything the host's turn can do: nothing, or its next command's access on the state without that command, and then
perhaps a `POLL` put back. -/
theorem hostTurn_effect (h : hostTurn s = .next t) :
    t = s ∨ ∃ op rest a w d u ops, s.host = op :: rest ∧ hostAccess a w d { s with host := rest } = .next u ∧
      (∀ v, d = .write v → op = .write a w v) ∧ t = { u with host := ops } := by
  obtain ⟨-, rfl⟩ | ⟨op, rest, a, w, d, u, hs, hu, h⟩ := hostTurn_cases h
  · exact .inl rfl
  · refine .inr ⟨op, rest, a, w, d, u, t.host, hs, hu, ?_⟩
    obtain ⟨-, rfl, rfl⟩ | ⟨v, rfl, rfl, rfl⟩ | ⟨mask, -, -, rfl, rfl⟩ := h
    · exact ⟨nofun, rfl⟩
    · exact ⟨fun _ h => by cases h; rfl, rfl⟩
    · refine ⟨nofun, ?_⟩
      split <;> rfl

/-! ### The other turns -/

/-- The descriptor turn is one or two turns of engine 0 (log entry 5). -/
theorem descriptorTurn_effect (hf : s.fault = none) (h : descriptorTurn s = .next t) :
    t = engineTurn .e0 s ∨ t = engineTurn .e0 (engineTurn .e0 s) := by
  obtain ⟨-, ht⟩ | ⟨hat, -⟩ := descriptorTurn_cases h
  · exact .inl ht
  · rw [descriptorTurn_of_atDescriptor hf hat] at h
    cases h
    exact .inr rfl

/-- Taking the next turn off is an update of the schedule and the tick. -/
theorem nextTurn_effect (s : State) : ∃ sched tick, (nextTurn s).2 = { s with sched := sched, tick := tick } := by
  obtain ⟨x, rest, -, h⟩ | ⟨-, h⟩ := nextTurn_cases s <;> rw [h] <;> exact ⟨_, _, rfl⟩

end Sys2Proof.Machine
end

section
/-! SUPPORT. What every step does to a completion flag (10_state.md rule R25, 41_trigger_and_completion.md rule R208): only a null
trigger sets it, and only block reset or a word written to INTR clears it. -/

namespace Sys2Proof.Machine

variable {s t u : State} {e e' : Engine} {m : Master} {v : Word} {x : Event} {P Q : Prop}

/-! ### Events of a step -/

/-- The event is among those that lead from the history of `s` to that of `t`. -/
def Recorded (x : Event) (s t : State) : Prop := ∃ l, t.ev = s.ev ++ l ∧ x ∈ l

theorem record_recorded (x : Event) (s : State) : Recorded x s (s.record x) := ⟨[x], rfl, List.mem_singleton_self x⟩

theorem Recorded.before (hg : Grows s t) (h : Recorded x t u) : Recorded x s u := by
  obtain ⟨l, hl⟩ := hg.ev
  obtain ⟨l', hu, hx⟩ := h
  exact ⟨l ++ l', by rw [hu, ← hl, List.append_assoc], List.mem_append_right l hx⟩

theorem Recorded.after (h : Recorded x s t) (hg : Grows t u) : Recorded x s u := by
  obtain ⟨l, ht, hx⟩ := h
  obtain ⟨l', hl⟩ := hg.ev
  exact ⟨l ++ l', by rw [← hl, ht, List.append_assoc], List.mem_append_left l' hx⟩

/-! ### Tracked flags -/

/-- From `s` to `t` the histories grow, the completion flag of engine `e` is set only with its null trigger recorded, and
cleared only for the reason `P`. -/
structure DoneTracked (e : Engine) (P : Prop) (s t : State) : Prop where
  grows : Grows s t
  set : (s.ch e).done = false → (t.ch e).done = true → Recorded (.null e) s t
  clear : (s.ch e).done = true → (t.ch e).done = false → P

theorem DoneTracked.mono (h : DoneTracked e P s t) (hPQ : P → Q) : DoneTracked e Q s t :=
  ⟨h.grows, h.set, fun hs ht => hPQ (h.clear hs ht)⟩

theorem DoneTracked.trans (h : DoneTracked e P s t) (h' : DoneTracked e P t u) : DoneTracked e P s u where
  grows := h.grows.trans h'.grows
  set hs hu := by
    cases ht : (t.ch e).done with
    | false => exact (h'.set ht hu).before h.grows
    | true => exact (h.set hs ht).after h'.grows
  clear hs hu := by
    cases ht : (t.ch e).done with
    | false => exact h.clear hs ht
    | true => exact h'.clear ht hu

/-- What leaves the flag alone is tracked. -/
theorem DoneTracked.of_same (hg : Grows s t) (hd : (t.ch e).done = (s.ch e).done) : DoneTracked e P s t where
  grows := hg
  set hs ht := by rw [hd, hs] at ht; cases ht
  clear hs ht := by rw [hd, hs] at ht; cases ht

theorem DoneTracked.refl (s : State) : DoneTracked e P s s := .of_same (.refl s) rfl

/-- A channel update that leaves the flag alone. -/
theorem setCh_doneTracked (s : State) (e' : Engine) (c : Channel) (hd : c.done = (s.ch e').done) :
    DoneTracked e P s (s.setCh e' c) := by
  refine .of_same (setCh_grows e' c s) ?_
  rw [setCh_ch]
  split
  · next he => rw [he, hd]
  · rfl

theorem record_doneTracked (x : Event) (s : State) : DoneTracked e P s (s.record x) :=
  .of_same (record_grows x s) (by rw [record_ch])

theorem endOfStep_doneTracked (s : State) : DoneTracked e P s (endOfStep s) :=
  .of_same (endOfStep_grows s) (by rw [endOfStep_ch])

theorem raiseFault_doneTracked (c : FaultCode) (s : State) : DoneTracked e P s (raiseFault c s) :=
  .of_same (raiseFault_grows c s) (by rw [raiseFault_ch])

/-! ### Register writes -/

/-- A trigger clears no flag, and sets only its own engine's, when it is null (41_trigger_and_completion.md rule R204). -/
theorem trigger_doneTracked (h : trigger e' s = .ok t) : DoneTracked e P s t := by
  obtain ⟨-, ⟨-, rfl⟩ | ⟨-, -, rfl⟩ | ⟨-, -, -, rfl⟩⟩ := trigger_cases h
  · exact record_doneTracked _ s
  · by_cases he : e = e'
    · subst he
      have hr := (record_recorded (.null e) (s.setCh e { s.ch e with done := true })).before (setCh_grows e _ s)
      exact ⟨trigger_grows h, fun _ _ => hr, fun _ ht => by simp at ht⟩
    · exact .of_same (trigger_grows h) (by rw [record_ch, setCh_ch_ne _ _ _ _ he])
  · exact (setCh_doneTracked s e' _ (by rfl)).trans (record_doneTracked _ _)

theorem chanWrite_doneTracked (r : ChanReg) (v : Word) : DoneTracked e P s (chanWrite e' r v s) :=
  .of_same (.of_eq (by simp) (by simp) (by simp)) (by simp)

theorem slotWrite_doneTracked {r : ChanReg} {trig : Bool} (h : slotWrite e' r trig v m s = .ok t) : DoneTracked e P s t := by
  obtain ⟨-, -, ⟨-, rfl⟩ | ⟨-, h⟩⟩ := slotWrite_cases h
  · exact chanWrite_doneTracked r v
  · exact (chanWrite_doneTracked r v).trans (trigger_doneTracked h)

theorem startTrigger_doneTracked (h : startTrigger v e' s = .ok t) : DoneTracked e P s t := by
  obtain ⟨-, rfl⟩ | ⟨-, h⟩ := startTrigger_cases h
  · exact .refl t
  · exact trigger_doneTracked h

theorem startWrite_doneTracked (h : startWrite v m s = .ok t) : DoneTracked e P s t := by
  obtain ⟨u, h0, h1⟩ := startWrite_cases h
  exact (startTrigger_doneTracked h0).trans (startTrigger_doneTracked h1)

/-- An INTR write clears exactly the flags it names (40_host_register_access.md rule R179). -/
theorem intrWrite_doneTracked (v : Word) (s : State) : DoneTracked e (maskBit v e = true) s (intrWrite v s) where
  grows := .of_eq (by simp) (by simp) (by simp)
  set hs ht := by simp [intrWrite_ch, hs] at ht
  clear hs ht := by simpa [intrWrite_ch, hs] using ht

/-- The offset 0x80 is the one of INTR among the 4-aligned ones (30_encoding.md rule R101). -/
theorem intr_offset {off : BitVec 8} (hal : off &&& 3 = 0) (h7 : off.getLsbD 7 = true) (hg : off.extractLsb' 2 5 = 0) :
    off = 0x80 := by
  revert off
  decide

/-- A register write clears a flag only as a write of INTR (40_host_register_access.md rules R141 and R179). -/
theorem regWrite_doneTracked {off : BitVec 8} (h : regWrite off v m s = .ok t) :
    DoneTracked e ((off &&& 3 = 0 → off = 0x80) ∧ maskBit v e = true) s t := by
  unfold regWrite at h
  split at h
  · next h7 =>
    split at h
    · next hg => cases h; exact (intrWrite_doneTracked v s).mono fun hm => ⟨fun hal => intr_offset hal h7 hg, hm⟩
    · split at h
      · exact startWrite_doneTracked h
      · split at h
        · cases h; exact .refl _
        · cases h
  · exact slotWrite_doneTracked h

/-! ### The word-transfer step -/

/-- A bus read touches no channel. -/
theorem busRead_ch {a : Addr} (h : busRead a s = .ok (v, t)) (e : Engine) : t.ch e = s.ch e := by
  obtain ⟨-, -, -, rfl⟩ | ⟨off, -, -, rfl⟩ := busRead_cases h
  · cases e <;> rfl
  · rfl

theorem fetchWord_doneTracked (h : fetchWord e' s = .ok (v, t)) : DoneTracked e P s t := by
  obtain ⟨-, -, hr⟩ := fetchWord_cases h
  exact .of_same (fetchWord_grows h) (by rw [busRead_ch hr])

theorem busWrite_doneTracked {a : Addr} (h : busWrite e' a v s = .ok t) :
    DoneTracked e (∃ off, region s.cfg a = .window off ∧ (off &&& 3 = 0 → off = 0x80) ∧ maskBit v e = true) s t := by
  obtain ⟨-, rfl⟩ | ⟨off, hr, h⟩ | ⟨-, -, rfl⟩ := busWrite_cases h
  · exact .of_same (busWrite_grows h) (by cases e <;> rfl)
  · exact (regWrite_doneTracked h).mono fun hoff => ⟨off, hr, hoff⟩
  · exact .of_same (busWrite_grows h) (by cases e <;> rfl)

theorem countWord_doneTracked (h : countWord e' s = .ok t) : DoneTracked e P s t := by
  obtain ⟨-, rfl⟩ | ⟨-, h⟩ := countWord_cases h
  · exact setCh_doneTracked s e' _ rfl
  · have hcomplete : DoneTracked e P s
        ((s.setCh e' { s.ch e' with remaining := (s.ch e').remaining - 1, busy := false }).record (.complete e')) :=
      (setCh_doneTracked s e' _ (by rfl)).trans (record_doneTracked _ _)
    obtain ⟨-, rfl⟩ | ⟨-, h⟩ := chain_cases h
    · exact hcomplete
    · exact hcomplete.trans (trigger_doneTracked h)

/-- Between `s` and `t` an engine moved a word with the bit of engine `e` set to window offset 0x80. -/
def MovedToIntr (e : Engine) (s t : State) : Prop :=
  ∃ x ra wa v, Recorded (.word x ra wa v) s t ∧ region s.cfg wa = .window 0x80 ∧ maskBit v e = true

theorem MovedToIntr.before (hg : Grows s t) (h : MovedToIntr e t u) : MovedToIntr e s u := by
  obtain ⟨x, ra, wa, v, hr, hwin, hm⟩ := h
  exact ⟨x, ra, wa, v, hr.before hg, hg.cfg ▸ hwin, hm⟩

theorem MovedToIntr.after (h : MovedToIntr e s t) (hg : Grows t u) : MovedToIntr e s u := by
  obtain ⟨x, ra, wa, v, hr, hw⟩ := h
  exact ⟨x, ra, wa, v, hr.after hg, hw⟩

/-- With legal parameters an aligned address in the window has an aligned offset (20_memory.md rules R60 and R62). -/
theorem window_offset_aligned {cfg : Config} {a : Addr} {off : BitVec 8} (hwf : Config.wf cfg = true)
    (ha : wordAligned a = true) (h : region cfg a = .window off) : off &&& 3 = 0 := by
  have low : ∀ x : BitVec 8, x.toNat % 4 = 0 → x &&& 3 = 0 := by decide
  have hblk : cfg.blkBase.toNat % 256 = 0 := by
    simpa [BitVec.extractLsb'_toNat] using congrArg BitVec.toNat (blkBase_of_wf hwf)
  rw [wordAligned_iff] at ha
  unfold region at h
  split at h
  · injection h with h
    have hoff : off.toNat = (a - cfg.blkBase).toNat % 256 := by rw [← h, BitVec.extractLsb'_toNat]; rfl
    refine low off ?_
    rw [hoff, BitVec.toNat_sub]
    omega
  · split at h
    · cases h
    · split at h <;> cases h

/-- The rest of a word step clears a flag only by moving its word to INTR. -/
theorem moveWord_doneTracked (hwa : wordAligned (s.ch e').writeAddr = true) (h : moveWord e' v s = .ok t) :
    DoneTracked e (Config.wf s.cfg = true → MovedToIntr e s t) s t := by
  obtain ⟨a, b, hw, hc, rfl⟩ := moveWord_cases h
  have hrest {P : Prop} : DoneTracked e P a (endOfStep b) :=
    ((setCh_doneTracked a e' _ (by rfl)).trans (countWord_doneTracked hc)).trans (endOfStep_doneTracked b)
  have hword : Recorded (.word e' (s.ch e').readAddr (s.ch e').writeAddr v) s (endOfStep b) :=
    (record_recorded _ s).after ((busWrite_grows hw).trans (hrest (P := False)).grows)
  have hmoved := (busWrite_doneTracked (e := e) hw).mono (Q := Config.wf s.cfg = true → MovedToIntr e s (endOfStep b)) <| by
    rintro ⟨off, hr, hoff, hm⟩ hwf
    exact ⟨e', _, _, v, hword, hoff (window_offset_aligned hwf hwa hr) ▸ hr, hm⟩
  exact ((record_doneTracked _ s).trans hmoved).trans hrest

/-- An engine's turn clears a flag only by moving a word to INTR. -/
theorem engineTurn_doneTracked (e e' : Engine) (s : State) :
    DoneTracked e (Config.wf s.cfg = true → MovedToIntr e s (engineTurn e' s)) s (engineTurn e' s) := by
  obtain ⟨-, h⟩ | ⟨-, ⟨t, ht, h⟩ | ⟨c, -, h⟩⟩ := engineTurn_cases e' s <;> rw [h]
  · exact .refl s
  · obtain ⟨v, u, hf, hm⟩ := engineStep_cases ht
    have hu := fetchWord_grows hf
    have hwa : wordAligned (u.ch e').writeAddr = true := by
      obtain ⟨-, hwa, hr⟩ := fetchWord_cases hf
      rwa [busRead_ch hr]
    refine (fetchWord_doneTracked hf).trans ((moveWord_doneTracked hwa hm).mono fun hmoved hwf => ?_)
    exact (hmoved (hu.cfg ▸ hwf)).before hu
  · exact raiseFault_doneTracked c s

/-! ### The turns -/

/-- The host's next command is a write of INTR that names engine `e`. -/
def HostClears (e : Engine) (s : State) : Prop :=
  ∃ a v ops, s.host = .write a .word v :: ops ∧ region s.cfg a = .window 0x80 ∧ maskBit v e = true

theorem hostWrite_doneTracked {a : Addr} {w : Width} (h : hostWrite a w v s = .ok t) : DoneTracked e P s t := by
  refine .of_same (hostWrite_grows h) ?_
  obtain ⟨u, hu, rfl⟩ := hostWrite_cases h
  obtain ⟨-, rfl⟩ | ⟨-, -, rfl⟩ := raceWrite_cases hu <;> cases e <;> rfl

/-- A host access clears a flag only as a word write of INTR. -/
theorem hostAccess_doneTracked {a : Addr} {w : Width} {d : Access} (h : hostAccess a w d s = .next t) :
    DoneTracked e (∃ v, d = .write v ∧ w = .word ∧ region s.cfg a = .window 0x80 ∧ maskBit v e = true) s t := by
  obtain ⟨c, rfl⟩ | ⟨x, rfl⟩ | ⟨off, v, hd, hw, hr, hoff, h⟩ | ⟨v, -, -, -, h⟩ := hostAccess_effect h
  · exact raiseFault_doneTracked c s
  · exact .of_same (.of_eq rfl rfl rfl) (by cases e <;> rfl)
  · exact (regWrite_doneTracked h).mono fun ⟨hintr, hm⟩ => ⟨v, hd, hw, hintr hoff ▸ hr, hm⟩
  · exact hostWrite_doneTracked h

theorem hostTurn_doneTracked (h : hostTurn s = .next t) : DoneTracked e (HostClears e s) s t := by
  obtain rfl | ⟨op, rest, a, w, d, u, ops, hs, hu, hop, rfl⟩ := hostTurn_effect h
  · exact .refl t
  · have htaken : DoneTracked e (HostClears e s) s { s with host := rest } := .of_same (.of_eq rfl rfl rfl) (by cases e <;> rfl)
    have haccess := (hostAccess_doneTracked (e := e) hu).mono (Q := HostClears e s) <| by
      rintro ⟨v, hd, rfl, hr, hm⟩
      exact ⟨a, v, rest, by rw [hs, hop v hd], hr, hm⟩
    exact (htaken.trans haccess).trans (.of_same (.of_eq rfl rfl rfl) (by cases e <;> rfl))

/-- What a turn that clears the flag of engine `e` was. -/
def ClearsDone (e : Engine) (x : Turn) (s t : State) : Prop :=
  x = .blockReset ∨ (x = .host ∧ HostClears e s) ∨ (Config.wf s.cfg = true → MovedToIntr e s t)

theorem takeTurn_doneTracked {x : Turn} (h : takeTurn x s = .next t) : DoneTracked e (ClearsDone e x s t) s t := by
  obtain ⟨hx, rfl⟩ | ⟨hf, ⟨hx, h⟩ | ⟨e', -, rfl⟩ | ⟨-, h⟩ | ⟨-, rfl⟩⟩ := takeTurn_cases h
  · exact ⟨takeTurn_grows h, fun _ ht => by simp [Channel.reset] at ht, fun _ _ => .inl hx⟩
  · exact (hostTurn_doneTracked h).mono fun hc => .inr (.inl ⟨hx, hc⟩)
  · exact (engineTurn_doneTracked e e' s).mono fun hm => .inr (.inr hm)
  · have hfirst := engineTurn_doneTracked e .e0 s
    obtain rfl | rfl := descriptorTurn_effect hf h
    · exact hfirst.mono fun hm => .inr (.inr hm)
    · have hsecond := engineTurn_doneTracked e .e0 (engineTurn .e0 s)
      exact (hfirst.mono fun hm => .inr (.inr fun hwf => (hm hwf).after hsecond.grows)).trans
        (hsecond.mono fun hm => .inr (.inr fun hwf => (hm (hfirst.grows.cfg ▸ hwf)).before hfirst.grows))
  · exact .of_same (takeTurn_grows h) (by cases e <;> rfl)

/-- Every step sets a flag only with its null trigger recorded, and clears it only in a turn that `ClearsDone` names. -/
theorem step_doneTracked (h : step s = .next t) : DoneTracked e (ClearsDone e (nextTurn s).1 s t) s t := by
  obtain ⟨u, hu, rfl⟩ := step_next h
  obtain ⟨sched, tick, hn⟩ := nextTurn_effect s
  rw [hn] at hu
  have htaken {P : Prop} : DoneTracked e P s { s with sched := sched, tick := tick } :=
    .of_same (.of_eq rfl rfl rfl) (by cases e <;> rfl)
  have hturn := (takeTurn_doneTracked (e := e) hu).mono (Q := ClearsDone e (nextTurn s).1 s (endOfStep u)) <| by
    rintro (hx | hx | hm)
    · exact .inl hx
    · exact .inr (.inl hx)
    · exact .inr (.inr fun hwf => ((hm hwf).before (htaken (P := False)).grows).after (endOfStep_grows u))
  exact (htaken.trans hturn).trans (endOfStep_doneTracked u)

/-- Settles O54: no part of a step sets a flag but a trigger, which records that it was null. -/
theorem onlyANullTriggerSetsDone : Obligations.OnlyANullTriggerSetsDone :=
  fun _ _ _ h hs ht => (step_doneTracked h).set hs ht

/-- Settles O55: no part of a step clears a flag but block reset and the INTR write, which legal parameters put at offset 0x80. -/
theorem onlyIntrOrResetClearsDone : Obligations.OnlyIntrOrResetClearsDone := by
  intro s t e hwf h hs ht
  obtain hx | ⟨hx, a, v, ops, hhost, hr, hm⟩ | hmoved := (step_doneTracked h).clear hs ht
  · exact .inl hx
  · exact .inr (.inl ⟨a, v, ops, hhost, hx, hr, hm⟩)
  · obtain ⟨x, ra, wa, v, ⟨l, hl, hx⟩, hr, hm⟩ := hmoved hwf
    exact .inr (.inr ⟨l, x, ra, wa, v, hl, hx, hr, hm⟩)

end Sys2Proof.Machine
end

section
/-! SUPPORT. The invariant of the machine. Within a step all of it holds but that the race sets are empty when nothing is live
(20_memory.md rule R79), which the end of the step restores. It is stated by its four parts: memory, the race sets, the channels,
the FIFO. Launch and block reset stand at the end. -/

namespace Sys2Proof.Machine

variable {s t : State} {e e' : Engine} {m : Master} {v : Word} {cfg : Config}

/-! ### Memory and the race sets -/

/-- Memory is canonical and lists ordinary memory only. -/
structure MemorySound (cfg : Config) (ram : Memory) : Prop where
  wf : Memory.wf ram = true
  only : ∀ c ∈ ram, isRamByte cfg c.1 = true

/-- The bytes of a naturally aligned access to RAM are RAM: they lie in one word (20_memory.md rule R61). -/
theorem isRamByte_of_access {a : Addr} {w : Width} (hr : region cfg (wordOf a) = .ram)
    (hn : naturallyAligned a w = true) {k : Nat} (hlo : a.toNat ≤ k) (hhi : k < a.toNat + widthBytes w) : isRamByte cfg k = true := by
  have hword : k / 4 = (wordOf a).toNat / 4 := by
    rw [wordOf_toNat]
    simp only [naturallyAligned, beq_iff_eq] at hn
    cases w <;> simp only [widthBytes] at hn hhi <;> omega
  rw [isRamByte_congr hword]
  exact isRam_of_region hr

/-- An aligned word access is naturally aligned, and its word is itself. -/
theorem naturallyAligned_word {a : Addr} (ha : wordAligned a = true) : naturallyAligned a .word = true :=
  beq_iff_eq.2 (wordAligned_iff.1 ha)

theorem isRamByte_of_word {a : Addr} (hr : region cfg a = .ram) (ha : wordAligned a = true) {k : Nat}
    (hlo : a.toNat ≤ k) (hhi : k < a.toNat + 4) : isRamByte cfg k = true :=
  isRamByte_of_access (w := .word) ((wordOf_aligned ha).symm ▸ hr) (naturallyAligned_word ha) hlo hhi

theorem MemorySound.writeMem {ram : Memory} {a : Nat} {w : Width} (h : MemorySound cfg ram)
    (hspan : ∀ k, a ≤ k → k < a + widthBytes w → isRamByte cfg k = true) (v : Word) :
    MemorySound cfg (writeMem ram a w v) where
  wf := writeMem_wf h.wf a w v
  only c hc := (mem_writeMem hc).elim (h.only c) fun hk => hspan c.1 hk.1 hk.2

/-- The race sets are canonical, of RAM bytes, and disjoint. -/
structure RaceSound (cfg : Config) (rset wset : List Nat) : Prop where
  rsetRising : rising rset = true
  wsetRising : rising wset = true
  rsetRam : ∀ a ∈ rset, isRamByte cfg a = true
  wsetRam : ∀ a ∈ wset, isRamByte cfg a = true
  disjoint : ∀ a ∈ rset, a ∉ wset

theorem RaceSound.empty (cfg : Config) : RaceSound cfg [] [] := ⟨rfl, rfl, nofun, nofun, nofun⟩

theorem RaceSound.symm {x y : List Nat} (h : RaceSound cfg x y) : RaceSound cfg y x :=
  ⟨h.wsetRising, h.rsetRising, h.wsetRam, h.rsetRam, fun a hy hx => h.disjoint a hx hy⟩

/-- A tracked access adds RAM bytes that the other set does not hold (20_memory.md rule R78). -/
theorem RaceSound.addSpan {x y : List Nat} {a n : Nat} (h : RaceSound cfg x y)
    (hspan : ∀ k, a ≤ k → k < a + n → isRamByte cfg k = true) (hm : meetsSpan a n y = false) :
    RaceSound cfg (addSpan a n x) y where
  rsetRising := addSpan_rising h.rsetRising
  wsetRising := h.wsetRising
  rsetRam k hk := (mem_addSpan.1 hk).elim (fun hk => hspan k hk.1 hk.2) (h.rsetRam k)
  wsetRam := h.wsetRam
  disjoint k hk hy := by
    obtain ⟨hlo, hhi⟩ | hk := mem_addSpan.1 hk
    · rw [meetsSpan_iff.2 ⟨k, hlo, hhi, hy⟩] at hm; cases hm
    · exact h.disjoint k hk hy

/-! ### Channels and the FIFO -/

/-- The channel is busy exactly while words remain, and then enabled and set to words. -/
structure ChannelSound (c : Channel) : Prop where
  counts : c.busy = true ↔ c.remaining ≠ 0
  legal : c.busy = true → ctrlEn c.ctrl = true ∧ ctrlDataSize c.ctrl = wordSize

/-- An idle channel is sound whatever its registers hold. -/
theorem ChannelSound.of_idle {c : Channel} (hb : c.busy = false) (hr : c.remaining = 0) : ChannelSound c where
  counts := by simp [hb, hr]
  legal h := by rw [hb] at h; cases h

theorem ChannelSound.remaining_of_idle {c : Channel} (h : ChannelSound c) (hb : c.busy = false) : c.remaining = 0 := by
  simpa [hb] using h.counts

/-- The FIFO is bounded, and holds the last words pushed. -/
structure FifoSound (cfg : Config) (fifo out : List Word) : Prop where
  bound : fifo.length ≤ cfg.outFifoDepth
  out : fifo <:+ out

theorem FifoSound.push {fifo out : List Word} (h : FifoSound cfg fifo out) (hd : fifo.length < cfg.outFifoDepth) (v : Word) :
    FifoSound cfg (fifo ++ [v]) (out ++ [v]) where
  bound := by simpa using hd
  out := by
    obtain ⟨l, hl⟩ := h.out
    exact ⟨l, by rw [← hl, List.append_assoc]⟩

theorem FifoSound.tail {fifo out : List Word} (h : FifoSound cfg fifo out) : FifoSound cfg fifo.tail out where
  bound := Nat.le_trans (by simp) h.bound
  out := (List.tail_suffix fifo).trans h.out

/-! ### The state within a step -/

/-- The invariant but for the race sets of a quiet state. -/
structure Midstep (s : State) : Prop where
  memory : MemorySound s.cfg s.ram
  races : RaceSound s.cfg s.rset s.wset
  channels : ∀ e, ChannelSound (s.ch e)
  fifo : FifoSound s.cfg s.fifo s.out

/-- The race sets are empty when nothing is live (20_memory.md rule R79). -/
def QuietEmpty (s : State) : Prop := s.live = false → s.rset = [] ∧ s.wset = []

theorem invariant_iff : Invariant s ↔ Midstep s ∧ QuietEmpty s := by
  constructor
  · intro h
    exact ⟨⟨⟨h.ramWf, h.ramOnly⟩, ⟨h.rsetRising, h.wsetRising, h.rsetRam, h.wsetRam, h.noRace⟩,
      fun e => ⟨h.busyCounts e, h.busyLegal e⟩, ⟨h.fifoBound, h.fifoOut⟩⟩, h.quietSets⟩
  · rintro ⟨⟨⟨hwf, honly⟩, ⟨hr, hw, hrr, hwr, hd⟩, hch, ⟨hb, ho⟩⟩, hq⟩
    exact ⟨hwf, honly, hr, hw, hrr, hwr, hd, hq, fun e => (hch e).counts, fun e => (hch e).legal, hb, ho⟩

theorem Midstep.congr (h : Midstep s) (hcfg : t.cfg = s.cfg) (hram : t.ram = s.ram) (hrset : t.rset = s.rset)
    (hwset : t.wset = s.wset) (hch : ∀ e, ChannelSound (t.ch e)) (hfifo : t.fifo = s.fifo) (hout : t.out = s.out) :
    Midstep t := by
  refine ⟨?_, ?_, hch, ?_⟩
  · rw [hcfg, hram]; exact h.memory
  · rw [hcfg, hrset, hwset]; exact h.races
  · rw [hcfg, hfifo, hout]; exact h.fifo

theorem Midstep.setCh {c : Channel} (h : Midstep s) (hc : ChannelSound c) : Midstep (s.setCh e c) := by
  refine h.congr (by simp) (by simp) (by simp) (by simp) (fun e' => ?_) (by simp) (by simp)
  rw [setCh_ch]
  split
  · exact hc
  · exact h.channels e'

theorem Midstep.record (h : Midstep s) (x : Event) : Midstep (s.record x) := ⟨h.memory, h.races, h.channels, h.fifo⟩

theorem Midstep.raiseFault (h : Midstep s) (c : FaultCode) : Midstep (raiseFault c s) := ⟨h.memory, h.races, h.channels, h.fifo⟩

/-- The end of a step that has not faulted restores the invariant. -/
theorem Midstep.endOfStep (h : Midstep s) (hf : s.fault = none) : Invariant (endOfStep s) := by
  obtain ⟨hk, hl⟩ | ⟨hk, -, -⟩ := endOfStep_cases s <;> rw [hk, invariant_iff]
  · have hlive : s.live = true := by simpa [hf] using hl
    exact ⟨h, fun hq => by rw [hlive] at hq; cases hq⟩
  · exact ⟨⟨h.memory, .empty _, h.channels, h.fifo⟩, fun _ => ⟨rfl, rfl⟩⟩

theorem Invariant.midstep (h : Invariant s) : Midstep s := (invariant_iff.1 h).1

theorem Invariant.raiseFault (h : Invariant s) (c : FaultCode) : Invariant (raiseFault c s) :=
  invariant_iff.2 ⟨h.midstep.raiseFault c, h.quietSets⟩

/-- The end of a step keeps the invariant where it holds. -/
theorem Invariant.endOfStep (h : Invariant s) : Invariant (endOfStep s) := by
  obtain ⟨hk, -⟩ | ⟨-, -, hf⟩ := endOfStep_cases s
  · rwa [hk]
  · exact h.midstep.endOfStep hf

/-! ### Register writes -/

/-- A trigger finds an idle channel, and makes it busy only when it is enabled, set to words and has words to move
(41_trigger_and_completion.md rules R203 to R205). -/
theorem Midstep.trigger (h : Midstep s) (ht : trigger e s = .ok t) : Midstep t := by
  have hc := h.channels e
  obtain ⟨-, ⟨-, rfl⟩ | ⟨-, -, rfl⟩ | ⟨hen, hr, hd, rfl⟩⟩ := trigger_cases ht
  · exact h.record _
  · refine (h.setCh ?_).record _
    exact ⟨hc.counts, hc.legal⟩
  · refine (h.setCh ?_).record _
    exact ⟨iff_of_true rfl hr, fun _ => ⟨hen, hd⟩⟩

theorem Midstep.chanWrite (h : Midstep s) (r : ChanReg) (hb : (s.ch e).busy = false) (v : Word) :
    Midstep (chanWrite e r v s) := by
  have hr := (h.channels e).remaining_of_idle hb
  cases r <;> exact h.setCh (.of_idle hb hr)

theorem Midstep.clearDone (h : Midstep s) (v : Word) (e : Engine) : Midstep (clearDone v e s) := by
  have hc := h.channels e
  unfold Machine.clearDone
  split
  · exact h.setCh ⟨hc.counts, hc.legal⟩
  · exact h

theorem Midstep.regWrite {off : BitVec 8} (h : Midstep s) (hw : regWrite off v m s = .ok t) : Midstep t :=
  regWrite_keeps Midstep hw h (fun _ r hb => h.chanWrite r hb v) ((h.clearDone v .e0).clearDone v .e1)
    (fun _ _ _ ht ha => ha.trigger ht)

/-- No register write stops a busy engine: it would fault (40_host_register_access.md rule R141). -/
theorem regWrite_keeps_busy {off : BitVec 8} (h : regWrite off v m s = .ok t) (hb : (s.ch e).busy = true) :
    (t.ch e).busy = true := by
  refine regWrite_keeps (fun t => (t.ch e).busy = true) h hb (fun _ _ _ => by simpa using hb)
    (by simpa [intrWrite_ch] using hb) ?_
  intro e' a b ht ha
  have hne : e ≠ e' := by
    rintro rfl
    rw [(trigger_cases ht).1] at ha; cases ha
  obtain ⟨-, hother, -⟩ := trigger_frame ht
  rwa [hother e hne]

/-! ### The word-transfer step -/

theorem Midstep.fetchWord (h : Midstep s) (hf : fetchWord e s = .ok (v, t)) : Midstep t := by
  obtain ⟨ha, -, hr⟩ := fetchWord_cases hf
  obtain ⟨hram, hm, -, rfl⟩ | ⟨off, -, -, rfl⟩ := busRead_cases hr
  · exact ⟨h.memory, h.races.addSpan (fun _ => isRamByte_of_word hram ha) hm, h.channels, h.fifo⟩
  · exact h

theorem Midstep.busWrite {a : Addr} (h : Midstep s) (ha : wordAligned a = true) (hw : busWrite e a v s = .ok t) : Midstep t := by
  obtain ⟨hram, rfl⟩ | ⟨off, -, hw⟩ | ⟨-, hd, rfl⟩ := busWrite_cases hw
  · exact ⟨h.memory.writeMem (fun _ => isRamByte_of_word hram ha) v, h.races, h.channels, h.fifo⟩
  · exact h.regWrite hw
  · exact ⟨h.memory, h.races, h.channels, h.fifo.push (of_decide_eq_true hd) v⟩

theorem busWrite_keeps_busy {a : Addr} (h : busWrite e' a v s = .ok t) (hb : (s.ch e).busy = true) : (t.ch e).busy = true := by
  obtain ⟨-, rfl⟩ | ⟨off, -, h⟩ | ⟨-, -, rfl⟩ := busWrite_cases h
  · exact hb
  · exact regWrite_keeps_busy h hb
  · exact hb

/-- A busy engine counts down to 0 and is then idle (42_engine_transfer.md rule R245). -/
theorem Midstep.countWord (h : Midstep s) (hb : (s.ch e).busy = true) (hc : countWord e s = .ok t) : Midstep t := by
  obtain ⟨hn, rfl⟩ | ⟨h0, hc⟩ := countWord_cases hc
  · exact h.setCh ⟨⟨fun _ => hn, fun _ => hb⟩, (h.channels e).legal⟩
  · have hcomplete := (h.setCh (e := e) (.of_idle (c := { s.ch e with remaining := (s.ch e).remaining - 1, busy := false })
      rfl h0)).record (.complete e)
    obtain ⟨-, rfl⟩ | ⟨-, hc⟩ := chain_cases hc
    · exact hcomplete
    · exact hcomplete.trigger hc

/-- A word step reaches its end within the step's invariant. -/
theorem Midstep.moveWord (h : Midstep s) (ha : wordAligned (s.ch e).writeAddr = true) (hb : (s.ch e).busy = true)
    (hm : moveWord e v s = .ok t) : ∃ u, Midstep u ∧ t = Machine.endOfStep u := by
  obtain ⟨a, u, hw, hc, rfl⟩ := moveWord_cases hm
  have hbusy : (a.ch e).busy = true := busWrite_keeps_busy hw (by simpa using hb)
  have hwritten : Midstep a := (h.record _).busWrite ha hw
  have hsound := hwritten.channels e
  have hadvanced : Midstep (a.setCh e (advance (s.ch e).readAddr (s.ch e).writeAddr (a.ch e))) :=
    hwritten.setCh ⟨hsound.counts, hsound.legal⟩
  exact ⟨u, hadvanced.countWord (by rwa [setCh_ch_same]) hc, rfl⟩

/-- An engine's turn keeps the invariant. -/
theorem Invariant.engineTurn (h : Invariant s) (e : Engine) : Invariant (engineTurn e s) := by
  obtain ⟨-, hturn⟩ | ⟨hen, ⟨t, ht, hturn⟩ | ⟨c, -, hturn⟩⟩ := engineTurn_cases e s <;> rw [hturn]
  · exact h
  · obtain ⟨hf, hb, -⟩ := engineEnabled_iff.1 hen
    obtain ⟨v, r, hfetch, hmove⟩ := engineStep_cases ht
    obtain ⟨-, ha, hread⟩ := fetchWord_cases hfetch
    rw [← busRead_ch hread] at ha hb
    obtain ⟨u, hu, rfl⟩ := (h.midstep.fetchWord hfetch).moveWord ha hb hmove
    have hfault : u.fault = none := by rw [← endOfStep_fault, (engineStep_outside ht).fault, hf]
    exact hu.endOfStep hfault
  · exact h.raiseFault c

/-! ### The other turns -/

theorem Midstep.hostWrite {a : Addr} {w : Width} (h : Midstep s) (hr : region s.cfg (wordOf a) = .ram)
    (hn : naturallyAligned a w = true) (hw : hostWrite a w v s = .ok t) : Midstep t := by
  have hspan := fun k => isRamByte_of_access hr hn (k := k)
  obtain ⟨u, hu, rfl⟩ := hostWrite_cases hw
  obtain ⟨-, rfl⟩ | ⟨-, hm, rfl⟩ := raceWrite_cases hu
  · exact ⟨h.memory.writeMem hspan v, h.races, h.channels, h.fifo⟩
  · exact ⟨h.memory.writeMem hspan v, (h.races.symm.addSpan hspan hm).symm, h.channels, h.fifo⟩

theorem Midstep.hostAccess {a : Addr} {w : Width} {d : Access} (h : Midstep s) (ha : hostAccess a w d s = .next t) :
    Midstep t := by
  obtain ⟨c, rfl⟩ | ⟨x, rfl⟩ | ⟨off, v, -, -, -, -, hw⟩ | ⟨v, -, hr, hn, hw⟩ := hostAccess_effect ha
  · exact h.raiseFault c
  · exact ⟨h.memory, h.races, h.channels, h.fifo⟩
  · exact h.regWrite hw
  · exact h.hostWrite hr hn hw

theorem Midstep.hostTurn (h : Midstep s) (ht : hostTurn s = .next t) : Midstep t := by
  obtain rfl | ⟨op, rest, a, w, d, u, ops, -, hu, -, rfl⟩ := hostTurn_effect ht
  · exact h
  · have hpopped : Midstep { s with host := rest } := ⟨h.memory, h.races, h.channels, h.fifo⟩
    have haccess := hpopped.hostAccess hu
    exact ⟨haccess.memory, haccess.races, haccess.channels, haccess.fifo⟩

/-- The host's turn: where it answers, the end of the step restores the invariant; where it faults, only the record and the
program have changed (00_scope.md rule R11). -/
theorem Invariant.hostTurn (h : Invariant s) (hf : s.fault = none) (ht : hostTurn s = .next t) :
    Invariant (Machine.endOfStep t) := by
  cases hc : t.fault with
  | none => exact (h.midstep.hostTurn ht).endOfStep hc
  | some c =>
    obtain ⟨op, ops, -, rfl⟩ := hostTurn_faulted hf ht hc
    have hpopped : Invariant { s with host := ops } :=
      invariant_iff.2 ⟨⟨h.midstep.memory, h.midstep.races, h.midstep.channels, h.midstep.fifo⟩, h.quietSets⟩
    exact (hpopped.raiseFault c).endOfStep

theorem Invariant.outputStep (h : Invariant s) : Invariant (outputStep s) :=
  invariant_iff.2 ⟨⟨h.midstep.memory, h.midstep.races, h.midstep.channels, h.midstep.fifo.tail⟩, h.quietSets⟩

theorem channelReset_sound : ChannelSound Channel.reset := .of_idle rfl rfl

/-- Block reset needs of the invariant only what it leaves alone: memory and the FIFO (70_reset_and_hazards.md rule R350). -/
theorem Midstep.blockReset (h : Midstep s) : Invariant (blockReset s) :=
  invariant_iff.2 ⟨⟨h.memory, .empty _, fun e => by rw [blockReset_ch]; exact channelReset_sound, h.fifo⟩, fun _ => ⟨rfl, rfl⟩⟩

/-- Every turn, with the end of its step, keeps the invariant. -/
theorem Invariant.takeTurn {x : Turn} (h : Invariant s) (ht : takeTurn x s = .next t) : Invariant (Machine.endOfStep t) := by
  obtain ⟨-, rfl⟩ | ⟨hf, ⟨-, ht⟩ | ⟨e, -, rfl⟩ | ⟨-, ht⟩ | ⟨-, rfl⟩⟩ := takeTurn_cases ht
  · exact h.midstep.blockReset.endOfStep
  · exact h.hostTurn hf ht
  · exact (h.engineTurn e).endOfStep
  · obtain rfl | rfl := descriptorTurn_effect hf ht
    · exact (h.engineTurn .e0).endOfStep
    · exact ((h.engineTurn .e0).engineTurn .e0).endOfStep
  · exact h.outputStep.endOfStep

/-- Settles O51: taking the turn off changes nothing the invariant speaks of, and the turn and the end of the step keep it. -/
theorem everyStepKeepsTheInvariant : Obligations.EveryStepKeepsTheInvariant := by
  intro s t h hstep
  obtain ⟨u, hu, rfl⟩ := step_next hstep
  obtain ⟨sched, tick, hn⟩ := nextTurn_effect s
  rw [hn] at hu
  have htaken : Invariant { s with sched := sched, tick := tick } :=
    invariant_iff.2 ⟨⟨h.midstep.memory, h.midstep.races, h.midstep.channels, h.midstep.fifo⟩, h.quietSets⟩
  exact htaken.takeTurn hu

/-! ### Reset -/

/-- Settles O50: the launch state is a block reset with nothing in memory or the FIFO. -/
theorem launchStateHasTheInvariant : Obligations.LaunchStateHasTheInvariant := by
  have hstart : Midstep State.reset :=
    ⟨⟨reset_ram_wf, nofun⟩, .empty _, fun e => by cases e <;> exact channelReset_sound, ⟨Nat.zero_le _, List.suffix_rfl⟩⟩
  exact hstart.blockReset

/-- Settles O34: block reset is defined on every state. -/
theorem blockResetFromAnyState : Obligations.BlockResetFromAnyState := by
  refine fun s => ⟨blockReset s, rfl, fun e => ?_, rfl, rfl, rfl, rfl, rfl, rfl, rfl⟩
  rw [blockReset_ch]
  exact ⟨rfl, rfl, rfl, rfl, rfl, rfl, rfl⟩

end Sys2Proof.Machine
end

section
/-! SUPPORT. The four regions of an address (20_memory.md rules R60 to R62), each with what it says of the address. -/

namespace Sys2Proof.Machine

variable {cfg : Config} {a : Addr}

/-- The bounds of the window (20_memory.md rule R60). -/
theorem inWindow_iff : inWindow cfg a = true ↔ cfg.blkBase.toNat ≤ a.toNat ∧ a.toNat < cfg.blkBase.toNat + 0x100 := by
  simp [inWindow]

/-- Everything an address can belong to, the window before the FIFO before RAM (20_memory.md rule R62). -/
theorem region_cases (cfg : Config) (a : Addr) :
    (inWindow cfg a = true ∧ region cfg a = .window ((a - cfg.blkBase).extractLsb' 0 8)) ∨
    (inWindow cfg a = false ∧
      ((a = cfg.outFifoAddr ∧ region cfg a = .fifo) ∨
       (isRam cfg a = true ∧ region cfg a = .ram) ∨
       (a ≠ cfg.outFifoAddr ∧ isRam cfg a = false ∧ region cfg a = .unmapped))) := by
  unfold region
  cases hw : inWindow cfg a with
  | true => exact .inl ⟨rfl, rfl⟩
  | false =>
    refine .inr ⟨rfl, ?_⟩
    by_cases hf : a = cfg.outFifoAddr
    · exact .inl ⟨hf, by simp [hf]⟩
    · cases hr : isRam cfg a
      · exact .inr (.inr ⟨hf, rfl, by simp [hf]⟩)
      · exact .inr (.inl ⟨rfl, by simp [hf]⟩)

theorem region_window_iff {off : BitVec 8} :
    region cfg a = .window off ↔ inWindow cfg a = true ∧ (a - cfg.blkBase).extractLsb' 0 8 = off := by
  obtain ⟨hw, hr⟩ | ⟨hw, ⟨-, hr⟩ | ⟨-, hr⟩ | ⟨-, -, hr⟩⟩ := region_cases cfg a <;> simp [hw, hr]

/-- The offset of a window address counts the bytes from the window's base (20_memory.md rule R62). -/
theorem toNat_of_region_window {off : BitVec 8} (h : region cfg a = .window off) :
    a.toNat = cfg.blkBase.toNat + off.toNat := by
  obtain ⟨hin, rfl⟩ := region_window_iff.1 h
  obtain ⟨hlo, hhi⟩ := inWindow_iff.1 hin
  rw [BitVec.extractLsb'_toNat, BitVec.toNat_sub_of_le hlo, Nat.shiftRight_zero]
  omega

theorem eq_of_region_fifo (h : region cfg a = .fifo) : a = cfg.outFifoAddr := by
  have hfifo : inWindow cfg a = false ∧ a = cfg.outFifoAddr := by simpa [h] using region_cases cfg a
  exact hfifo.2

/-- `IS_RAM` of an address is that of its word (20_memory.md rule R61). -/
theorem isRam_wordOf (cfg : Config) (a : Addr) : isRam cfg (wordOf a) = isRam cfg a :=
  isRamByte_congr (by rw [wordOf_toNat]; omega)

/-- Settles O48: legal parameters keep the window, the FIFO port and ordinary memory apart, so the order of the decode does not
matter. -/
theorem regionsPartitionTheAddressSpace : Obligations.RegionsPartitionTheAddressSpace := by
  intro cfg a hwf
  refine ⟨?_, fun off => toNat_of_region_window, ⟨eq_of_region_fifo, ?_⟩, ⟨isRam_of_region, region_of_isRam hwf⟩,
    (isRam_wordOf cfg a).symm⟩
  · rw [← inWindow_iff]
    exact ⟨fun ⟨_, h⟩ => (region_window_iff.1 h).1, fun h => ⟨_, region_window_iff.2 ⟨h, rfl⟩⟩⟩
  · rintro rfl
    exact (region_outFifoAddr hwf).1

end Sys2Proof.Machine
end

section
/-! SUPPORT. A window access as a command is the access of RegWrite or RegRead (20_memory.md rules R65 and R66,
40_host_register_access.md rules R140 and R141), and the reserved offsets (rule R184). -/

namespace Sys2Proof.Machine

variable {s : State} {off : BitVec 8}

theorem exec_channelRead_slot {k : Nat} (hk : k < 16) (e : Engine) (s : State) :
    exec (channelRead k e) s = conclude s (.ok { s with rdata := chanRead e (regAt k) s }) := by
  interval_cases k <;> rfl

/-- A read command at an offset is `RegRead` at that offset, its word held in `rdata` (40_host_register_access.md rule R140). -/
theorem exec_commandAt_regRead (off : BitVec 8) (m : Master) (s : State) :
    exec (commandAt off .read m) s = conclude s ((regRead off s).map fun v => { s with rdata := v }) := by
  unfold commandAt regRead
  split
  · dsimp only [globalCommand]
    repeat' split
    all_goals rfl
  · exact exec_channelRead_slot (off.extractLsb' 2 4).isLt _ s

/-- Settles O5: a record that decodes is the command at its offset, and that command is RegWrite. -/
theorem regWriteIsTheDecodedCommand : Obligations.RegWriteIsTheDecodedCommand := by
  intro off v m i s h
  obtain ⟨-, rfl⟩ := decode_commandRecord h
  exact exec_commandAt_write off v m s

/-- Settles O6: a record that decodes is the command at its offset, and that command is RegRead. -/
theorem regReadIsTheDecodedCommand : Obligations.RegReadIsTheDecodedCommand := by
  intro off m i s h
  obtain ⟨-, rfl⟩ := decode_commandRecord h
  exact exec_commandAt_regRead off m s

/-- From 0x8C on an offset is global, and its index is none of the three registers' (30_encoding.md rule R104). -/
theorem reserved_offset_fields (h : 0x8C ≤ off.toNat) :
    off.getLsbD 7 = true ∧ off.extractLsb' 2 5 ≠ 0 ∧ off.extractLsb' 2 5 ≠ 1 ∧ off.extractLsb' 2 5 ≠ 2 := by
  have hlt := off.isLt
  have hglobal : off.getLsbD 7 = true := by
    have := BitVec.msb_eq_decide off
    rw [BitVec.msb_eq_getLsbD_last] at this
    exact this.trans (decide_eq_true (by omega))
  have hindex : 3 ≤ (off.extractLsb' 2 5).toNat := by
    rw [BitVec.extractLsb'_toNat, Nat.shiftRight_eq_div_pow]
    omega
  refine ⟨hglobal, ?_, ?_, ?_⟩ <;> intro hg <;> rw [hg] at hindex <;> exact absurd hindex (by decide)

theorem regRead_of_reserved (h : 0x8C ≤ off.toNat) (s : State) : regRead off s = .error .reservedOffset := by
  obtain ⟨hglobal, h0, h1, h2⟩ := reserved_offset_fields h
  rw [regRead, if_pos hglobal, if_neg h0, if_neg h1, if_neg h2]

theorem regWrite_of_reserved (h : 0x8C ≤ off.toNat) (v : Word) (m : Master) (s : State) :
    regWrite off v m s = .error .reservedOffset := by
  obtain ⟨hglobal, h0, h1, h2⟩ := reserved_offset_fields h
  rw [regWrite, if_pos hglobal, if_neg h0, if_neg h1, if_neg h2]

/-- No channel register of a busy engine is written, by any master (40_host_register_access.md rule R141). -/
theorem regWrite_of_busy (h : off.getLsbD 7 = false) (hb : (s.ch (engineOfBit (off.getLsbD 6))).busy = true) (v : Word)
    (m : Master) : regWrite off v m s = .error .writeBusy := by
  rw [regWrite, if_neg (Bool.eq_false_iff.1 h), slotWrite, if_pos hb]

end Sys2Proof.Machine
end

section
/-! SUPPORT. Host accesses that are no command (20_memory.md rules R63, R68 and R78, 40_host_register_access.md rules R185 and
R186). -/

namespace Sys2Proof.Machine

variable {s : State} {a : Addr} {w : Width}

/-! ### The access, by its region -/

theorem naturallyAligned_iff : naturallyAligned a w = true ↔ a.toNat % widthBytes w = 0 := beq_iff_eq

theorem hostAccess_of_ram_write (hr : region s.cfg (wordOf a) = .ram) (ha : a.toNat % widthBytes w = 0) (v : Word) :
    hostAccess a w (.write v) s = conclude s (hostWrite a w v s) := by
  simp [hostAccess, hr, naturallyAligned_iff.2 ha]

theorem hostAccess_of_ram_read (hr : region s.cfg (wordOf a) = .ram) (ha : a.toNat % widthBytes w = 0) :
    hostAccess a w .read s = conclude s (.ok (hostRead a w s)) := by
  simp [hostAccess, hr, naturallyAligned_iff.2 ha]

/-- A window access that is no command (20_memory.md rule R68). -/
theorem hostAccess_of_wrong_width {off : BitVec 8} (hr : region s.cfg (wordOf a) = .window off)
    (hw : w ≠ .word ∨ wordAligned a = false) (d : Access) : hostAccess a w d s = conclude s (.error .hostWidth) := by
  have hno : ¬(w = .word ∧ wordAligned a = true) := by
    rintro ⟨hword, ha⟩
    exact hw.elim (· hword) (by simp [ha])
  simp [hostAccess, hr, hno]

theorem hostAccess_of_misaligned (hr : region s.cfg (wordOf a) = .ram) (ha : a.toNat % widthBytes w ≠ 0) (d : Access) :
    hostAccess a w d s = .refused (.hostAccess a) := by
  have hno : naturallyAligned a w = false := by simpa [naturallyAligned] using ha
  simp [hostAccess, hr, hno]

theorem hostAccess_of_no_target (hr : region s.cfg (wordOf a) = .unmapped ∨ region s.cfg (wordOf a) = .fifo) (d : Access) :
    hostAccess a w d s = .refused (.hostAccess a) := by
  obtain hr | hr := hr <;> simp [hostAccess, hr]

/-- Settles O47, by the region of the word that holds the address. -/
theorem hostAccessesOutsideTheCommands : Obligations.HostAccessesOutsideTheCommands := by
  intro a w d s hf
  refine ⟨fun off hr hw => ?_, fun hr ha => hostAccess_of_misaligned hr ha d, fun hr => hostAccess_of_no_target hr d⟩
  rw [hostAccess_of_wrong_width hr hw, conclude_error hf]
  rfl

/-! ### RAM -/

/-- The bytes of a host read are the bytes of memory, and above its width zeros (20_memory.md rules R63 and R68). -/
theorem byteOf_readMem (m : Memory) (a : Nat) (w : Width) {i : Nat} (hi : i < 4) :
    byteOf (readMem m a w) i = if i < widthBytes w then readByte m (a + i) else 0 := by
  cases w with
  | word => exact (byteOf_readWord m a hi).trans (if_pos hi).symm
  | byte | half =>
    obtain rfl | rfl | rfl | rfl : i = 0 ∨ i = 1 ∨ i = 2 ∨ i = 3 := by omega
    all_goals
      simp [readMem, widthBytes, byteOf_joinWord_0, byteOf_joinWord_1, byteOf_joinWord_2, byteOf_joinWord_3]

/-- Settles O46: the read answers with the word whose bytes are those of memory. -/
theorem hostReadReturnsTheBytes : Obligations.HostReadReturnsTheBytes := by
  intro a w s hf hr ha
  refine ⟨readMem s.ram a.toNat w, ?_, fun i hi => byteOf_readMem s.ram a.toNat w hi⟩
  rw [hostAccess_of_ram_read hr ha, conclude_ok hf]
  rfl

/-- While LIVE, a host write of a byte that an engine has read is a race (20_memory.md rule R78). -/
theorem hostWrite_of_race (hl : s.live = true) (hm : meetsSpan a.toNat (widthBytes w) s.rset = true) (v : Word) :
    hostWrite a w v s = .error .race := by
  simp [hostWrite, raceWrite, hl, hm]

/-- Any other host write stores its bytes, which are tracked while LIVE (40_host_register_access.md rule R185). -/
theorem hostWrite_of_quiet (hm : s.live = true → meetsSpan a.toNat (widthBytes w) s.rset = false) (v : Word) :
    hostWrite a w v s = .ok { s with
      ram := writeMem s.ram a.toNat w v
      wset := if s.live then addSpan a.toNat (widthBytes w) s.wset else s.wset } := by
  cases hl : s.live with
  | false => simp [hostWrite, raceWrite, hl]
  | true => simp [hostWrite, raceWrite, hl, hm hl]

/-- Settles O45: the race check decides between the fault and the write, and memory's laws say what the write leaves. -/
theorem hostWriteStoresItsBytes : Obligations.HostWriteStoresItsBytes := by
  intro a w v s hf hwf hr ha
  constructor
  · intro hl hm
    rw [hostAccess_of_ram_write hr ha, hostWrite_of_race hl hm, conclude_error hf]
    rfl
  · intro hm
    refine ⟨writeMem s.ram a.toNat w v, ?_, fun i => readByte_writeMem_inside hwf a.toNat w v,
      fun x => readByte_writeMem_outside hwf a.toNat w v⟩
    rw [hostAccess_of_ram_write hr ha, hostWrite_of_quiet hm, conclude_ok hf]

end Sys2Proof.Machine
end

section
/-! SUPPORT. A word from RAM to RAM (42_engine_transfer.md rule R240), and an engine's turn that faults, by where it faults: at the
alignment check, in the read, in the write (60_exceptions.md rule R322). -/

namespace Sys2Proof.Machine

open Sys2Proof.Claims

variable {s t : State} {e : Engine} {v : Word} {x : Addr} {c : FaultCode}

/-! ### RAM to RAM -/

/-- An engine's write of RAM is not tracked (20_memory.md rules R66 and R67). -/
theorem busWrite_of_ram (hr : region s.cfg x = .ram) :
    busWrite e x v s = .ok { s with ram := writeMem s.ram x.toNat .word v } := by
  simp [busWrite, hr]

/-- A word from RAM to RAM that is not the block's last (rules R240, R243 to R245). -/
theorem engineTurn_stores (h : ReadsRam e s) (hr : region s.cfg (s.ch e).writeAddr = .ram) (hn : (s.ch e).remaining ≠ 1) :
    engineTurn e s = { s.setCh e (advanced e s) with
      ram := writeMem s.ram (s.ch e).writeAddr.toNat .word (sourceWord e s)
      rset := addSpan (s.ch e).readAddr.toNat 4 s.rset
      ev := s.ev ++ [wordEvent e s] } := by
  obtain ⟨-, hbusy, -⟩ := engineEnabled_iff.1 h.enabled
  rw [engineTurn_of_readsRam h (busWrite_of_ram hr) (countWord_of_more (by cases e <;> exact hn)),
    endOfStep_of_busy (e := e) (by cases e <;> exact hbusy)]
  cases e <;> rfl

/-- Settles O37: the turn's memory is the word written at WRITE_ADDR. -/
theorem aWordGoesFromRamToRam : Obligations.AWordGoesFromRamToRam := by
  intro e s h hwf hr hn
  have hturn := engineTurn_stores h hr hn
  refine ⟨⟨_, hturn⟩, fun i hi => ?_, fun x hx => ?_⟩ <;> rw [hturn]
  · exact readByte_writeMem_inside hwf _ .word _ hi
  · exact readByte_writeMem_outside hwf _ .word _ hx

/-! ### Where a turn faults -/

theorem engineTurn_of_fetch_error (hen : engineEnabled e s = true) (h : fetchWord e s = .error c) :
    engineTurn e s = raiseFault c s := by
  simp [engineTurn, hen, engineStep, h]

theorem fetchWord_of_misaligned (h : wordAligned (s.ch e).readAddr = false ∨ wordAligned (s.ch e).writeAddr = false) :
    fetchWord e s = .error .align := by
  obtain h | h := h <;> simp [fetchWord, h]

theorem fetchWord_of_aligned (hra : wordAligned (s.ch e).readAddr = true) (hwa : wordAligned (s.ch e).writeAddr = true) :
    fetchWord e s = busRead (s.ch e).readAddr s := by
  simp [fetchWord, hra, hwa]

/-- A bus read changes at most the race set (20_memory.md rules R65 and R78). -/
theorem busRead_tracks (h : busRead x s = .ok (v, t)) : ∃ rset, t = { s with rset := rset } := by
  obtain ⟨-, -, -, rfl⟩ | ⟨-, -, -, rfl⟩ := busRead_cases h
  · exact ⟨_, rfl⟩
  · exact ⟨_, rfl⟩

theorem ch_of_tracked (s : State) (rset : List Nat) (ev : List Event) (e : Engine) :
    ({ s with rset := rset, ev := ev } : State).ch e = s.ch e := by
  cases e <;> rfl

/-- After a read that answers, a write that faults whatever the race set and the history hold is the turn's fault. -/
theorem engineTurn_of_write_error (hen : engineEnabled e s = true) (hf : fetchWord e s = .ok (v, t))
    (hw : ∀ rset ev, busWrite e (s.ch e).writeAddr v { s with rset := rset, ev := ev } = .error c) :
    engineTurn e s = raiseFault c s := by
  obtain ⟨-, -, hread⟩ := fetchWord_cases hf
  obtain ⟨rset, rfl⟩ := busRead_tracks hread
  have hmove : moveWord e v { s with rset := rset } = .error c := by
    rw [moveWord, busRead_ch hread, State.record, hw]
  simp [engineTurn, hen, engineStep, hf, hmove]

/-! ### What faults -/

theorem busRead_of_unmapped (hr : region s.cfg x = .unmapped) : busRead x s = .error .bus := by simp [busRead, hr]

theorem busRead_of_fifo (hr : region s.cfg x = .fifo) : busRead x s = .error .fifoRead := by simp [busRead, hr]

/-- An engine's read of a word that the host has written in this LIVE period is a race (20_memory.md rule R78). -/
theorem busRead_of_race (hr : region s.cfg x = .ram) (hm : meetsSpan x.toNat 4 s.wset = true) : busRead x s = .error .race := by
  simp [busRead, hr, raceRead, hm]

theorem busRead_of_reserved {off : BitVec 8} (hr : region s.cfg x = .window off) (h : 0x8C ≤ off.toNat) :
    busRead x s = .error .reservedOffset := by
  simp [busRead, hr, regRead_of_reserved h]

theorem busWrite_of_unmapped (hr : region s.cfg x = .unmapped) : busWrite e x v s = .error .bus := by simp [busWrite, hr]

theorem busWrite_of_full (hr : region s.cfg x = .fifo) (hd : s.dreq = false) : busWrite e x v s = .error .fifoOverflow := by
  simp [busWrite, hr, fifoPush, hd]

theorem busWrite_of_window {off : BitVec 8} (hr : region s.cfg x = .window off) :
    busWrite e x v s = regWrite off v (.engine e) s := by
  simp [busWrite, hr]

/-- The same of a write that goes to the window. -/
theorem engineTurn_of_window_error {off : BitVec 8} (hen : engineEnabled e s = true) (hf : fetchWord e s = .ok (v, t))
    (hr : region s.cfg (s.ch e).writeAddr = .window off)
    (hw : ∀ rset ev, regWrite off v (.engine e) { s with rset := rset, ev := ev } = .error c) :
    engineTurn e s = raiseFault c s :=
  engineTurn_of_write_error hen hf fun rset ev =>
    (busWrite_of_window (s := { s with rset := rset, ev := ev }) hr).trans (hw rset ev)

/-! ### The statements -/

/-- Settles O40: the read's fault ends the step before the write. -/
theorem aFaultingReadComesBeforeTheWrite : Obligations.AFaultingReadComesBeforeTheWrite := by
  intro e s hen hra hwa
  have hread : ∀ c, busRead (s.ch e).readAddr s = .error c → engineTurn e s = { s with fault := some c } :=
    fun _ h => engineTurn_of_fetch_error hen ((fetchWord_of_aligned hra hwa).trans h)
  exact ⟨fun hr => hread _ (busRead_of_unmapped hr), fun hr => hread _ (busRead_of_fifo hr),
    fun hr hm => hread _ (busRead_of_race hr hm), fun _ hr hoff _ => hread _ (busRead_of_reserved hr hoff)⟩

/-- Settles O39: the hold is a turn that is not enabled; each fault is one of the alignment check or, after the read, of the
write. -/
theorem holdsOverflowsAndMisalignments : Obligations.HoldsOverflowsAndMisalignments := by
  refine ⟨fun e s => engineTurn_of_full, fun e s h hr hd => ?_, fun e s hen h => ?_, fun e v s t hen hra hwa hread => ?_⟩
  · exact engineTurn_of_write_error h.enabled (fetchWord_of_readsRam h) fun _ _ => busWrite_of_full hr hd
  · exact engineTurn_of_fetch_error hen (fetchWord_of_misaligned h)
  · have hfetch := (fetchWord_of_aligned hra hwa).trans hread
    refine ⟨fun hr => ?_, fun off hr hoff _ => ?_, fun off hr hoff hb => ?_⟩
    · exact engineTurn_of_write_error hen hfetch fun _ _ => busWrite_of_unmapped hr
    · exact engineTurn_of_window_error hen hfetch hr fun _ _ => regWrite_of_reserved hoff _ _ _
    · refine engineTurn_of_window_error hen hfetch hr fun _ _ => regWrite_of_busy hoff ?_ _ _
      rwa [ch_of_tracked]

/-! ### The end of a step -/

/-- Settles O52: every step keeps the invariant, which has the race sets empty when nothing is live. -/
theorem quietStepsEmptyTheRaceSets : Obligations.QuietStepsEmptyTheRaceSets :=
  fun s t h hstep hl => (everyStepKeepsTheInvariant s t h hstep).quietSets hl

end Sys2Proof.Machine
end

section
/-! SUPPORT. The decoder and the encoder undo each other (30_encoding.md rules R100, R101, R104, R111 and R113): a command's bytes are
the record of an aligned offset, the offset is that of a channel slot or of a global index, and a descriptor's bytes are two words. -/

namespace Sys2Proof.Machine

variable {m : Master} {v : Word} {off : BitVec 8} {d : Access}

/-! ### The fields of an offset (rule R100) -/

theorem channelOffset_fields (slot : BitVec 4) (e : Engine) :
    channelOffset slot e &&& 3 = 0 ∧ (channelOffset slot e).getLsbD 7 = false ∧
    (channelOffset slot e).extractLsb' 2 4 = slot ∧ engineOfBit ((channelOffset slot e).getLsbD 6) = e := by
  cases e <;> revert slot <;> decide

theorem globalOffset_fields (g : BitVec 5) :
    globalOffset g &&& 3 = 0 ∧ (globalOffset g).getLsbD 7 = true ∧ (globalOffset g).extractLsb' 2 5 = g := by
  revert g; decide

/-- An aligned offset without bit 7 is that of its engine's slot. -/
theorem channelOffset_of_fields (h : off &&& 3 = 0) (hc : off.getLsbD 7 = false) :
    channelOffset (off.extractLsb' 2 4) (engineOfBit (off.getLsbD 6)) = off := by
  revert off; decide

/-- An aligned offset with bit 7 is that of its global index. -/
theorem globalOffset_of_fields (h : off &&& 3 = 0) (hg : off.getLsbD 7 = true) : globalOffset (off.extractLsb' 2 5) = off := by
  revert off; decide

/-- `off[1:0] = 0b00` in the decoder's spelling and in the field's. -/
theorem aligned_offset_iff : off &&& 3 = 0 ↔ off.extractLsb' 0 2 = 0 := by
  revert off; decide

/-! ### Decoding what was encoded -/

/-- The record of an aligned offset decodes to the command of that offset, for every master (rule R111). -/
theorem decode_record (h : off &&& 3 = 0) (d : Access) (m : Master) :
    decode (.window m) (commandRecord off d) = .ok (commandAt off d m) := by
  rw [decode, decodeCommand_commandRecord, if_pos h]

theorem decode_channelWrite (slot : BitVec 4) (e : Engine) (v : Word) (m : Master) :
    decode (.window m) (commandRecord (channelOffset slot e) (.write v)) = .ok (channelWrite slot.toNat e v m) := by
  obtain ⟨halign, hchannel, hslot, hengine⟩ := channelOffset_fields slot e
  rw [decode_record halign, commandAt, hchannel, hslot, hengine]
  rfl

theorem decode_channelRead (slot : BitVec 4) (e : Engine) (m : Master) :
    decode (.window m) (commandRecord (channelOffset slot e) .read) = .ok (channelRead slot.toNat e) := by
  obtain ⟨halign, hchannel, hslot, hengine⟩ := channelOffset_fields slot e
  rw [decode_record halign, commandAt, hchannel, hslot, hengine]
  rfl

theorem decode_global (g : BitVec 5) (d : Access) (m : Master) :
    decode (.window m) (commandRecord (globalOffset g) d) = .ok (globalCommand g d m) := by
  obtain ⟨halign, hglobal, hindex⟩ := globalOffset_fields g
  simp only [decode_record halign, commandAt, hglobal, hindex, if_true]

/-! ### The reserved rows (rule R104): which global index each covers -/

theorem globalCommand_reserved90 (g : BitVec 2) (d : Access) (m : Master) : globalCommand (1#3 ++ g) d m = .reserved90 g d := by
  have hg : ∀ g : BitVec 2, (1#3 ++ g : BitVec 5) ≠ 0 ∧ (1#3 ++ g : BitVec 5) ≠ 1 ∧ (1#3 ++ g : BitVec 5) ≠ 2 ∧
      (1#3 ++ g : BitVec 5) ≠ 3 ∧ (1#3 ++ g : BitVec 5).extractLsb' 2 3 = 1 ∧ (1#3 ++ g : BitVec 5).extractLsb' 0 2 = g := by decide
  obtain ⟨h0, h1, h2, h3, hrow, hlow⟩ := hg g
  unfold globalCommand
  rw [if_neg h0, if_neg h1, if_neg h2, if_neg h3, if_pos hrow, hlow]

theorem globalCommand_reservedA0 (g : BitVec 3) (d : Access) (m : Master) : globalCommand (1#2 ++ g) d m = .reservedA0 g d := by
  have hg : ∀ g : BitVec 3, (1#2 ++ g : BitVec 5) ≠ 0 ∧ (1#2 ++ g : BitVec 5) ≠ 1 ∧ (1#2 ++ g : BitVec 5) ≠ 2 ∧
      (1#2 ++ g : BitVec 5) ≠ 3 ∧ (1#2 ++ g : BitVec 5).extractLsb' 2 3 ≠ 1 ∧ (1#2 ++ g : BitVec 5).extractLsb' 3 2 = 1 ∧
      (1#2 ++ g : BitVec 5).extractLsb' 0 3 = g := by decide
  obtain ⟨h0, h1, h2, h3, hother, hrow, hlow⟩ := hg g
  unfold globalCommand
  rw [if_neg h0, if_neg h1, if_neg h2, if_neg h3, if_neg hother, if_pos hrow, hlow]

theorem globalCommand_reservedC0 (g : BitVec 4) (d : Access) (m : Master) : globalCommand (1#1 ++ g) d m = .reservedC0 g d := by
  have hg : ∀ g : BitVec 4, (1#1 ++ g : BitVec 5) ≠ 0 ∧ (1#1 ++ g : BitVec 5) ≠ 1 ∧ (1#1 ++ g : BitVec 5) ≠ 2 ∧
      (1#1 ++ g : BitVec 5) ≠ 3 ∧ (1#1 ++ g : BitVec 5).extractLsb' 2 3 ≠ 1 ∧ (1#1 ++ g : BitVec 5).extractLsb' 3 2 ≠ 1 ∧
      (1#1 ++ g : BitVec 5).extractLsb' 0 4 = g := by decide
  obtain ⟨h0, h1, h2, h3, hother, hother', hlow⟩ := hg g
  unfold globalCommand
  rw [if_neg h0, if_neg h1, if_neg h2, if_neg h3, if_neg hother, if_neg hother', hlow]

/-! ### Descriptors (rule R113) -/

/-- The eight bytes of two words decode to the descriptor of those words, the sentinel where the count is 0. -/
theorem decode_descriptor (c a : Word) : decode .list (wordBytes c ++ wordBytes a) =
    if c = 0 then .ok (.descSentinel a) else .ok (.descData c a) := by
  simp [decode, decodeDescriptor, wordBytes, joinWord_wordBytes]

/-- Settles O2: every row is a channel slot's write or read, a global index's command, or a descriptor. -/
theorem decodeOfEncodeIsTheInstruction : Obligations.DecodeOfEncodeIsTheInstruction := by
  intro i hwf
  cases i with
  | descData c a =>
    have hc : c ≠ 0 := by simpa [Instr.wf] using hwf
    exact (decode_descriptor c a).trans (if_neg hc)
  | descSentinel a => exact (decode_descriptor 0 a).trans (if_pos rfl)
  | rdIntr => exact decode_global 0 .read _
  | wrIntr v m => exact decode_global 0 (.write v) m
  | rdStart => exact decode_global 1 .read _
  | wrStart v m => exact decode_global 1 (.write v) m
  | rdBusy => exact decode_global 2 .read _
  | wrBusy v => exact decode_global 2 (.write v) _
  | reserved8C d => exact decode_global 3 d _
  | reserved90 g d => exact (decode_global _ d _).trans (congrArg _ (globalCommand_reserved90 g d _))
  | reservedA0 g d => exact (decode_global _ d _).trans (congrArg _ (globalCommand_reservedA0 g d _))
  | reservedC0 g d => exact (decode_global _ d _).trans (congrArg _ (globalCommand_reservedC0 g d _))
  | rdReadAddr | rdWriteAddr | rdTransCount | rdCtrlTrig | rdAl1Ctrl | rdAl1ReadAddr | rdAl1WriteAddr | rdAl1TransCountTrig
  | rdAl2Ctrl | rdAl2TransCount | rdAl2ReadAddr | rdAl2WriteAddrTrig | rdAl3Ctrl | rdAl3WriteAddr | rdAl3TransCount
  | rdAl3ReadAddrTrig => exact decode_channelRead _ _ _
  | _ => exact decode_channelWrite _ _ _ _

/-! ### Encoding what was decoded -/

theorem encode_channelWrite (slot : BitVec 4) (e : Engine) (v : Word) (m : Master) :
    encode (channelWrite slot.toNat e v m) = commandRecord (channelOffset slot e) (.write v) := by
  obtain ⟨k, hk, rfl⟩ : ∃ k, k < 16 ∧ slot = BitVec.ofNat 4 k := ⟨slot.toNat, slot.isLt, by simp⟩
  interval_cases k <;> rfl

theorem encode_channelRead (slot : BitVec 4) (e : Engine) :
    encode (channelRead slot.toNat e) = commandRecord (channelOffset slot e) .read := by
  obtain ⟨k, hk, rfl⟩ : ∃ k, k < 16 ∧ slot = BitVec.ofNat 4 k := ⟨slot.toNat, slot.isLt, by simp⟩
  interval_cases k <;> rfl

theorem index_of_reserved90 {g : BitVec 5} (h : g.extractLsb' 2 3 = 1) : (1#3 ++ g.extractLsb' 0 2 : BitVec 5) = g := by
  revert g; decide

theorem index_of_reservedA0 {g : BitVec 5} (h : g.extractLsb' 3 2 = 1) : (1#2 ++ g.extractLsb' 0 3 : BitVec 5) = g := by
  revert g; decide

/-- A global index that is no register's and in no lower reserved row is in the last row. -/
theorem index_of_reservedC0 (g : BitVec 5) : g = 0 ∨ g = 1 ∨ g = 2 ∨ g = 3 ∨ g.extractLsb' 2 3 = 1 ∨ g.extractLsb' 3 2 = 1 ∨
    (1#1 ++ g.extractLsb' 0 4 : BitVec 5) = g := by
  revert g; decide

theorem encode_globalCommand (g : BitVec 5) (d : Access) (m : Master) :
    encode (globalCommand g d m) = commandRecord (globalOffset g) d := by
  unfold globalCommand
  split
  · next h => cases d <;> rw [h] <;> rfl
  split
  · next h => cases d <;> rw [h] <;> rfl
  split
  · next h => cases d <;> rw [h] <;> rfl
  split
  · next h => rw [h]; rfl
  split
  · next h => rw [encode, index_of_reserved90 h]
  split
  · next h => rw [encode, index_of_reservedA0 h]
  · next h0 h1 h2 h3 h h' => 
    have hrow : (1#1 ++ g.extractLsb' 0 4 : BitVec 5) = g := by simpa only [h0, h1, h2, h3, h, h', false_or] using index_of_reservedC0 g
    rw [encode, hrow]

/-- The command of an aligned offset is encoded by the record of that offset: no bit of the offset is lost (rule R111). -/
theorem encode_commandAt (h : off &&& 3 = 0) (d : Access) (m : Master) : encode (commandAt off d m) = commandRecord off d := by
  unfold commandAt
  split
  · next hg => rw [encode_globalCommand, globalOffset_of_fields h hg]
  · next hc =>
    have hoff := channelOffset_of_fields h (by simpa using hc)
    cases d with
    | read => exact (encode_channelRead _ _).trans (by rw [hoff])
    | write v => exact (encode_channelWrite _ _ v m).trans (by rw [hoff])

/-- A byte with no bit above bit 0 is that bit. -/
theorem high_byte_eq {hi : Byte} (h : hi &&& 0xFE#8 = 0) : hi = if hi.getLsbD 0 then 1 else 0 := by
  revert hi; decide

/-- The operand bytes of an access are those of its record (rules R111 and R117). -/
theorem accessOf_cases {w : Bool} {operand : List Byte} (h : accessOf w operand = .ok d) :
    (w = false ∧ operand = [] ∧ d = .read) ∨ (w = true ∧ ∃ v, operand = wordBytes v ∧ d = .write v) := by
  unfold accessOf at h
  split at h
  · cases h; exact .inl ⟨rfl, rfl, rfl⟩
  · next b0 b1 b2 b3 => cases h; exact .inr ⟨rfl, _, (wordBytes_joinWord b0 b1 b2 b3).symm, rfl⟩
  · cases h

/-- Bytes that decode at the window are the record of an aligned offset and an access, and decode to its command (rule R111). -/
theorem decode_window_cases {bytes : List Byte} {i : Instr} (h : decode (.window m) bytes = .ok i) :
    ∃ off d, off &&& 3 = 0 ∧ bytes = commandRecord off d ∧ i = commandAt off d m := by
  simp only [decode, decodeCommand] at h
  split at h
  · next lo hi operand =>
    split at h
    · cases h
    next hhigh =>
    split at h
    · cases h
    next hlow =>
    split at h
    · next d hd =>
      cases h
      have hhi := high_byte_eq (hi := hi) (by simpa using hhigh)
      refine ⟨lo, d, by simpa using hlow, ?_, rfl⟩
      obtain ⟨hw, rfl, rfl⟩ | ⟨hw, v, rfl, rfl⟩ := accessOf_cases hd
      · rw [hhi, hw]; rfl
      · rw [hhi, hw]; rfl
    · cases h
  · cases h

/-- Bytes that decode in the list are the two words of the descriptor, which is well formed (rules R113 and R116). -/
theorem decode_list_cases {bytes : List Byte} {i : Instr} (h : decode .list bytes = .ok i) :
    ∃ c a, bytes = wordBytes c ++ wordBytes a ∧ ((c = 0 ∧ i = .descSentinel a) ∨ (c ≠ 0 ∧ i = .descData c a)) := by
  simp only [decode, decodeDescriptor] at h
  split at h
  · next c0 c1 c2 c3 a0 a1 a2 a3 =>
    refine ⟨joinWord c0 c1 c2 c3, joinWord a0 a1 a2 a3, by simp [wordBytes_joinWord], ?_⟩
    split at h
    · next hc => cases h; exact .inl ⟨hc, rfl⟩
    · next hc => cases h; exact .inr ⟨hc, rfl⟩
  · cases h

/-- Every register-access command is well formed: only a data descriptor has a condition (rule R116). -/
theorem wf_of_not_descriptor {i : Instr} (h : isDescriptor i = false) : i.wf = true := by
  cases i with
  | descData c a => cases h
  | _ => rfl

/-- Settles O3: bytes that decode at the window are a record, bytes that decode in the list are two words. -/
theorem encodeOfDecodeIsTheBytes : Obligations.EncodeOfDecodeIsTheBytes := by
  intro p bytes i h
  cases p with
  | window m =>
    obtain ⟨off, d, hoff, rfl, rfl⟩ := decode_window_cases h
    exact ⟨wf_of_not_descriptor (commandAt_not_descriptor off d m), encode_commandAt hoff d m⟩
  | list =>
    obtain ⟨c, a, rfl, ⟨rfl, rfl⟩ | ⟨hc, rfl⟩⟩ := decode_list_cases h
    · exact ⟨rfl, rfl⟩
    · exact ⟨by simpa [Instr.wf] using hc, rfl⟩

/-- Settles O4: the record of an aligned offset is a command, any other is rejected as misaligned. -/
theorem everyAlignedOffsetIsACommand : Obligations.EveryAlignedOffsetIsACommand := by
  intro off d m
  rw [Ne, ← aligned_offset_iff]
  refine ⟨fun h => ⟨_, decode_record h d m⟩, fun h => ?_⟩
  rw [decode, decodeCommand_commandRecord, if_neg h]

/-- Settles O1: five records of a channel slot or a global index, and one descriptor. -/
theorem writtenOutWordsDecode : Obligations.WrittenOutWordsDecode := by
  refine ⟨?_, ?_, ?_, ?_, ?_, ?_⟩ <;> decide

end Sys2Proof.Machine
end

section
/-! SUPPORT. The address increment in numbers (30_encoding.md rules R114 and R115): a ring keeps the number of its block and adds 4
modulo the block's size, so `k` increments add `4 * k` there. -/

namespace Sys2Proof.Machine

variable {a : Addr} {n : BitVec 4}

/-- The mask of a ring's block is `2^n - 1`. -/
theorem ringMask_toNat (n : BitVec 4) : ((1#32 <<< n.toNat) - 1).toNat = 2 ^ n.toNat - 1 := by
  revert n; decide

theorem ringMask_getLsbD (n : BitVec 4) (i : Nat) : ((1#32 <<< n.toNat) - 1).getLsbD i = decide (i < n.toNat) := by
  rw [← BitVec.testBit_toNat, ringMask_toNat, Nat.testBit_two_pow_sub_one]

/-- What is left of an address above its block's bits. -/
theorem ring_high_eq_shift (a : Addr) (n : BitVec 4) :
    a &&& ~~~((1#32 <<< n.toNat) - 1) = (a >>> n.toNat) <<< n.toNat := by
  apply BitVec.eq_of_getLsbD_eq
  intro i hi
  rw [BitVec.getLsbD_and, BitVec.getLsbD_not, ringMask_getLsbD, BitVec.getLsbD_shiftLeft, BitVec.getLsbD_ushiftRight]
  by_cases hlow : i < n.toNat
  · simp [hlow]
  · simp [hlow, hi, Nat.add_sub_cancel' (Nat.le_of_not_lt hlow)]

theorem ring_high_toNat (a : Addr) (n : BitVec 4) :
    (a &&& ~~~((1#32 <<< n.toNat) - 1)).toNat = a.toNat / 2 ^ n.toNat * 2 ^ n.toNat := by
  have hle : a.toNat / 2 ^ n.toNat * 2 ^ n.toNat < 2 ^ 32 := Nat.lt_of_le_of_lt (Nat.div_mul_le_self _ _) a.isLt
  rw [ring_high_eq_shift, BitVec.toNat_shiftLeft, BitVec.toNat_ushiftRight, Nat.shiftLeft_eq, Nat.shiftRight_eq_div_pow,
    Nat.mod_eq_of_lt hle]

theorem ring_low_toNat (a : Addr) (n : BitVec 4) : (a &&& ((1#32 <<< n.toNat) - 1)).toNat = a.toNat % 2 ^ n.toNat := by
  rw [BitVec.toNat_and, ringMask_toNat, Nat.and_two_pow_sub_one_eq_mod]

/-- A ring keeps address bits 31:n and wraps bits n-1:0 (rule R114). -/
theorem ringInc_toNat (hn : n ≠ 0) (a : Addr) :
    (ringInc a n).toNat = a.toNat / 2 ^ n.toNat * 2 ^ n.toNat + (a.toNat + 4) % 2 ^ n.toNat := by
  have hdvd : 2 ^ n.toNat ∣ 2 ^ 32 := Nat.pow_dvd_pow 2 (by omega)
  have hlow : (a.toNat + 4) % 2 ^ n.toNat < 2 ^ n.toNat := Nat.mod_lt _ (Nat.two_pow_pos _)
  rw [ringInc, if_neg hn, BitVec.toNat_or, ring_high_toNat, ring_low_toNat, BitVec.toNat_add,
    show (4 : Addr).toNat = 4 from rfl, Nat.mod_mod_of_dvd _ hdvd, ← Nat.shiftLeft_eq, Nat.shiftLeft_add_eq_or_of_lt hlow]

/-- Settles O42: the kept bits and the wrapped bits are disjoint, so joining them adds their numbers. -/
theorem ringIncWrapsInsideItsBlock : Obligations.RingIncWrapsInsideItsBlock := by
  refine fun a n => ⟨fun hn => ?_, fun hn => ringInc_toNat hn a⟩
  rw [hn, ringInc_zero]
  exact BitVec.toNat_add a 4

/-- `k` increments stay in the ring's block and are `4 * k` bytes on, modulo its size. -/
theorem iterate_ringInc_toNat (hn : n ≠ 0) (a : Addr) (k : Nat) :
    ((fun x => ringInc x n)^[k] a).toNat = a.toNat / 2 ^ n.toNat * 2 ^ n.toNat + (a.toNat + 4 * k) % 2 ^ n.toNat := by
  have hpos : 0 < 2 ^ n.toNat := Nat.two_pow_pos _
  induction k with
  | zero => simpa using (Nat.div_add_mod' a.toNat (2 ^ n.toNat)).symm
  | succ k ih =>
    have hblock : (a.toNat / 2 ^ n.toNat * 2 ^ n.toNat + (a.toNat + 4 * k) % 2 ^ n.toNat) / 2 ^ n.toNat =
        a.toNat / 2 ^ n.toNat := by
      rw [Nat.mul_comm (_ / _), Nat.mul_add_div hpos, Nat.div_eq_of_lt (Nat.mod_lt _ hpos), Nat.add_zero]
    have hinside : (a.toNat / 2 ^ n.toNat * 2 ^ n.toNat + (a.toNat + 4 * k) % 2 ^ n.toNat + 4) % 2 ^ n.toNat =
        (a.toNat + 4 * (k + 1)) % 2 ^ n.toNat := by
      rw [Nat.add_assoc, Nat.mul_add_mod_self_right, Nat.mod_add_mod, Nat.mul_succ, Nat.add_assoc]
    rw [Function.iterate_succ_apply', ringInc_toNat hn, ih, hblock, hinside]

/-- Settles O43: `k` increments add `4 * k` modulo `2^n`, which is `4 * 2^(n-2)`. -/
theorem ringIncCyclesThroughItsBlock : Obligations.RingIncCyclesThroughItsBlock := by
  intro a n k _ h3
  have hn : n ≠ 0 := by rintro rfl; exact absurd h3 (by decide)
  have hsize : 2 ^ n.toNat = 4 * 2 ^ (n.toNat - 2) := by
    have := Nat.pow_add 2 2 (n.toNat - 2)
    rwa [Nat.add_sub_cancel' (by omega)] at this
  calc (fun x => ringInc x n)^[k] a = a
      ↔ a.toNat / 2 ^ n.toNat * 2 ^ n.toNat + (a.toNat + 4 * k) % 2 ^ n.toNat = a.toNat := by
        rw [← BitVec.toNat_inj, iterate_ringInc_toNat hn]
    _ ↔ (a.toNat + 4 * k) % 2 ^ n.toNat = a.toNat % 2 ^ n.toNat := by
        have := Nat.div_add_mod' a.toNat (2 ^ n.toNat)
        omega
    _ ↔ 2 ^ n.toNat ∣ 4 * k := by
        exact Nat.add_modEq_left_iff
    _ ↔ 2 ^ (n.toNat - 2) ∣ k := by rw [hsize, Nat.mul_dvd_mul_iff_left (by decide)]

end Sys2Proof.Machine
end

section
/-! SUPPORT. Reads of CTRL as a command (40_host_register_access.md rules R165, R166, R170 and R174), and a START write that starts
engine 0 (rule R181). -/

namespace Sys2Proof.Machine

open Sys2Proof.Claims

variable {s : State} {e : Engine}

/-! ### A channel-slot read -/

/-- The bytes of a read command at engine 0's offset of a slot are the record of engine `e`'s (30_encoding.md rule R100). -/
theorem readBytesAt_channelOffset (slot : BitVec 4) (e : Engine) :
    readBytesAt (channelOffset slot .e0) e = commandRecord (channelOffset slot e) .read := by
  cases e with
  | e0 => rfl
  | e1 =>
    have hoff : ∀ slot : BitVec 4, channelOffset slot .e0 + 0x40 = channelOffset slot .e1 := by decide
    simp only [readBytesAt, commandRecord, hoff]

/-- The read of a slot delivers the register that the slot selects (40_host_register_access.md rules R144 and R145). -/
theorem slotReadRule_channelRead (hf : s.fault = none) (slot : BitVec 4) (e : Engine) :
    SlotReadRule (channelRead slot.toNat e) (channelOffset slot .e0) e (chanRead e (regAt slot.toNat) s) s := by
  refine ⟨fun m => ?_, ?_⟩
  · rw [readBytesAt_channelOffset, decode_channelRead]
  · rw [exec_channelRead_slot slot.isLt, conclude_ok hf]

/-- The word that a read of CTRL delivers is fixed by its three fields (30_encoding.md rule R107). -/
theorem eq_ctrlValue {c : Channel} {v : Word} (hbusy : v.getLsbD 31 = c.busy) (hzero : v.extractLsb' 16 15 = 0)
    (hctrl : v.extractLsb' 0 16 = c.ctrl) : v = ctrlValue c := by
  apply BitVec.eq_of_getLsbD_eq
  intro i hi
  have hbit (k : Nat) : (v.extractLsb' 16 15).getLsbD k = false := by rw [hzero]; simp
  rw [ctrlValue, ← hctrl, BitVec.getLsbD_append, BitVec.getLsbD_append]
  by_cases hlow : i < 16
  · simp [hlow]
  · by_cases hmid : i - 16 < 15
    · have := hbit (i - 16)
      simp [hmid, show 16 + (i - 16) = i by omega] at this
      simp [hlow, hmid, this]
    · obtain rfl : i = 31 := by omega
      simpa using hbusy

/-- Settles O13: slots 3, 4, 8 and 12 select CTRL. -/
theorem readsOfCtrl : Obligations.ReadsOfCtrl := by
  intro e s v hf hbusy hzero hctrl
  rw [eq_ctrlValue hbusy hzero hctrl]
  exact ⟨slotReadRule_channelRead hf 3 e, slotReadRule_channelRead hf 4 e, slotReadRule_channelRead hf 8 e,
    slotReadRule_channelRead hf 12 e⟩

/-! ### A START write -/

/-- The bits of a START word that names engine 0 alone (30_encoding.md rule R109). -/
theorem maskBit_of_one {v : Word} (h : v.extractLsb' 0 2 = 1) : maskBit v .e0 = true ∧ maskBit v .e1 = false := by
  have hbit : ∀ i, i < 2 → v.getLsbD i = (1#2).getLsbD i := fun i hi => by
    have := congrArg (BitVec.getLsbD · i) h
    simpa [hi] using this
  exact ⟨hbit 0 (by decide), hbit 1 (by decide)⟩

/-- A START write that names engine 0 alone is engine 0's trigger (rule R181). -/
theorem startWrite_of_one {v : Word} {m : Master} (h : v.extractLsb' 0 2 = 1) (hl : m = .host → s.live = false) :
    startWrite v m s = trigger .e0 s := by
  obtain ⟨h0, h1⟩ := maskBit_of_one h
  have hhost : ¬(m = .host ∧ s.live = true ∧ v.extractLsb' 0 2 ≠ 0) := by
    rintro ⟨hm, hlive, -⟩
    rw [hl hm] at hlive; cases hlive
  rw [startWrite, if_neg hhost, startTrigger, if_pos h0]
  cases trigger .e0 s with
  | error c => rfl
  | ok t => simp [startTrigger, h1]

/-- Settles O18: the one trigger that the word names starts engine 0. -/
theorem startTriggerStartsTheArmedCte : Obligations.StartTriggerStartsTheArmedCte := by
  intro v m s hf hl hv hidle hen hreload hsize
  rw [exec, execWrStart, startWrite_of_one hv hl, trigger_of_block (e := .e0) hidle hen hreload hsize, conclude_ok hf]
  rfl

end Sys2Proof.Machine
end

section
/-! SUPPORT. What a step runs: the host's next window access as the command it decodes to, the descriptor before the CTE, a placed
command (30_encoding.md rules R111, R113 and R118, 40_host_register_access.md rule R188). -/

namespace Sys2Proof.Machine

variable {s : State} {off : BitVec 8} {d : Access} {i : Instr} {turns : List Turn} {ops : List HostOp}

/-- A step of the host is its next command, on the state with the turn and the command taken off (rule R188). -/
theorem step_hostCommand {op : HostOp} (hf : s.fault = none) (hsched : s.sched = .host :: turns) (hhost : s.host = op :: ops) :
    step s = finish (hostCommand op { s with sched := turns, host := ops }) := by
  rw [step_of_sched hsched]
  simp only [takeTurn, hf, hostTurn, hhost]

theorem step_descriptorTurn (hf : s.fault = none) (hsched : s.sched = .descriptor :: turns) :
    step s = finish (descriptorTurn { s with sched := turns }) := by
  rw [step_of_sched hsched]
  simp only [takeTurn, hf]

/-- The descriptor before the CTE is what its turn runs (log entry 5). -/
theorem descriptorTurn_decodes (hat : atDescriptor s = true)
    (hi : decode .list (descriptorBytes s.ram s.ch0.readAddr) = .ok i) : descriptorTurn s = exec i s := by
  rw [descriptorTurn, if_pos hat, hi]

/-- A word access to an aligned window address runs the command its record decodes to (20_memory.md rule R68). -/
theorem hostAccess_of_command {a : Addr} (ha : wordAligned a = true) (hr : region s.cfg a = .window off)
    (hi : decode (.window .host) (commandRecord off d) = .ok i) : hostAccess a .word d s = exec i s := by
  simp [hostAccess, wordOf_aligned ha, hr, ha, runRecord, hi]

/-- Settles O28: the host's turn takes the command off, and the command is a window access. -/
theorem stepRunsTheHostsCommand : Obligations.StepRunsTheHostsCommand := by
  intro s a off d i ops turns hf hsched hhost ha hr hi
  rw [step_hostCommand hf hsched hhost]
  refine congrArg finish ?_
  cases d with
  | read => exact hostAccess_of_command ha hr hi
  | write v => exact hostAccess_of_command ha hr hi

/-- Settles O29: the descriptor turn decodes the eight bytes and runs what they decode to. -/
theorem stepRunsTheDescriptor : Obligations.StepRunsTheDescriptor := by
  intro s i turns hf hsched hat hi
  rw [step_descriptorTurn hf hsched]
  exact congrArg finish (descriptorTurn_decodes hat hi)

theorem decode_of_tableWord {w : Nat} (h : decodeTableWord 16 w = some i) : decode (.window .host) (tableBytes 16 w) = .ok i := by
  unfold decodeTableWord at h
  split at h
  · next j hj => cases h; exact hj
  · cases h

/-- A command's table word that lays out as a record lays out as the record of its offset and its access (log entry 2). -/
theorem tableBytes_of_record {w : Nat} (h : tableBytes 16 w = commandRecord off d) :
    tableBytes 16 w = commandRecord (BitVec.ofNat 8 w) (tableAccess w) ∧ off = BitVec.ofNat 8 w := by
  rw [tableBytes, if_neg (by decide)] at h ⊢
  cases hw : w.testBit 8 with
  | false =>
    cases d with
    | read => simp_all [commandRecord, tableAccess]
    | write v => simp [hw, commandRecord, wordBytes] at h
  | true =>
    cases d with
    | read => simp [hw, commandRecord, wordBytes] at h
    | write v => simp_all [commandRecord, tableAccess]

theorem toNat_of_aligned_offset (h : off &&& 3 = 0) : off.toNat % 4 = 0 := by
  revert off; decide

/-- Settles O30: a placed command is the host's next access, to the window address of its offset. -/
theorem placedCommandIsRunNext : Obligations.PlacedCommandIsRunNext := by
  intro s w i hf hwf h
  have hi := decode_of_tableWord h
  obtain ⟨off, d, halign, hbytes, -⟩ := decode_window_cases hi
  obtain ⟨hrecord, rfl⟩ := tableBytes_of_record hbytes
  have hblk := blkBase_of_wf hwf
  exact stepRunsTheHostsCommand (s.withFetchWord 16 w) (windowAddr s.cfg (BitVec.ofNat 8 w)) (BitVec.ofNat 8 w) (tableAccess w) i s.host
    s.sched hf rfl rfl (windowAddr_aligned hblk _ (toNat_of_aligned_offset halign)) (region_windowAddr hblk _) (hrecord ▸ hi)

end Sys2Proof.Machine
end

section
/-! SUPPORT. A descriptor run by the armed CTE (42_engine_transfer.md rules R248 and R249): two words that the descriptor names, whatever
RAM holds, go to the DTE's RELOAD and READ_ADDR, and the second triggers the DTE. -/

namespace Sys2Proof.Machine

open Sys2Proof.Claims

variable {s t a : State} {e : Engine} {v d : Word} {r : BitVec 4}

/-! ### One word that is known before the read -/

/-- A turn with a known word is the word's write, its count and the end of the step, where neither faults (rule R240). -/
theorem engineTurnWith_of_readsRam (h : ReadsRam e s)
    (hw : busWrite e (s.ch e).writeAddr v ((readTracked e s).record (.word e (s.ch e).readAddr (s.ch e).writeAddr v)) = .ok a)
    (hc : countWord e (a.setCh e (advance (s.ch e).readAddr (s.ch e).writeAddr (a.ch e))) = .ok t) :
    engineTurnWith e v s = endOfStep t := by
  have hch : (readTracked e s).ch e = s.ch e := by cases e <;> rfl
  simp only [engineTurnWith, h.enabled, engineStepWith, fetchWord_of_readsRam h, moveWord, hch, hw, hc, if_true]

/-! ### The CTE's registers -/

theorem readsRam_of_cteReady (h : CteReady d r s) : ReadsRam .e0 s := by
  obtain ⟨-, -, -, -, -, -, hpaced, -⟩ := cteCtrl_fields r
  constructor
  · exact engineEnabled_iff.2 ⟨h.noFault, h.busy, .inl (by rw [ch_e0, h.ctrl]; exact hpaced)⟩
  · rw [ch_e0, h.readAddr]; exact h.aligned
  · rw [ch_e0, h.writeAddr]; exact windowAddr_aligned (blkBase_of_wf h.cfgWf) _ (by decide)
  · rw [ch_e0, h.readAddr]; exact h.countRam
  · rw [ch_e0, h.readAddr]; exact h.countQuiet

/-- A word moves both of the CTE's addresses, the read address in its ring and the write address in 8 bytes (rule R248). -/
theorem advance_of_cteCtrl {c : Channel} (h : c.ctrl = ctrlStored (cteCtrl r 3)) (ra wa : Addr) :
    advance ra wa c = { c with readAddr := ringInc ra r, writeAddr := ringInc wa 3 } := by
  obtain ⟨-, -, hincr, hincw, hrring, hwring, -, -⟩ := cteCtrl_fields r
  simp only [advance, h, hincr, hincw, hrring, hwring, if_true]

/-- Between its two words the CTE stands at the descriptor's second word, and the DTE's RELOAD holds the count (rule R248). -/
def countLoaded (c d : Word) (r : BitVec 4) (s : State) : State :=
  { s with
    ch0 := { s.ch0 with readAddr := ringInc d r, writeAddr := windowAddr s.cfg 0x7C, remaining := 1 }
    ch1 := { s.ch1 with reload := c }
    rset := addSpan d.toNat 4 s.rset
    ev := s.ev ++ [.word .e0 d (windowAddr s.cfg 0x78) c] }

/-- The state in which the second word triggers the DTE: both words are stored, and the CTE has not yet gone on (rule R248). -/
def descriptorLoaded (c a d : Word) (r : BitVec 4) (s : State) : State :=
  { countLoaded c d r s with
    ch1 := { s.ch1 with reload := c, readAddr := a }
    rset := addSpan (ringInc d r).toNat 4 (addSpan d.toNat 4 s.rset)
    ev := s.ev ++ [.word .e0 d (windowAddr s.cfg 0x78) c] ++ [.word .e0 (ringInc d r) (windowAddr s.cfg 0x7C) a] }

theorem countLoaded_readsRam (h : CteReady d r s) (c : Word) : ReadsRam .e0 (countLoaded c d r s) := by
  obtain ⟨-, -, -, -, -, -, hpaced, -⟩ := cteCtrl_fields r
  refine ⟨engineEnabled_iff.2 ⟨h.noFault, h.busy, .inl ?_⟩, ringInc_aligned r h.aligned,
    windowAddr_aligned (blkBase_of_wf h.cfgWf) _ (by decide), h.addrRam, h.addrQuiet⟩
  show ctrlPaced s.ch0.ctrl = false
  rw [h.ctrl]; exact hpaced

/-! ### The two words -/

theorem engineTurnWith_count (h : CteReady d r s) (hb : s.ch1.busy = false) (c : Word) :
    engineTurnWith .e0 c s = countLoaded c d r s := by
  have hblk := blkBase_of_wf h.cfgWf
  have hwin : region s.cfg s.ch0.writeAddr = .window 0x78 := by rw [h.writeAddr]; exact region_windowAddr hblk _
  have hmore : s.ch0.remaining ≠ 1 := by rw [h.twoWords]; decide
  calc engineTurnWith .e0 c s = { s with
        ch0 := { advance s.ch0.readAddr s.ch0.writeAddr s.ch0 with remaining := s.ch0.remaining - 1 }
        ch1 := { s.ch1 with reload := c }
        rset := addSpan s.ch0.readAddr.toNat 4 s.rset
        ev := s.ev ++ [.word .e0 s.ch0.readAddr s.ch0.writeAddr c] } := by
        rw [engineTurnWith_of_readsRam (readsRam_of_cteReady h) (busWrite_of_count hwin hb) (countWord_of_more hmore),
          endOfStep_of_busy (e := .e0) (by exact h.busy)]
        rfl
    _ = countLoaded c d r s := by
        rw [advance_of_cteCtrl h.ctrl, h.readAddr, h.writeAddr, h.twoWords, ringInc_count_offset hblk]
        rfl

/-- Both words of a descriptor, for the state that the DTE's trigger answers (rules R248 and R249). -/
theorem loadDescriptor_of_trigger (h : CteReady d r s) (hb : s.ch1.busy = false) {c a : Word}
    (ht : trigger .e1 (descriptorLoaded c a d r s) = .ok t) :
    loadDescriptor c a s = endOfStep ((t.setCh .e0 { s.ch0 with
      readAddr := ringInc (ringInc d r) r, writeAddr := windowAddr s.cfg 0x78, remaining := 0, busy := false }).record
        (.complete .e0)) := by
  obtain ⟨-, -, -, -, -, -, -, hchain⟩ := cteCtrl_fields r
  have hblk := blkBase_of_wf h.cfgWf
  have hkept : t.ch0 = (countLoaded c d r s).ch0 := by
    obtain ⟨-, hother, -⟩ := trigger_frame ht
    exact hother .e0 (by decide)
  have hctrl : (countLoaded c d r s).ch0.ctrl = ctrlStored (cteCtrl r 3) := h.ctrl
  have hw : busWrite .e0 (windowAddr s.cfg 0x7C) a ((readTracked .e0 (countLoaded c d r s)).record
      (.word .e0 (ringInc d r) (windowAddr s.cfg 0x7C) a)) = .ok t :=
    (busWrite_of_address (s := (readTracked .e0 (countLoaded c d r s)).record _) (region_windowAddr hblk _) hb).trans ht
  rw [loadDescriptor, engineTurnWith_count h hb]
  refine engineTurnWith_of_readsRam (countLoaded_readsRam h c) hw ?_
  rw [ch_e0, ch_e0, hkept, advance_of_cteCtrl hctrl, countWord_of_last (by rfl), chain, if_neg]
  · simp only [setCh_setCh, setCh_ch_same, countLoaded, ringInc_address_offset hblk, BitVec.sub_self]
    rfl
  · show ¬ctrlChainEn s.ch0.ctrl = true
    rw [h.ctrl, hchain]; decide

/-- Settles O24: the trigger of the second word starts the DTE, so the sets are kept. -/
theorem dataDescriptorLoadsAndStartsTheDte : Obligations.DataDescriptorLoadsAndStartsTheDte := by
  intro c a d r s h hc hb hen hsize
  have ht := trigger_of_block (e := .e1) (s := descriptorLoaded c a d r s) hb hen hc hsize
  rw [exec, execDescData, conclude_ok h.noFault, loadDescriptor_of_trigger h hb ht, endOfStep_of_busy (e := .e1) (by rfl)]
  simp [State.record, State.setCh, descriptorLoaded, countLoaded]

end Sys2Proof.Machine
end

section
/-! SUPPORT. Arming a named configuration and starting it (43_pipeline_protocol.md rules R283, R284, R287, R290 and R291): the arming is a
list of plain channel-slot writes by a host that nothing disturbs, the start is one write of START. -/

namespace Sys2Proof.Machine

variable {s : State} {turns : List Turn} {ops : List HostOp}

/-! ### A quiet machine with a host's program -/

/-- What an arming host finds: legal parameters, no fault, nothing live and so no race sets. -/
structure Quiet (s : State) : Prop where
  cfgWf : Config.wf s.cfg = true
  noFault : s.fault = none
  notLive : s.live = false
  noReads : s.rset = []
  noWrites : s.wset = []

/-- The state with a program for the host and a schedule. -/
def programmed (ops : List HostOp) (turns : List Turn) (s : State) : State := { s with host := ops, sched := turns }

theorem Quiet.programmed (h : Quiet s) : Quiet (programmed ops turns s) := ⟨h.cfgWf, h.noFault, h.notLive, h.noReads, h.noWrites⟩

/-- The end of a step finds nothing to empty in a quiet machine (20_memory.md rule R79). -/
theorem Quiet.endOfStep (h : Quiet s) : endOfStep s = s := by
  obtain ⟨hk, -⟩ | ⟨hk, -, -⟩ := endOfStep_cases s
  · exact hk
  · have hsame : ∀ l m, s.rset = l → s.wset = m → { s with rset := l, wset := m } = s := by rintro _ _ rfl rfl; rfl
    rw [hk, hsame [] [] h.noReads h.noWrites]

/-- A step whose host has a window write next runs the command at that offset (20_memory.md rule R68, 30_encoding.md rule R118). -/
theorem step_programmed_wr {off : BitVec 8} (h : Quiet s) (hoff : off &&& 3 = 0) (v : Word) :
    step (programmed (wr s.cfg off v :: ops) (.host :: turns) s) =
      finish (exec (commandAt off (.write v) .host) (programmed ops turns s)) := by
  have hblk := blkBase_of_wf h.cfgWf
  exact stepRunsTheHostsCommand _ (windowAddr s.cfg off) off (.write v) _ ops turns h.noFault rfl rfl
    (windowAddr_aligned hblk off (toNat_of_aligned_offset hoff)) (region_windowAddr hblk off) (decode_record hoff _ _)

/-! ### Plain channel-slot writes -/

/-- A write of the host's to a channel slot: the slot, the engine and the data word. -/
structure SlotStore where
  slot : BitVec 4
  engine : Engine
  data : Word

/-- The host's command for it (30_encoding.md rule R118). -/
def SlotStore.op (cfg : Config) (x : SlotStore) : HostOp := wr cfg (channelOffset x.slot x.engine) x.data

/-- What it stores where the slot is no trigger slot (40_host_register_access.md rules R142 and R143). -/
def SlotStore.store (s : State) (x : SlotStore) : State := chanWrite x.engine (regAt x.slot.toNat) x.data s

theorem Quiet.store (h : Quiet s) (x : SlotStore) : Quiet (SlotStore.store s x) := by
  obtain ⟨hcfg, hfault, hlive, hrset, hwset⟩ := h
  constructor <;> simpa [SlotStore.store]

theorem store_programmed (x : SlotStore) : SlotStore.store (programmed ops turns s) x = programmed ops turns (SlotStore.store s x) := by
  obtain ⟨slot, e, v⟩ := x
  simp only [SlotStore.store]
  cases regAt slot.toNat <;> cases e <;> rfl

theorem regWrite_plain (h : s.live = false) (x : SlotStore) (hx : isTriggerSlot x.slot.toNat = false) (m : Master) :
    regWrite (channelOffset x.slot x.engine) x.data m s = .ok (SlotStore.store s x) := by
  obtain ⟨-, hchannel, hslot, hengine⟩ := channelOffset_fields x.slot x.engine
  rw [regWrite, hchannel, hslot, hengine]
  simp [slotWrite, not_busy_of_quiet s x.engine h, h, hx, SlotStore.store]

/-- A quiet step of a plain write stores its register, and does nothing else. -/
theorem step_store (h : Quiet s) (x : SlotStore) (hx : isTriggerSlot x.slot.toNat = false) :
    step (programmed (x.op s.cfg :: ops) (.host :: turns) s) = .next (programmed ops turns (SlotStore.store s x)) := by
  obtain ⟨halign, -⟩ := channelOffset_fields x.slot x.engine
  rw [SlotStore.op, step_programmed_wr h halign, exec_commandAt_write, regWrite_plain h.programmed.notLive x hx,
    conclude_ok h.programmed.noFault, store_programmed, finish, (h.store x).programmed.endOfStep]

/-- A program's plain writes are taken one after the other, and then the run goes on. -/
theorem run_stores (n : Nat) (l : List SlotStore) (hl : ∀ x ∈ l, isTriggerSlot x.slot.toNat = false) (h : Quiet s) :
    Host.Core.run Sys2Proof.core (n + l.length)
        (programmed (l.map (SlotStore.op s.cfg) ++ ops) (List.replicate l.length .host ++ turns) s) =
      Host.Core.run Sys2Proof.core n (programmed ops turns (l.foldl SlotStore.store s)) := by
  induction l generalizing s with
  | nil => rfl
  | cons x l ih =>
    have hcfg : (SlotStore.store s x).cfg = s.cfg := by simp [SlotStore.store]
    rw [List.foldl_cons, ← ih (fun y hy => hl y (List.mem_cons_of_mem x hy)) (h.store x), hcfg]
    exact core_run_succ (step_store h x (hl x List.mem_cons_self))

/-- Plain writes keep a quiet machine quiet, and its parameters, RAM, OUT and EV. -/
theorem foldl_store_keeps (l : List SlotStore) (h : Quiet s) :
    let t := l.foldl SlotStore.store s
    Quiet t ∧ t.cfg = s.cfg ∧ t.ram = s.ram ∧ t.out = s.out ∧ t.ev = s.ev := by
  induction l generalizing s with
  | nil => exact ⟨h, rfl, rfl, rfl, rfl⟩
  | cons x l ih => simpa [SlotStore.store] using ih (h.store x)

/-! ### Arming (rules R283, R284 and R287) -/

/-- The stores of a configuration's arming, in the order of the rules. -/
def armStores (cfg : Config) : Configuration → List SlotStore
  | .finite d fifo => [⟨1, .e1, fifo⟩, ⟨4, .e1, dteCtrl .e0⟩,
      ⟨0, .e0, d⟩, ⟨1, .e0, windowAddr cfg 0x78⟩, ⟨2, .e0, 2⟩, ⟨4, .e0, cteCtrl 0 3⟩]
  | .loop d fifo => [⟨1, .e1, fifo⟩, ⟨4, .e1, dteCtrl .e0⟩,
      ⟨0, .e0, d⟩, ⟨1, .e0, windowAddr cfg 0x78⟩, ⟨2, .e0, 2⟩, ⟨4, .e0, cteCtrl 4 3⟩]
  | .min p fifo n => [⟨1, .e1, fifo⟩, ⟨4, .e1, dteCtrl .e0⟩, ⟨2, .e1, n⟩,
      ⟨0, .e0, p⟩, ⟨1, .e0, windowAddr cfg 0x7C⟩, ⟨2, .e0, 1⟩, ⟨4, .e0, cteMinCtrl⟩]

theorem armOps_eq_map (cfg : Config) (k : Configuration) : armOps cfg k = (armStores cfg k).map (SlotStore.op cfg) := by
  cases k <;>
    simp only [armOps, armDteMin, armDte, armCte, armCteMin, armStores, List.cons_append, List.nil_append, List.map_cons, List.map_nil,
      SlotStore.op] <;>
    rfl

theorem armStores_plain (cfg : Config) (k : Configuration) : ∀ x ∈ armStores cfg k, isTriggerSlot x.slot.toNat = false := by
  cases k <;> simp [armStores, isTriggerSlot]

/-- The state that a configuration's arming leaves. -/
def armedState (k : Configuration) (s : State) : State := (armStores s.cfg k).foldl SlotStore.store s

theorem armedBy_armedState (k : Configuration) (s : State) : armedBy k (armedState k s) = true := by
  cases k <;> simp [armedBy, armedState, armStores, SlotStore.store, regAt, chanWrite, State.setCh]

theorem armedState_done (k : Configuration) (s : State) : (armedState k s).ch1.done = s.ch1.done := by
  cases k <;> rfl

/-- An armed CTE is enabled for words and has a block to move. -/
theorem cte_of_armedBy {k : Configuration} (h : armedBy k s = true) :
    ctrlEn s.ch0.ctrl = true ∧ s.ch0.reload ≠ 0 ∧ ctrlDataSize s.ch0.ctrl = wordSize := by
  cases k <;> simp only [armedBy, Bool.and_eq_true, beq_iff_eq] at h
  case finite d fifo =>
    obtain ⟨⟨⟨⟨-, hreload⟩, hctrl⟩, -⟩, -⟩ := h
    rw [hreload, hctrl]; decide
  case loop d fifo =>
    obtain ⟨⟨⟨⟨-, hreload⟩, hctrl⟩, -⟩, -⟩ := h
    rw [hreload, hctrl]; decide
  case min p fifo n =>
    obtain ⟨⟨⟨⟨⟨-, hreload⟩, hctrl⟩, -⟩, -⟩, -⟩ := h
    rw [hreload, hctrl]; decide

/-! ### The start trigger -/

/-- Engine 0 started on its block (41_trigger_and_completion.md rule R206). -/
def cteStarted (s : State) : State :=
  { s with
    ch0 := { s.ch0 with remaining := s.ch0.reload, busy := true }
    ev := s.ev ++ [.block .e0 s.ch0.readAddr s.ch0.writeAddr s.ch0.reload] }

theorem step_start {k : Configuration} (h : Quiet s) (harmed : armedBy k s = true) :
    step (programmed (startCte s.cfg) [.host] s) = .next (programmed [] [] (cteStarted s)) := by
  obtain ⟨hen, hreload, hsize⟩ := cte_of_armedBy harmed
  have hstart := startTriggerStartsTheArmedCte 1 .host (programmed [] [] s) h.noFault (fun _ => h.notLive) (by decide)
    (not_busy_of_quiet s .e0 h.notLive) hen hreload hsize
  rw [startCte, step_programmed_wr h (by decide)]
  exact (congrArg finish hstart).trans (congrArg _ (endOfStep_of_busy (e := .e0) rfl))

/-! ### The pipeline state (rule R289) -/

theorem inBlockReset_iff : inBlockReset s = true ↔
    s.ch0 = Channel.reset ∧ s.ch1 = Channel.reset ∧ s.rset = [] ∧ s.wset = [] ∧ s.fault = none := by
  simp [inBlockReset, and_assoc]

theorem quiet_of_inBlockReset (hwf : Config.wf s.cfg = true) (h : inBlockReset s = true) : Quiet s := by
  obtain ⟨h0, h1, hrset, hwset, hfault⟩ := inBlockReset_iff.1 h
  exact ⟨hwf, hfault, by rw [State.live, h0, h1]; rfl, hrset, hwset⟩

theorem pipelineState_armed {k : Configuration} (h : Quiet s) (harmed : armedBy k s = true) (hdone : s.ch1.done = false) :
    pipelineState k none s = some .armed := by
  have hreset : inBlockReset s = false := by
    obtain ⟨-, hreload, -⟩ := cte_of_armedBy harmed
    refine Bool.eq_false_iff.2 fun hr => hreload ?_
    obtain ⟨h0, -⟩ := inBlockReset_iff.1 hr
    rw [h0]; rfl
  simp [pipelineState, hreset, harmed, h.notLive, hdone]

theorem pipelineState_started (k : Configuration) (s : State) :
    pipelineState k (some s.ev.length) (cteStarted s) = some (.loading 0) := by
  simp [pipelineState, cteStarted, blocksSince, isBlockOf]

/-- A machine whose host is about to arm and start a configuration and has all the turns it needs. -/
theorem eq_programmed {k : Configuration} (hhost : s.host = armOps s.cfg k ++ startCte s.cfg)
    (hsched : s.sched = List.replicate s.host.length .host) :
    s = programmed ((armStores s.cfg k).map (SlotStore.op s.cfg) ++ startCte s.cfg)
      (List.replicate (armStores s.cfg k).length .host ++ [.host]) s := by
  have hturns : s.sched = List.replicate (armStores s.cfg k).length .host ++ [.host] := by
    rw [hsched, hhost, armOps_eq_map, List.length_append, List.length_map, List.replicate_add]; rfl
  rw [armOps_eq_map] at hhost
  rw [← hhost, ← hturns]
  rfl

/-- Settles O58: the arming is plain stores in a quiet machine, and the start trigger finds the CTE armed. -/
theorem armingAndStartingReachesLoading : Obligations.ArmingAndStartingReachesLoading := by
  intro k s hwf hreset hhost hsched
  have hquiet := quiet_of_inBlockReset hwf hreset
  have hlen : (armOps s.cfg k).length = (armStores s.cfg k).length := by rw [armOps_eq_map, List.length_map]
  have hrun (n : Nat) : Host.Core.run Sys2Proof.core (n + (armStores s.cfg k).length) s =
      Host.Core.run Sys2Proof.core n (programmed (startCte s.cfg) [.host] (armedState k s)) :=
    (congrArg _ (eq_programmed hhost hsched)).trans (run_stores n _ (armStores_plain s.cfg k) hquiet)
  obtain ⟨hq, hcfg, hram, hout, hev⟩ := foldl_store_keeps (armStores s.cfg k) hquiet
  have harmed := armedBy_armedState k s
  have hdone : (armedState k s).ch1.done = false := by
    obtain ⟨-, h1, -⟩ := inBlockReset_iff.1 hreset
    rw [armedState_done, h1]; rfl
  refine ⟨by simp [pipelineState, hreset], ⟨programmed (startCte s.cfg) [.host] (armedState k s), ?_,
    pipelineState_armed hq.programmed harmed hdone, hev, hram, hout⟩,
    programmed [] [] (cteStarted (armedState k s)), ?_, ?_, rfl, hram, hout⟩
  · rw [hlen, ← Nat.zero_add (List.length _), hrun]
    rfl
  · have hstart := step_start hq harmed
    rw [hcfg] at hstart
    rw [hhost, List.length_append, hlen, Nat.add_comm]
    exact (hrun 1).trans (core_run_succ (n := 0) hstart)
  · rw [← hev]
    exact pipelineState_started k (armedState k s)

end Sys2Proof.Machine
end

section
/-! SUPPORT. Channel register writes as commands (40_host_register_access.md rules R141 to R143 and R146 to R161): the write of a slot
is its two checks, the store of the slot's register and, at a trigger slot, the trigger on the value just written. -/

namespace Sys2Proof.Machine

open Sys2Proof.Claims

variable {s : State} {e : Engine} {v : Word} {m : Master}

/-! ### Triggers that are ignored or fault (41_trigger_and_completion.md rules R203 and R205) -/

theorem trigger_of_disabled (hb : (s.ch e).busy = false) (hen : ctrlEn (s.ch e).ctrl = false) :
    trigger e s = .ok (s.record (.ignored e)) := by
  rw [trigger, if_neg (by simp [hb]), if_pos (by simp [hen])]

theorem trigger_of_wrong_size (hb : (s.ch e).busy = false) (hen : ctrlEn (s.ch e).ctrl = true) (hr : (s.ch e).reload ≠ 0)
    (hd : ctrlDataSize (s.ch e).ctrl ≠ wordSize) : trigger e s = .error .dataSize := by
  rw [trigger, if_neg (by simp [hb]), if_neg (by simp [hen]), if_neg hr, if_pos (by simpa using hd)]

/-! ### A slot write, by its checks (rule R141) -/

/-- Engine `e`'s slot lies as far above its channel block's base as engine 0's slot above offset 0 (30_encoding.md rule R100). -/
theorem channelOffset_eq_base_add (slot : BitVec 4) (e : Engine) :
    channelOffset 0 e + channelOffset slot .e0 = channelOffset slot e := by
  cases e <;> revert slot <;> decide

/-- The bytes of a write command at engine 0's offset of a slot decode to engine `e`'s write of the slot (30_encoding.md rules R100
and R111). -/
theorem decode_writeBytesAt (slot : BitVec 4) (e : Engine) (v : Word) (m : Master) :
    decode (.window m) (writeBytesAt (channelOffset slot .e0) e v) = .ok (channelWrite slot.toNat e v m) := by
  rw [← decode_channelWrite]
  cases e with
  | e0 => rfl
  | e1 =>
    have hoff : channelOffset slot .e0 + 0x40 = channelOffset slot .e1 :=
      (BitVec.add_comm _ _).trans (channelOffset_eq_base_add slot .e1)
    simp only [writeBytesAt, commandRecord, hoff]

theorem exec_channelWrite_of_busy (hf : s.fault = none) (hb : (s.ch e).busy = true) (slot : BitVec 4) (v : Word) (m : Master) :
    exec (channelWrite slot.toNat e v m) s = .next (raiseFault .writeBusy s) := by
  rw [exec_channelWrite slot.isLt, slotWrite, if_pos hb, conclude_error hf]

theorem exec_channelWrite_of_live (hf : s.fault = none) (hb : (s.ch e).busy = false) (hm : m = .host) (hl : s.live = true)
    (slot : BitVec 4) (v : Word) : exec (channelWrite slot.toNat e v m) s = .next (raiseFault .hostLive s) := by
  rw [exec_channelWrite slot.isLt, slotWrite, if_neg (by simp [hb]), if_pos ⟨hm, hl⟩, conclude_error hf]

/-- A write that passes both checks stores the register, and at a trigger slot then triggers (rule R142). -/
theorem slotWrite_of_allowed (hb : (s.ch e).busy = false) (hl : m = .host → s.live = false) (r : ChanReg) (trig : Bool) (v : Word) :
    slotWrite e r trig v m s = if trig then trigger e (chanWrite e r v s) else .ok (chanWrite e r v s) := by
  have hhost : ¬(m = .host ∧ s.live = true) := fun ⟨hm, hlive⟩ => by rw [hl hm] at hlive; cases hlive
  rw [slotWrite, if_neg (by simp [hb]), if_neg hhost]

/-- A slot that is no trigger slot takes a plain store of the register it selects (rule R143). -/
theorem slotWriteRule_channelWrite (hf : s.fault = none) (slot : BitVec 4) (ht : isTriggerSlot slot.toNat = false) :
    SlotWriteRule (channelWrite slot.toNat e v m) (channelOffset slot .e0) e v m s (chanWrite e (regAt slot.toNat) v s) := by
  refine ⟨decode_writeBytesAt slot e v m, fun hb => exec_channelWrite_of_busy hf hb slot v m,
    fun hb hm hl => exec_channelWrite_of_live hf hb hm hl slot v, fun hb hl => ?_⟩
  rw [exec_channelWrite slot.isLt, slotWrite_of_allowed hb hl, ht, if_neg Bool.false_ne_true, conclude_ok hf]

/-- A trigger slot stores its register and then triggers its engine, which the check has found idle, so TRIGGER_BUSY cannot arise
(rule R149). -/
theorem triggerSlotRule_channelWrite (hf : s.fault = none) (slot : BitVec 4) (ht : isTriggerSlot slot.toNat = true) :
    TriggerSlotRule (channelWrite slot.toNat e v m) (channelOffset slot .e0) e v m s (chanWrite e (regAt slot.toNat) v s) := by
  refine ⟨decode_writeBytesAt slot e v m, fun hb => exec_channelWrite_of_busy hf hb slot v m,
    fun hb hm hl => exec_channelWrite_of_live hf hb hm hl slot v, fun hb hl => ?_⟩
  have hidle : ((chanWrite e (regAt slot.toNat) v s).ch e).busy = false := by rw [chanWrite_busy, hb]
  rw [exec_channelWrite slot.isLt, slotWrite_of_allowed hb hl, ht, if_pos rfl]
  refine ⟨fun hen => ?_, fun hen hr => ?_, fun hen hr hd => ?_, fun hen hr hd => ?_⟩
  · rw [trigger_of_disabled hidle hen, conclude_ok hf]; rfl
  · rw [trigger_of_null hidle hen hr, conclude_ok hf]
  · rw [trigger_of_wrong_size hidle hen hr hd, conclude_error hf]; rfl
  · rw [trigger_of_block hidle hen hr hd, conclude_ok hf]

/-- Settles O7: slots 0, 5 and 10 select READ_ADDR, slots 1, 6 and 13 WRITE_ADDR, and none of them triggers. -/
theorem plainWritesOfTheAddressRegisters : Obligations.PlainWritesOfTheAddressRegisters := fun _ _ _ _ hf =>
  ⟨slotWriteRule_channelWrite hf 0 rfl, slotWriteRule_channelWrite hf 5 rfl, slotWriteRule_channelWrite hf 10 rfl,
    slotWriteRule_channelWrite hf 1 rfl, slotWriteRule_channelWrite hf 6 rfl, slotWriteRule_channelWrite hf 13 rfl⟩

/-- Settles O8: slots 2, 9 and 14 select TRANS_COUNT, and a trigger that finds the stored 0 is a null trigger. -/
theorem plainWritesOfTransCount : Obligations.PlainWritesOfTransCount := by
  intro e v m s hf
  refine ⟨⟨slotWriteRule_channelWrite hf 2 rfl, slotWriteRule_channelWrite hf 9 rfl, slotWriteRule_channelWrite hf 14 rfl⟩, ?_⟩
  rintro rfl hb hen
  rw [trigger_of_null (by simpa using hb) (by simpa using hen) (by simp)]
  simp

/-- Settles O9: slots 4, 8 and 12 select CTRL, and none of them triggers. -/
theorem plainWritesOfCtrl : Obligations.PlainWritesOfCtrl := fun _ _ _ _ hf =>
  ⟨slotWriteRule_channelWrite hf 4 rfl, slotWriteRule_channelWrite hf 8 rfl, slotWriteRule_channelWrite hf 12 rfl⟩

/-- Settles O10: slots 3, 7, 11 and 15 trigger, and select CTRL, TRANS_COUNT, WRITE_ADDR and READ_ADDR. -/
theorem triggerSlotWritesStoreThenTrigger : Obligations.TriggerSlotWritesStoreThenTrigger := fun _ _ _ _ hf =>
  ⟨triggerSlotRule_channelWrite hf 3 rfl, triggerSlotRule_channelWrite hf 7 rfl, triggerSlotRule_channelWrite hf 11 rfl,
    triggerSlotRule_channelWrite hf 15 rfl⟩

end Sys2Proof.Machine
end

section
/-! SUPPORT. Register reads (40_host_register_access.md rules R140, R144, R145, R162 to R177, R178, R180 and R182): the word that each
offset of the map delivers. -/

namespace Sys2Proof.Machine

open Sys2Proof.Claims

variable {s : State} {e : Engine} {v : Word}

/-! ### Reads as commands -/

/-- Settles O11: slots 0, 5, 10 and 15 select READ_ADDR, slots 1, 6, 11 and 13 WRITE_ADDR. -/
theorem readsOfTheAddressRegisters : Obligations.ReadsOfTheAddressRegisters := fun e _ hf =>
  ⟨slotReadRule_channelRead hf 0 e, slotReadRule_channelRead hf 5 e, slotReadRule_channelRead hf 10 e, slotReadRule_channelRead hf 15 e,
    slotReadRule_channelRead hf 1 e, slotReadRule_channelRead hf 6 e, slotReadRule_channelRead hf 11 e, slotReadRule_channelRead hf 13 e⟩

/-- The mux of rule R144 picks by BUSY. -/
theorem eq_chanRead_transCount (hbusy : (s.ch e).busy = true → v = (s.ch e).remaining)
    (hidle : (s.ch e).busy = false → v = (s.ch e).reload) : v = chanRead e .transCount s := by
  cases hb : (s.ch e).busy with
  | true => rw [hbusy hb, chanRead, if_pos hb]
  | false => rw [hidle hb, chanRead, if_neg (by simp [hb])]

/-- Settles O12: slots 2, 7, 9 and 14 select TRANS_COUNT. -/
theorem readsOfTransCount : Obligations.ReadsOfTransCount := by
  intro e s v hf hbusy hidle
  rw [eq_chanRead_transCount hbusy hidle]
  exact ⟨slotReadRule_channelRead hf 2 e, slotReadRule_channelRead hf 7 e, slotReadRule_channelRead hf 9 e,
    slotReadRule_channelRead hf 14 e⟩

/-- The word of two flags, as INTR and BUSY give it, is fixed by its fields (30_encoding.md rules R105 and R110). -/
theorem eq_flags {a b : Bool} (hzero : v.extractLsb' 2 30 = 0) (h1 : v.getLsbD 1 = a) (h0 : v.getLsbD 0 = b) :
    v = 0#30 ++ BitVec.ofBool a ++ BitVec.ofBool b := by
  apply BitVec.eq_of_getLsbD_eq
  intro i hi
  rw [BitVec.getLsbD_append, BitVec.getLsbD_append]
  match i with
  | 0 => simpa using h0
  | 1 => simpa using h1
  | k + 2 =>
    have hk : (v.extractLsb' 2 30).getLsbD k = false := by rw [hzero]; simp
    simpa [show k < 30 by omega, Nat.add_comm 2 k] using hk

/-- Settles O14: a global read delivers its register's word, which for INTR and BUSY is the two flags. -/
theorem readsOfTheGlobalRegisters : Obligations.ReadsOfTheGlobalRegisters := by
  intro s v w hf hv hv1 hv0 hw hw1 hw0
  rw [eq_flags hv hv1 hv0, eq_flags hw hw1 hw0]
  exact ⟨conclude_ok hf, conclude_ok hf, conclude_ok hf⟩

/-! ### `RegRead` -/

theorem regRead_channelOffset (slot : BitVec 4) (e : Engine) (s : State) :
    regRead (channelOffset slot e) s = .ok (chanRead e (regAt slot.toNat) s) := by
  obtain ⟨-, hchannel, hslot, hengine⟩ := channelOffset_fields slot e
  rw [regRead, if_neg (Bool.eq_false_iff.1 hchannel), hslot, hengine]

/-- `RegRead` at the offsets of slots that all select one register returns that register. -/
theorem regRead_of_slots (slots : List (BitVec 4)) (r : ChanReg) (h : ∀ k ∈ slots, regAt k.toNat = r) (e : Engine) (s : State) :
    ∀ off ∈ slots.map (channelOffset · .e0), regRead (channelOffset 0 e + off) s = .ok (chanRead e r s) := by
  intro off hoff
  obtain ⟨slot, hslot, rfl⟩ := List.mem_map.1 hoff
  rw [channelOffset_eq_base_add, regRead_channelOffset, h slot hslot]

/-- Settles O15: each register's four slots, the three global registers, the reserved range. -/
theorem regReadFollowsTheMap : Obligations.RegReadFollowsTheMap := by
  intro e s base
  have hbase : base = channelOffset 0 e := by cases e <;> rfl
  rw [hbase]
  exact ⟨regRead_of_slots [0, 5, 10, 15] .readAddr (by decide) e s, regRead_of_slots [1, 6, 11, 13] .writeAddr (by decide) e s,
    regRead_of_slots [2, 7, 9, 14] .transCount (by decide) e s, regRead_of_slots [3, 4, 8, 12] .ctrl (by decide) e s,
    rfl, rfl, rfl, fun _ h _ => regRead_of_reserved h s⟩

end Sys2Proof.Machine
end

section
/-! SUPPORT. Global register writes and the reserved range as commands (40_host_register_access.md rules R179, R181, R183 and R184). -/

namespace Sys2Proof.Machine

variable {s : State} {v : Word} {m : Master}

/-! ### INTR and BUSY -/

/-- An INTR write is the two flags cleared as the data word says, and every other field as it was (rule R179). -/
theorem intrWrite_eq (v : Word) (s : State) :
    intrWrite v s = { s with
      ch0 := { s.ch0 with done := s.ch0.done && !(v.getLsbD 0) }
      ch1 := { s.ch1 with done := s.ch1.done && !(v.getLsbD 1) } } := by
  apply state_ext
  case h1 => exact intrWrite_ch s .e0 v
  case h2 => exact intrWrite_ch s .e1 v
  all_goals simp

/-- Settles O16: the record is that of global index 0, and the write clears the named flags. -/
theorem intrWriteClearsTheNamedFlags : Obligations.IntrWriteClearsTheNamedFlags := by
  intro v m s hf
  refine ⟨decode_global 0 (.write v) m, ?_⟩
  rw [← intrWrite_eq]
  exact conclude_ok hf

/-- Settles O19: the record is that of global index 2, and its meaning ends with the state as it was. -/
theorem busyWriteIsSkipped : Obligations.BusyWriteIsSkipped :=
  fun v m _ hf => ⟨decode_global 2 (.write v) m, conclude_ok hf⟩

/-! ### START (rule R181) -/

/-- Bits 1:0 of a data word are the two engines' bits (30_encoding.md rule R109). -/
theorem maskBit_of_low_bits {b : BitVec 2} (h : v.extractLsb' 0 2 = b) :
    maskBit v .e0 = b.getLsbD 0 ∧ maskBit v .e1 = b.getLsbD 1 := by
  subst h
  simp [maskBit]

theorem startTrigger_of_named {e : Engine} (h : maskBit v e = true) : startTrigger v e s = trigger e s := if_pos h

theorem startTrigger_of_unnamed {e : Engine} (h : maskBit v e = false) : startTrigger v e s = .ok s :=
  if_neg (Bool.eq_false_iff.1 h)

theorem startWrite_of_live (hm : m = .host) (hl : s.live = true) (hv : v.extractLsb' 0 2 ≠ 0) :
    startWrite v m s = .error .hostLive := if_pos ⟨hm, hl, hv⟩

/-- A START write that passes its check is the trigger of engine 0 and then, unless that faulted, of engine 1, each where its bit
names it. -/
theorem startWrite_of_allowed (h : m = .host → s.live = true → v.extractLsb' 0 2 = 0) :
    startWrite v m s = (startTrigger v .e0 s).bind (startTrigger v .e1) := by
  rw [startWrite, if_neg fun ⟨hm, hl, hv⟩ => hv (h hm hl)]
  cases startTrigger v .e0 s <;> rfl

/-- Settles O17, by the two bits of the data word. -/
theorem startWriteTriggersInOrder : Obligations.StartWriteTriggersInOrder := by
  intro v m s hf
  have hexec : exec (.wrStart v m) s = conclude s (startWrite v m s) := rfl
  rw [hexec]
  refine ⟨decode_global 1 (.write v) m, fun hm hl hv => ?_, fun hv => ?_, fun hl => ?_⟩
  · rw [startWrite_of_live hm hl hv, conclude_error hf]; rfl
  · obtain ⟨h0, h1⟩ := maskBit_of_low_bits hv
    rw [startWrite_of_allowed fun _ _ => hv, startTrigger_of_unnamed h0]
    exact (congrArg _ (startTrigger_of_unnamed h1)).trans (conclude_ok hf)
  · have hallowed : m = .host → s.live = true → v.extractLsb' 0 2 = 0 := fun hm hlive => by rw [hl hm] at hlive; cases hlive
    refine ⟨fun hv => by rw [startWrite_of_one hv hl], fun hv => ?_, fun hv => ?_⟩
    · obtain ⟨h0, h1⟩ := maskBit_of_low_bits hv
      rw [startWrite_of_allowed hallowed, startTrigger_of_unnamed h0]
      exact congrArg _ (startTrigger_of_named h1)
    · obtain ⟨h0, h1⟩ := maskBit_of_low_bits hv
      rw [startWrite_of_allowed hallowed, startTrigger_of_named h0]
      cases trigger .e0 s with
      | error c => rfl
      | ok t => exact congrArg _ (startTrigger_of_named h1)

/-! ### The reserved range (rule R184) -/

/-- A global index that names none of the three registers names one of the four reserved rows (30_encoding.md rule R104). -/
theorem globalCommand_of_reserved {g : BitVec 5} (h0 : g ≠ 0) (h1 : g ≠ 1) (h2 : g ≠ 2) (d : Access) (m : Master) :
    globalCommand g d m = .reserved8C d ∨ (∃ k, globalCommand g d m = .reserved90 k d) ∨
      (∃ k, globalCommand g d m = .reservedA0 k d) ∨ ∃ k, globalCommand g d m = .reservedC0 k d := by
  unfold globalCommand
  rw [if_neg h0, if_neg h1, if_neg h2]
  repeat' split
  · exact .inl rfl
  · exact .inr (.inl ⟨_, rfl⟩)
  · exact .inr (.inr (.inl ⟨_, rfl⟩))
  · exact .inr (.inr (.inr ⟨_, rfl⟩))

/-- Settles O20: the four rows raise the fault, and an offset from 0x8C on names one of them. -/
theorem reservedOffsetsFault : Obligations.ReservedOffsetsFault := by
  refine ⟨fun d g2 g3 g4 s hf => ⟨conclude_error hf _, conclude_error hf _, conclude_error hf _, conclude_error hf _⟩, ?_⟩
  intro off v m d s hoff halign
  refine ⟨regRead_of_reserved hoff s, regWrite_of_reserved hoff v m s, commandAt off d m,
    decode_record (aligned_offset_iff.2 halign) d m, ?_⟩
  obtain ⟨hglobal, h0, h1, h2⟩ := reserved_offset_fields hoff
  unfold commandAt
  rw [if_pos hglobal]
  exact globalCommand_of_reserved h0 h1 h2 d m

end Sys2Proof.Machine
end

section
/-! SUPPORT. The host's polling loop (40_host_register_access.md rule R187). -/

namespace Sys2Proof.Machine

variable {s t : State} {a : Addr} {mask : Word} {ops : List HostOp}

/-- A host turn whose command is a `POLL` is its read, and the `POLL` put back where the read calls for another. -/
theorem hostTurn_of_poll (hhost : s.host = .poll a mask :: ops) (hread : hostAccess a .word .read { s with host := ops } = .next t) :
    hostTurn s = .next (if pollAgain mask t then { t with host := .poll a mask :: t.host } else t) := by
  simp only [hostTurn, hhost, hostCommand, hread]

theorem pollAgain_iff (hf : t.fault = none) : pollAgain mask t = true ↔ t.rdata &&& mask = 0 := by
  simp [pollAgain, hf]

/-- Settles O31, by whether the read's word meets the mask. -/
theorem pollRepeatsUntilTheMaskIsMet : Obligations.PollRepeatsUntilTheMaskIsMet := by
  intro s t a mask ops hhost hread hf
  rw [hostTurn_of_poll hhost hread]
  exact ⟨fun hmet => by rw [if_neg (mt (pollAgain_iff hf).1 hmet)], fun hmiss => by rw [if_pos ((pollAgain_iff hf).2 hmiss)]⟩

end Sys2Proof.Machine
end

section
/-! SUPPORT. Triggers inside a word step (41_trigger_and_completion.md rules R201, R213 and R247): the writer is busy, so no trigger of
its own bus write can be its own, and a write of START starts at most the other engine. -/

namespace Sys2Proof.Machine

variable {s t u : State} {e e' : Engine} {m : Master} {v : Word} {j k : Nat}

theorem trigger_of_busy (hb : (s.ch e).busy = true) : trigger e s = .error .triggerBusy := if_pos hb

/-- Settles O21, check by check. -/
theorem triggerChecksInOrder : Obligations.TriggerChecksInOrder := by
  refine fun e s => ⟨trigger_of_busy, trigger_of_disabled, fun hb hen hr => ?_, trigger_of_wrong_size, fun hb hen hr hd => ?_⟩
  · rw [trigger_of_null hb hen hr, State.record, setCh_ev]
  · rw [trigger_of_block hb hen hr hd, State.record, setCh_ev]

/-! ### The writer's registers -/

/-- From `s` to `t` engine `e` keeps its registers, its counter and its busy flag; DONE may go. -/
def RegistersKept (e : Engine) (s t : State) : Prop := ∃ done, t.ch e = { s.ch e with done := done }

theorem RegistersKept.of_same (h : t.ch e = s.ch e) : RegistersKept e s t := ⟨_, h⟩

/-- A trigger that answers is of an idle engine, so not of a busy one. -/
theorem trigger_ne_of_busy (hb : (s.ch e).busy = true) (h : trigger e' s = .ok t) : e ≠ e' := by
  rintro rfl
  obtain ⟨hidle, -⟩ := trigger_cases h
  cases hb.symm.trans hidle

theorem trigger_ch_of_busy (hb : (s.ch e).busy = true) (h : trigger e' s = .ok t) : t.ch e = s.ch e := by
  obtain ⟨-, hother, -⟩ := trigger_frame h
  exact hother e (trigger_ne_of_busy hb h)

theorem regWrite_registersKept {off : BitVec 8} (hb : (s.ch e).busy = true) (h : regWrite off v m s = .ok t) :
    RegistersKept e s t := by
  refine regWrite_keeps (RegistersKept e s) h (.of_same rfl) (fun e' r hidle => .of_same ?_) ⟨_, intrWrite_ch s e v⟩ ?_
  · exact chanWrite_other s e' e v r (by rintro rfl; cases hb.symm.trans hidle)
  · rintro e' a b ht ⟨done, ha⟩
    have hbusy : (a.ch e).busy = true := by rw [ha]; exact hb
    exact ⟨done, (trigger_ch_of_busy hbusy ht).trans ha⟩

theorem busWrite_registersKept {x : Addr} (hb : (s.ch e).busy = true) (h : busWrite e' x v s = .ok t) :
    RegistersKept e s t := by
  obtain ⟨-, rfl⟩ | ⟨off, -, h⟩ | ⟨-, -, rfl⟩ := busWrite_cases h
  · exact .of_same (by cases e <;> rfl)
  · exact regWrite_registersKept hb h
  · exact .of_same (by cases e <;> rfl)

/-- Settles O23, by what the write reaches. -/
theorem busWriteLeavesTheWriterAlone : Obligations.BusWriteLeavesTheWriterAlone := by
  intro e a v s t hb h
  obtain ⟨done, hch⟩ := busWrite_registersKept hb h
  rw [hch]
  exact ⟨rfl, rfl, rfl, rfl, rfl, hb⟩

/-! ### Counting triggers -/

/-- From `s` to `t` at most `k` triggers are recorded. -/
def TriggersAtMost (k : Nat) (s t : State) : Prop := ∃ l, t.ev = s.ev ++ l ∧ l.countP isTriggerEvent ≤ k

theorem TriggersAtMost.of_same (h : t.ev = s.ev) : TriggersAtMost k s t := ⟨[], by simp [h], by simp⟩

theorem TriggersAtMost.trans (h : TriggersAtMost j s t) (h' : TriggersAtMost k t u) : TriggersAtMost (j + k) s u := by
  obtain ⟨l, ht, hl⟩ := h
  obtain ⟨l', hu, hl'⟩ := h'
  exact ⟨l ++ l', by rw [hu, ht, List.append_assoc], by rw [List.countP_append]; omega⟩

theorem TriggersAtMost.mono (h : TriggersAtMost j s t) (hjk : j ≤ k) : TriggersAtMost k s t := by
  obtain ⟨l, ht, hl⟩ := h
  exact ⟨l, ht, hl.trans hjk⟩

theorem record_triggers {x : Event} (hx : isTriggerEvent x = false) (s : State) : TriggersAtMost 0 s (s.record x) :=
  ⟨[x], rfl, by simp [hx]⟩

theorem trigger_triggers (h : trigger e s = .ok t) : TriggersAtMost 1 s t := by
  obtain ⟨⟨x, hx, hev⟩, -⟩ := trigger_frame h
  exact ⟨[x], hev, by simp [hx]⟩

theorem startTrigger_triggers (h : startTrigger v e s = .ok t) : TriggersAtMost 1 s t := by
  obtain ⟨-, rfl⟩ | ⟨-, h⟩ := startTrigger_cases h
  · exact .of_same rfl
  · exact trigger_triggers h

/-- A START write's trigger of a busy engine that answers did not happen. -/
theorem startTrigger_eq_of_busy (hb : (s.ch e).busy = true) (h : startTrigger v e s = .ok t) : t = s := by
  obtain ⟨-, ht⟩ | ⟨-, h⟩ := startTrigger_cases h
  · exact ht
  · exact absurd rfl (trigger_ne_of_busy hb h)

theorem startTrigger_ch_of_busy (hb : (s.ch e).busy = true) (h : startTrigger v e' s = .ok t) : t.ch e = s.ch e := by
  obtain ⟨-, rfl⟩ | ⟨-, h⟩ := startTrigger_cases h
  · rfl
  · exact trigger_ch_of_busy hb h

/-- With an engine busy, a write of START triggers at most the other one (40_host_register_access.md rule R181). -/
theorem startWrite_triggers (hb : (s.ch e).busy = true) (h : startWrite v m s = .ok t) : TriggersAtMost 1 s t := by
  obtain ⟨u, h0, h1⟩ := startWrite_cases h
  cases e with
  | e0 =>
    obtain rfl := startTrigger_eq_of_busy hb h0
    exact startTrigger_triggers h1
  | e1 =>
    have hbusy : (u.ch .e1).busy = true := by rw [startTrigger_ch_of_busy hb h0]; exact hb
    obtain rfl := startTrigger_eq_of_busy hbusy h1
    exact startTrigger_triggers h0

theorem regWrite_triggers {off : BitVec 8} (hb : (s.ch e).busy = true) (h : regWrite off v m s = .ok t) :
    TriggersAtMost 1 s t := by
  obtain rfl | h | rfl | ⟨e', r, trig, h⟩ := regWrite_cases h
  · exact .of_same (by simp)
  · exact startWrite_triggers hb h
  · exact .of_same rfl
  · obtain ⟨-, -, ⟨-, rfl⟩ | ⟨-, h⟩⟩ := slotWrite_cases h
    · exact .of_same (by simp)
    · exact (TriggersAtMost.of_same (k := 0) (by simp)).trans (trigger_triggers h)

theorem busWrite_triggers {x : Addr} (hb : (s.ch e).busy = true) (h : busWrite e' x v s = .ok t) : TriggersAtMost 1 s t := by
  obtain ⟨-, rfl⟩ | ⟨off, -, h⟩ | ⟨-, -, rfl⟩ := busWrite_cases h
  · exact .of_same rfl
  · exact regWrite_triggers hb h
  · exact .of_same rfl

/-- The counter triggers at most by the chain (rule R210). -/
theorem countWord_triggers (h : countWord e s = .ok t) : TriggersAtMost 1 s t := by
  obtain ⟨-, rfl⟩ | ⟨-, h⟩ := countWord_cases h
  · exact .of_same (by simp)
  · have hcomplete : ∀ c, TriggersAtMost 0 s ((s.setCh e c).record (.complete e)) := fun c =>
      (TriggersAtMost.of_same (k := 0) (setCh_ev s e c)).trans (record_triggers rfl (s.setCh e c))
    obtain ⟨-, rfl⟩ | ⟨-, h⟩ := chain_cases h
    · exact (hcomplete _).mono (Nat.zero_le 1)
    · exact (hcomplete _).trans (trigger_triggers h)

/-- The rest of a busy engine's word step triggers at most in its write and in its chain. -/
theorem moveWord_triggers (hb : (s.ch e).busy = true) (h : moveWord e v s = .ok t) : TriggersAtMost 2 s t := by
  obtain ⟨a, b, hw, hc, rfl⟩ := moveWord_cases h
  have hword := record_triggers (x := .word e (s.ch e).readAddr (s.ch e).writeAddr v) rfl s
  have hwrite := busWrite_triggers (e := e) (by rwa [record_ch]) hw
  have hadvance := TriggersAtMost.of_same (k := 0) (setCh_ev a e (advance (s.ch e).readAddr (s.ch e).writeAddr (a.ch e)))
  have hend := TriggersAtMost.of_same (k := 0) (endOfStep_ev b)
  exact (((hword.trans hwrite).trans hadvance).trans (countWord_triggers hc)).trans hend

/-- A bus read records nothing, so the whole step triggers as often as its second part. -/
theorem engineStep_triggers (hb : (s.ch e).busy = true) (h : engineStep e s = .ok t) : TriggersAtMost 2 s t := by
  obtain ⟨v, u, hf, hm⟩ := engineStep_cases h
  obtain ⟨-, -, hread⟩ := fetchWord_cases hf
  have hmove := moveWord_triggers (by rwa [busRead_ch hread]) hm
  obtain ⟨rset, rfl⟩ := busRead_tracks hread
  exact hmove

/-- Settles O22: the statement's filter is that of the trigger events. -/
theorem aWordStepTriggersAtMostTwice : Obligations.AWordStepTriggersAtMostTwice := by
  intro e s t hb h
  obtain ⟨l, hev, hl⟩ := engineStep_triggers hb h
  rw [List.countP_eq_length_filter] at hl
  refine ⟨l, hev, le_of_eq_of_le (congrArg List.length (List.filter_congr fun x _ => ?_)) hl⟩
  cases x <;> rfl

end Sys2Proof.Machine
end

section
/-! SUPPORT. The last word of a block from RAM to the FIFO, whatever its chain does (41_trigger_and_completion.md rules R209 and R210,
42_engine_transfer.md rule R246). -/

namespace Sys2Proof.Machine

open Sys2Proof.Claims

variable {s t : State} {e : Engine} {c : FaultCode}

/-- Up to its chain the step has pushed the word, cleared BUSY and recorded the completion (rules R209 and R246). -/
theorem countWord_pushed_last (hn : (s.ch e).remaining = 1) :
    let p : State := { (readTracked e s).record (wordEvent e s) with
      fifo := s.fifo ++ [sourceWord e s], out := s.out ++ [sourceWord e s] }
    countWord e (p.setCh e (advance (s.ch e).readAddr (s.ch e).writeAddr (p.ch e))) = chain e (lastPushed e s) := by
  intro p
  rw [countWord_of_last (by cases e <;> exact hn), ← complete_pushed]
  cases e <;> rfl

theorem lastPushed_ctrl (e : Engine) (s : State) : ((lastPushed e s).ch e).ctrl = (s.ch e).ctrl := by cases e <;> rfl

/-- A step whose word is written and whose count faults leaves the fault record alone (00_scope.md rule R11). -/
theorem engineTurn_of_count_error {a : State} (h : ReadsRam e s)
    (hw : busWrite e (s.ch e).writeAddr (sourceWord e s) ((readTracked e s).record (wordEvent e s)) = .ok a)
    (hc : countWord e (a.setCh e (advance (s.ch e).readAddr (s.ch e).writeAddr (a.ch e))) = .error c) :
    engineTurn e s = raiseFault c s := by
  have hch : (readTracked e s).ch e = s.ch e := by cases e <;> rfl
  simp only [wordEvent] at hw
  simp only [engineTurn, h.enabled, engineStep, fetchWord_of_readsRam h, moveWord, hch, hw, hc, if_true]

/-- Settles O38, by what the chain answers. -/
theorem theLastWordCompletesAndChains : Obligations.TheLastWordCompletesAndChains := by
  intro e s h hr hd hn
  have hwrite := busWrite_of_fifo (s := (readTracked e s).record (wordEvent e s)) (e := e) (v := sourceWord e s) hr hd
  have hcount := countWord_pushed_last hn
  refine ⟨fun hno => ?_, fun hchain => ⟨fun t ht => engineTurn_pushes_last h hr hd hn hchain ht, fun c hc => ?_⟩⟩
  · refine engineTurn_of_readsRam h hwrite (hcount.trans ?_)
    rw [chain, lastPushed_ctrl, if_neg (by simp [hno])]
  · refine engineTurn_of_count_error h hwrite (hcount.trans ?_)
    rw [chain, lastPushed_ctrl, if_pos hchain, hc]

end Sys2Proof.Machine
end

section
/-! SUPPORT. The other ends of a descriptor before the armed CTE (42_engine_transfer.md rules R241, R248 and R249): the trigger of its
second word is null, ignored or faults, a busy DTE refuses its first word, and a CTE that is not enabled holds. -/

namespace Sys2Proof.Machine

open Sys2Proof.Claims

variable {s t : State} {e : Engine} {v c a d : Word} {r : BitVec 4} {k : FaultCode}

/-! ### Turns with a known word that hold or fault -/

theorem engineTurnWith_of_disabled (h : engineEnabled e s = false) : engineTurnWith e v s = s := by
  simp [engineTurnWith, h]

/-- No engine step is enabled once a fault is recorded (60_exceptions.md rule R321). -/
theorem engineTurnWith_of_fault (h : s.fault = some k) : engineTurnWith e v s = s :=
  engineTurnWith_of_disabled (by simp [engineEnabled, h])

theorem engineTurnWith_of_write_error (h : ReadsRam e s)
    (hw : busWrite e (s.ch e).writeAddr v ((readTracked e s).record (.word e (s.ch e).readAddr (s.ch e).writeAddr v)) = .error k) :
    engineTurnWith e v s = raiseFault k s := by
  have hch : (readTracked e s).ch e = s.ch e := by cases e <;> rfl
  simp only [engineTurnWith, h.enabled, engineStepWith, fetchWord_of_readsRam h, moveWord, hch, hw, if_true]

/-- A descriptor whose first word faults goes no further. -/
theorem loadDescriptor_of_count_fault (h : engineTurnWith .e0 c s = raiseFault k s) : loadDescriptor c a s = raiseFault k s := by
  rw [loadDescriptor, h, engineTurnWith_of_fault (raiseFault_fault s k)]

/-! ### A DTE that cannot take the descriptor -/

/-- A busy DTE refuses the count (40_host_register_access.md rule R141). -/
theorem loadDescriptor_of_busy (h : CteReady d r s) (hb : s.ch1.busy = true) : loadDescriptor c a s = raiseFault .writeBusy s := by
  have hwin : region s.cfg s.ch0.writeAddr = .window 0x78 := by rw [h.writeAddr]; exact region_windowAddr (blkBase_of_wf h.cfgWf) _
  refine loadDescriptor_of_count_fault (engineTurnWith_of_write_error (readsRam_of_cteReady h) ?_)
  exact (busWrite_of_window (s := (readTracked .e0 s).record _) hwin).trans (regWrite_of_busy (off := 0x78) (by decide) (by exact hb) _ _)

/-- Where the trigger of the second word faults, the first word's effect is kept (00_scope.md rule R11). -/
theorem loadDescriptor_of_trigger_error (h : CteReady d r s) (hb : s.ch1.busy = false)
    (ht : trigger .e1 (descriptorLoaded c a d r s) = .error k) : loadDescriptor c a s = raiseFault k (countLoaded c d r s) := by
  have hwin := region_windowAddr (blkBase_of_wf h.cfgWf) 0x7C
  rw [loadDescriptor, engineTurnWith_count h hb]
  refine engineTurnWith_of_write_error (countLoaded_readsRam h c) ?_
  exact (busWrite_of_address (s := (readTracked .e0 (countLoaded c d r s)).record _) hwin hb).trans ht

/-! ### A descriptor that leaves nothing live -/

/-- The end of a step after which nothing is live empties the race sets (20_memory.md rule R79). -/
theorem endOfStep_of_quiet (hl : s.live = false) (hf : s.fault = none) : endOfStep s = { s with rset := [], wset := [] } := by
  simp [endOfStep, hl, hf]

/-- Settles O25: the trigger of the second word is null, so nothing is busy afterwards. -/
theorem sentinelHaltsWithTheFlagSet : Obligations.SentinelHaltsWithTheFlagSet := by
  intro a d r s h hb hen
  have ht := trigger_of_null (e := .e1) (s := descriptorLoaded 0 a d r s) hb hen rfl
  rw [exec, execDescSentinel, conclude_ok h.noFault, loadDescriptor_of_trigger h hb ht,
    endOfStep_of_quiet (by exact hb) (by exact h.noFault)]
  simp [State.record, State.setCh, descriptorLoaded, countLoaded]

/-- Both words before a disabled DTE: they are loaded, and the trigger is ignored. -/
theorem loadDescriptor_of_disabled (h : CteReady d r s) (hb : s.ch1.busy = false) (hen : ctrlEn s.ch1.ctrl = false) :
    loadDescriptor c a s = { s with
      ch0 := { s.ch0 with readAddr := ringInc (ringInc d r) r, writeAddr := windowAddr s.cfg 0x78, remaining := 0, busy := false }
      ch1 := { s.ch1 with reload := c, readAddr := a }
      rset := []
      wset := []
      ev := s.ev ++ [.word .e0 d (windowAddr s.cfg 0x78) c, .word .e0 (ringInc d r) (windowAddr s.cfg 0x7C) a,
        .ignored .e1, .complete .e0] } := by
  have ht := trigger_of_disabled (e := .e1) (s := descriptorLoaded c a d r s) hb hen
  rw [loadDescriptor_of_trigger h hb ht, endOfStep_of_quiet (by exact hb) (by exact h.noFault)]
  simp [State.record, State.setCh, descriptorLoaded, countLoaded]

/-- Settles O26: the descriptor's load before a disabled DTE, one with another DATA_SIZE and a busy one, and by an engine 0 that holds. -/
theorem descriptorAgainstAnUnreadyDte : Obligations.DescriptorAgainstAnUnreadyDte := by
  refine ⟨fun c a d r s h hb hen => ?_, fun c a d r s h hc hb hen hsize => ?_, fun c a d r s h hb => ?_, fun c a s hf hen => ?_⟩
  · simp only [exec, execDescData, execDescSentinel, conclude_ok h.noFault, loadDescriptor_of_disabled h hb hen, and_self]
  · have ht := trigger_of_wrong_size (e := .e1) (s := descriptorLoaded c a d r s) hb hen hc hsize
    rw [exec, execDescData, conclude_ok h.noFault, loadDescriptor_of_trigger_error h hb ht]
    rfl
  · simp only [exec, execDescData, execDescSentinel, conclude_ok h.noFault, loadDescriptor_of_busy h hb]
    exact ⟨rfl, rfl⟩
  · simp only [exec, execDescData, execDescSentinel, conclude_ok hf, loadDescriptor, engineTurnWith_of_disabled hen, and_self]

end Sys2Proof.Machine
end

section
/-! SUPPORT. The alternation of the two engines of a running chained list (41_trigger_and_completion.md rule R214,
43_pipeline_protocol.md rule R285): the CTE's word goes to the idle DTE and the second one hands over to it, the DTE's last word hands
back by its chain. -/

namespace Sys2Proof.Machine

variable {s t u : State} {e : Engine} {v : Word} {cfg : Config} {c : Channel}

/-! ### The phase, channel by channel -/

/-- The CTE's part of the phase: before a count, before an address, or idle. -/
structure CtePhase (cfg : Config) (c : Channel) : Prop where
  ctrl : c.ctrl = ctrlStored (cteCtrl (ctrlReadRing c.ctrl) 3)
  reload : c.reload = 2
  idle : c.busy = false → c.remaining = 0 ∧ c.writeAddr = windowAddr cfg 0x78
  busy : c.busy = true →
    (c.remaining = 2 ∧ c.writeAddr = windowAddr cfg 0x78) ∨ (c.remaining = 1 ∧ c.writeAddr = windowAddr cfg 0x7C)

/-- The DTE's part: armed, and busy exactly while words remain. -/
structure DtePhase (cfg : Config) (c : Channel) : Prop where
  ctrl : c.ctrl = ctrlStored (dteCtrl .e0)
  target : c.writeAddr = cfg.outFifoAddr
  counts : c.busy = true ↔ c.remaining ≠ 0

theorem Alternating.cte (h : Alternating s) : CtePhase s.cfg s.ch0 := ⟨h.cteCtrlArmed, h.cteReload, h.cteIdle, h.cteBusy⟩

theorem Alternating.dte (h : Alternating s) : DtePhase s.cfg s.ch1 := ⟨h.dteCtrlArmed, h.dteTarget, h.dteCounts⟩

theorem Alternating.dte_idle (h : Alternating s) (hb : s.ch0.busy = true) : s.ch1.busy = false := by
  simpa [atMostOneBusy, hb] using h.oneBusy

theorem Alternating.cte_idle (h : Alternating s) (hb : s.ch1.busy = true) : s.ch0.busy = false := by
  simpa [atMostOneBusy, hb] using h.oneBusy

theorem Alternating.of_phases (hcte : CtePhase s.cfg s.ch0) (hdte : DtePhase s.cfg s.ch1)
    (hone : s.ch0.busy = true → s.ch1.busy = false) : Alternating s where
  cteCtrlArmed := hcte.ctrl
  cteReload := hcte.reload
  cteIdle := hcte.idle
  cteBusy := hcte.busy
  dteCtrlArmed := hdte.ctrl
  dteTarget := hdte.target
  dteCounts := hdte.counts
  oneBusy := by
    unfold atMostOneBusy
    cases hb : s.ch0.busy
    · rfl
    · rw [hone hb]; rfl

/-- The phase speaks of the parameters and of the two channels only. -/
theorem Alternating.congr (h : Alternating s) (hcfg : t.cfg = s.cfg) (h0 : t.ch0 = s.ch0) (h1 : t.ch1 = s.ch1) :
    Alternating t :=
  .of_phases (by rw [hcfg, h0]; exact h.cte) (by rw [hcfg, h1]; exact h.dte) (by rw [h0, h1]; exact h.dte_idle)

/-! ### How the channels move on -/

theorem CtePhase.toAddress (h : CtePhase cfg c) (hb : c.busy = true) (ra : Addr) :
    CtePhase cfg { c with readAddr := ra, writeAddr := windowAddr cfg 0x7C, remaining := 1 } :=
  ⟨h.ctrl, h.reload, fun hidle => (by cases hb.symm.trans hidle), fun _ => .inr ⟨rfl, rfl⟩⟩

theorem CtePhase.toIdle (h : CtePhase cfg c) (ra : Addr) :
    CtePhase cfg { c with readAddr := ra, writeAddr := windowAddr cfg 0x78, remaining := 0, busy := false } :=
  ⟨h.ctrl, h.reload, fun _ => ⟨rfl, rfl⟩, nofun⟩

/-- The DTE's chain starts the idle CTE before the next count (43_pipeline_protocol.md rule R285). -/
theorem CtePhase.toCount (h : CtePhase cfg c) (hb : c.busy = false) :
    CtePhase cfg { c with remaining := c.reload, busy := true } := by
  obtain ⟨-, hwa⟩ := h.idle hb
  exact ⟨h.ctrl, h.reload, nofun, fun _ => .inl ⟨h.reload, hwa⟩⟩

/-- What the CTE's words and a null trigger write of the DTE. -/
theorem DtePhase.load (h : DtePhase cfg c) (ra n : Word) (done : Bool) :
    DtePhase cfg { c with readAddr := ra, reload := n, done := done } := ⟨h.ctrl, h.target, h.counts⟩

/-- What a block's start, a word and the block's end write of the DTE. -/
theorem DtePhase.count (h : DtePhase cfg c) {n : Word} {busy : Bool} (hn : busy = true ↔ n ≠ 0) (ra : Addr) :
    DtePhase cfg { c with readAddr := ra, remaining := n, busy := busy } := ⟨h.ctrl, h.target, hn⟩

/-- A word moves the DTE's read address alone. -/
theorem advance_of_dteCtrl (h : c.ctrl = ctrlStored (dteCtrl .e0)) (ra wa : Addr) :
    advance ra wa c = { c with readAddr := ringInc ra 0 } := by
  obtain ⟨-, -, hincr, hincw, hrring, -⟩ := dteCtrl_fields .e0
  simp only [advance, h, hincr, hincw, hrring, if_true, Bool.false_eq_true, if_false]

/-! ### Steps of the alternation -/

/-- A step from `s` to `t` that keeps the phase, and LIVE but for the DTE's null trigger. -/
structure AlternatesTo (s t : State) : Prop where
  phase : Alternating t
  live : s.live = true → t.live = true ∨ Recorded (.null .e1) s t

theorem AlternatesTo.trans (h : AlternatesTo s t) (h' : AlternatesTo t u) (hst : Grows s t) (htu : Grows t u) :
    AlternatesTo s u where
  phase := h'.phase
  live hs := by
    obtain ht | hnull := h.live hs
    · exact (h'.live ht).imp_right (.before hst)
    · exact .inr (hnull.after htu)

/-- What leaves the parameters and the channels alone. -/
theorem AlternatesTo.of_same (h : Alternating s) (hcfg : t.cfg = s.cfg) (h0 : t.ch0 = s.ch0) (h1 : t.ch1 = s.ch1) :
    AlternatesTo s t :=
  ⟨h.congr hcfg h0 h1, fun hs => .inl (by rwa [State.live, h0, h1])⟩

theorem AlternatesTo.endOfStep (h : AlternatesTo s t) : AlternatesTo s (endOfStep t) where
  phase := h.phase.congr (by simp) (by simp) (by simp)
  live hs := (h.live hs).imp (by simp) fun hnull => hnull.after (endOfStep_grows t)

/-! ### The CTE's two words -/

/-- A trigger of an enabled engine that answers is null or starts a block (41_trigger_and_completion.md rules R204 and R206). -/
theorem trigger_cases_of_enabled (hen : ctrlEn (s.ch e).ctrl = true) (h : trigger e s = .ok t) :
    ((s.ch e).reload = 0 ∧ t = (s.setCh e { s.ch e with done := true }).record (.null e)) ∨
    ((s.ch e).reload ≠ 0 ∧ t = (s.setCh e { s.ch e with remaining := (s.ch e).reload, busy := true }).record
      (.block e (s.ch e).readAddr (s.ch e).writeAddr (s.ch e).reload)) := by
  obtain ⟨-, ⟨hdis, -⟩ | ⟨-, hnull⟩ | ⟨-, hr, -, ht⟩⟩ := trigger_cases h
  · rw [hen] at hdis; cases hdis
  · exact .inl hnull
  · exact .inr ⟨hr, ht⟩

/-- The count's word: the DTE stays idle, and the CTE goes on to the address. -/
theorem Alternating.moveWord_count (h : Alternating s) (hwf : Config.wf s.cfg = true) (hb : s.ch0.busy = true)
    (hn : s.ch0.remaining = 2) (hwa : s.ch0.writeAddr = windowAddr s.cfg 0x78) (hm : moveWord .e0 v s = .ok t) :
    AlternatesTo s t := by
  have hblk := blkBase_of_wf hwf
  obtain ⟨a, b, hw, hc, rfl⟩ := moveWord_cases hm
  rw [ch_e0, hwa, busWrite_of_count (s := s.record _) (region_windowAddr hblk _) (h.dte_idle hb)] at hw
  cases hw
  rw [countWord_of_more (by show s.ch0.remaining ≠ 1; rw [hn]; decide)] at hc
  cases hc
  refine AlternatesTo.endOfStep ⟨.of_phases ?_ (h.dte.load _ _ _) fun _ => h.dte_idle hb, fun _ => .inl (live_of_busy _ .e0 hb)⟩
  show CtePhase s.cfg { advance s.ch0.readAddr s.ch0.writeAddr s.ch0 with remaining := s.ch0.remaining - 1 }
  rw [advance_of_cteCtrl h.cteCtrlArmed, hwa, ringInc_count_offset hblk, hn]
  exact h.cte.toAddress hb _

/-- The address's word: the CTE is idle before the next count, and the DTE takes over unless its count is 0. -/
theorem Alternating.moveWord_address (h : Alternating s) (hwf : Config.wf s.cfg = true) (hb : s.ch0.busy = true)
    (hn : s.ch0.remaining = 1) (hwa : s.ch0.writeAddr = windowAddr s.cfg 0x7C) (hm : moveWord .e0 v s = .ok t) :
    AlternatesTo s t := by
  have hblk := blkBase_of_wf hwf
  obtain ⟨hen, -⟩ := dteCtrl_fields .e0
  obtain ⟨-, -, -, -, -, -, -, hchain⟩ := cteCtrl_fields (ctrlReadRing s.ch0.ctrl)
  obtain ⟨a, b, hw, hc, rfl⟩ := moveWord_cases hm
  rw [ch_e0, hwa, busWrite_of_address (s := s.record _) (region_windowAddr hblk _) (h.dte_idle hb)] at hw
  have hkept : a.ch0 = s.ch0 := by
    obtain ⟨-, hother, -⟩ := trigger_frame hw
    exact hother .e0 (by decide)
  have hcte : CtePhase s.cfg { advance s.ch0.readAddr s.ch0.writeAddr s.ch0 with
      remaining := s.ch0.remaining - 1, busy := false } := by
    rw [advance_of_cteCtrl h.cteCtrlArmed, hwa, ringInc_address_offset hblk, hn]
    exact h.cte.toIdle _
  have hnochain : ¬ctrlChainEn s.ch0.ctrl = true := by rw [h.cteCtrlArmed, hchain]; exact Bool.false_ne_true
  rw [ch_e0, ch_e0, hkept, countWord_of_last (e := .e0) (by exact hn), chain, if_neg (by exact hnochain)] at hc
  cases hc
  refine AlternatesTo.endOfStep ?_
  obtain ⟨-, rfl⟩ | ⟨hne, rfl⟩ := trigger_cases_of_enabled (e := .e1) (by rw [← h.dteCtrlArmed] at hen; exact hen) hw
  · exact ⟨.of_phases hcte (h.dte.load _ _ _) nofun, fun _ => .inr
      ⟨[.word .e0 s.ch0.readAddr (windowAddr s.cfg 0x7C) v, .null .e1, .complete .e0], by simp, by simp⟩⟩
  · exact ⟨.of_phases hcte ((h.dte.load _ _ _).count (iff_of_true rfl hne) _) nofun, fun _ => .inl rfl⟩

/-! ### The DTE's words -/

/-- A push touches no channel. -/
theorem busWrite_fifo_ch {x : Addr} (hr : region s.cfg x = .fifo) (h : busWrite e x v s = .ok t) :
    t.cfg = s.cfg ∧ t.ch0 = s.ch0 ∧ t.ch1 = s.ch1 := by
  obtain ⟨hram, -⟩ | ⟨off, hwin, -⟩ | ⟨-, -, rfl⟩ := busWrite_cases h
  · cases hr.symm.trans hram
  · cases hr.symm.trans hwin
  · exact ⟨rfl, rfl, rfl⟩

/-- The counter of the DTE: it goes on, or its last word starts the CTE (43_pipeline_protocol.md rule R285). -/
theorem Alternating.countWord_sample (h : Alternating s) (hb : s.ch1.busy = true) {ra wa : Addr}
    (hc : countWord .e1 (s.setCh .e1 (advance ra wa s.ch1)) = .ok t) : AlternatesTo s t := by
  have hidle := h.cte_idle hb
  obtain ⟨hen, -⟩ := cteCtrl_fields (ctrlReadRing s.ch0.ctrl)
  rw [← h.cteCtrlArmed] at hen
  obtain ⟨-, -, -, -, -, -, -, hchain, hto⟩ := dteCtrl_fields .e0
  rw [← h.dteCtrlArmed] at hchain hto
  rw [advance_of_dteCtrl h.dteCtrlArmed] at hc
  obtain ⟨hmore, rfl⟩ | ⟨hlast, hc⟩ := countWord_cases hc
  · have hdte := h.dte.count (iff_of_true hb hmore) (ringInc ra 0)
    exact ⟨.of_phases h.cte hdte fun hcte => (by cases hidle.symm.trans hcte), fun _ => .inl (live_of_busy _ .e1 hb)⟩
  · have hdte := h.dte.count (busy := false) (iff_of_false Bool.false_ne_true (not_not_intro hlast)) (ringInc ra 0)
    obtain ⟨hno, -⟩ | ⟨-, hc⟩ := chain_cases hc
    · cases hchain.symm.trans hno
    · simp only [record_ch, setCh_ch_same, hto] at hc
      obtain ⟨h0, -⟩ | ⟨-, rfl⟩ := trigger_cases_of_enabled (e := .e0) (by exact hen) hc
      · cases h.cteReload.symm.trans h0
      · exact ⟨.of_phases (h.cte.toCount hidle) hdte fun _ => rfl, fun _ => .inl rfl⟩

/-- A DTE's word goes to the FIFO. -/
theorem Alternating.moveWord_sample (h : Alternating s) (hwf : Config.wf s.cfg = true) (hb : s.ch1.busy = true)
    (hm : moveWord .e1 v s = .ok t) : AlternatesTo s t := by
  obtain ⟨a, b, hw, hc, rfl⟩ := moveWord_cases hm
  have hfifo : region s.cfg s.ch1.writeAddr = .fifo := by rw [h.dteTarget]; exact (region_outFifoAddr hwf).1
  obtain ⟨hcfg, h0, h1⟩ := busWrite_fifo_ch (s := s.record _) hfifo hw
  have hpush := AlternatesTo.of_same (t := a) h hcfg h0 h1
  have hgrows := (record_grows _ s).trans (busWrite_grows hw)
  have hcount := hpush.phase.countWord_sample (by rwa [h1]) hc
  exact (hpush.trans hcount hgrows ((setCh_grows _ _ a).trans (countWord_grows hc))).endOfStep

/-! ### The turns -/

/-- A word step of either engine. -/
theorem Alternating.engineStep (h : Alternating s) (hwf : Config.wf s.cfg = true) (hb : (s.ch e).busy = true)
    (hstep : engineStep e s = .ok t) : AlternatesTo s t := by
  obtain ⟨v, u, hf, hm⟩ := engineStep_cases hstep
  obtain ⟨-, -, hread⟩ := fetchWord_cases hf
  obtain ⟨rset, rfl⟩ := busRead_tracks hread
  have hu : Alternating { s with rset := rset } := h.congr rfl rfl rfl
  have hmove : AlternatesTo { s with rset := rset } t := by
    cases e with
    | e0 =>
      obtain ⟨hn, hwa⟩ | ⟨hn, hwa⟩ := h.cteBusy hb
      · exact hu.moveWord_count hwf hb hn hwa hm
      · exact hu.moveWord_address hwf hb hn hwa hm
    | e1 => exact hu.moveWord_sample hwf hb hm
  exact ⟨hmove.phase, hmove.live⟩

/-- No engine step is enabled once a fault is recorded (60_exceptions.md rule R321). -/
theorem engineTurn_of_fault {k : FaultCode} (h : s.fault = some k) : engineTurn e s = s :=
  engineTurn_of_disabled (by simp [engineEnabled, h])

/-- A turn of either engine that does not leave a fault record. -/
theorem Alternating.engineTurn (h : Alternating s) (hwf : Config.wf s.cfg = true) (e : Engine)
    (hf : (engineTurn e s).fault = none) : AlternatesTo s (engineTurn e s) := by
  obtain ⟨-, hturn⟩ | ⟨hen, ⟨t, ht, hturn⟩ | ⟨c, -, hturn⟩⟩ := engineTurn_cases e s <;> rw [hturn] at hf ⊢
  · exact .of_same h rfl rfl rfl
  · obtain ⟨-, hb, -⟩ := engineEnabled_iff.1 hen
    exact h.engineStep hwf hb ht
  · cases hf

/-- Settles O56, by the turn: a descriptor turn is one or two turns of engine 0, and an output turn touches no channel. -/
theorem theEnginesAlternate : Obligations.TheEnginesAlternate := by
  intro s t x hwf h hhost hreset hfinish hfault
  obtain ⟨u, hu, rfl⟩ := finish_next hfinish
  rw [endOfStep_fault] at hfault
  suffices hturn : AlternatesTo s u from ⟨hturn.endOfStep.phase, hturn.endOfStep.live⟩
  obtain ⟨hx, -⟩ | ⟨hf, ⟨hx, -⟩ | ⟨e, -, rfl⟩ | ⟨-, hd⟩ | ⟨-, rfl⟩⟩ := takeTurn_cases hu
  · exact absurd hx hreset
  · exact absurd hx hhost
  · exact h.engineTurn hwf e hfault
  · obtain rfl | rfl := descriptorTurn_effect hf hd
    · exact h.engineTurn hwf .e0 hfault
    · have hfirst : (engineTurn .e0 s).fault = none := by
        cases hc : (engineTurn .e0 s).fault with
        | none => rfl
        | some c => rw [engineTurn_of_fault hc, hc] at hfault; cases hfault
      have halt := h.engineTurn hwf .e0 hfirst
      have hgrows := engineTurn_grows .e0 s
      exact halt.trans (halt.phase.engineTurn (hgrows.cfg ▸ hwf) .e0 hfault) hgrows (engineTurn_grows .e0 _)
  · exact .of_same h rfl rfl rfl

end Sys2Proof.Machine
end

section
/-! SUPPORT. The sequencer's turns where nothing has faulted (42_engine_transfer.md rules R240, R252 and R255): the descriptor turn
is two words of engine 0, an output step takes the FIFO's oldest word, and with nothing live no other turn does anything. -/

namespace Sys2Proof.Machine

open Sys2Proof.Claims

variable {s : State}

/-! ### A turn without a fault -/

/-- Without a fault each turn is its agent's step (20_memory.md rule R75). -/
theorem takeTurn_engine (hf : s.fault = none) (e : Engine) : takeTurn (.engine e) s = .next (engineTurn e s) := by
  simp only [takeTurn, hf]

theorem takeTurn_descriptor (hf : s.fault = none) : takeTurn .descriptor s = descriptorTurn s := by
  simp only [takeTurn, hf]

theorem takeTurn_output (hf : s.fault = none) : takeTurn .output s = .next (outputStep s) := by
  simp only [takeTurn, hf]

/-- Settles O27: without a fault the turn is the descriptor's, and that is two words of engine 0. -/
theorem descriptorTurnIsTwoEngineSteps : Obligations.DescriptorTurnIsTwoEngineSteps := by
  intro s hf hat
  rw [takeTurn_descriptor hf]
  exact descriptorTurn_of_atDescriptor hf hat

/-- Settles O36: the word read is pushed, more words remain, and the busy engine's step keeps the race sets. -/
theorem aWordGoesFromRamToTheFifo : Obligations.AWordGoesFromRamToTheFifo :=
  fun _ _ hreads hfifo hroom hmore => engineTurn_pushes hreads hfifo hroom hmore

/-- Settles O44: the output step keeps the tail of the FIFO. -/
theorem outputStepRemovesTheOldestWord : Obligations.OutputStepRemovesTheOldestWord := by
  intro s v rest hf hfifo
  rw [takeTurn_output hf, outputStep, hfifo, List.tail_cons]

/-! ### Nothing live -/

/-- Where engine 0 holds, its descriptor turn holds: it is one or two of its word steps (log entry 5). -/
theorem descriptorTurn_of_held (hf : s.fault = none) (hheld : engineTurn .e0 s = s) : descriptorTurn s = .next s := by
  cases hat : atDescriptor s with
  | false => simp [descriptorTurn, hat, hheld]
  | true => rw [descriptorTurn_of_atDescriptor hf hat, hheld, hheld]

/-- Settles O57: idle engines hold, so only the output step can change anything, and it only takes the FIFO's oldest word. -/
theorem noStepOfTheSequencerLeavesHalted : Obligations.NoStepOfTheSequencerLeavesHalted := by
  intro s x hf hquiet hhost hreset
  have held : ∀ e, engineTurn e s = s := fun e => engineTurn_of_idle (not_busy_of_quiet s e hquiet)
  cases x with
  | host => exact absurd rfl hhost
  | engine e => exact ⟨s.fifo, by rw [takeTurn_engine hf, held e], .inl rfl⟩
  | descriptor => exact ⟨s.fifo, by rw [takeTurn_descriptor hf, descriptorTurn_of_held hf (held .e0)], .inl rfl⟩
  | output => exact ⟨s.fifo.tail, takeTurn_output hf, .inr rfl⟩
  | blockReset => exact absurd rfl hreset

end Sys2Proof.Machine
end

section
/-! SUPPORT. Infinite runs (20_memory.md rule R75): what every turn keeps holds from any state of a run on, and in a weakly fair run
the output engine makes room in the FIFO (42_engine_transfer.md rules R241, R255 and R256). -/

namespace Sys2Proof.Machine

variable {s : State} {states : Nat → State} {turns : Nat → Turn} {n m : Nat}

/-! ### What a run keeps -/

/-- What every turn keeps with the end of its step holds from any state of a run on. -/
theorem IsRun.keeps {P : State → Prop} (hrun : IsRun states turns)
    (hkeep : ∀ {x s t}, takeTurn x s = .next t → P s → P (endOfStep t)) (hn : P (states n)) (hnm : n ≤ m) : P (states m) := by
  induction m, hnm using Nat.le_induction with
  | base => exact hn
  | succ m _ ih =>
    obtain ⟨t, hturn, hnext⟩ := finish_next (hrun m)
    rw [hnext]
    exact hkeep hturn ih

theorem IsRun.invariant (hrun : IsRun states turns) (hinv : Invariant (states n)) (hnm : n ≤ m) : Invariant (states m) :=
  hrun.keeps (fun hturn h => h.takeTurn hturn) hinv hnm

/-- No step of a run changes the parameters (00_scope.md rule R9). -/
theorem IsRun.cfg (hrun : IsRun states turns) (hnm : n ≤ m) : (states m).cfg = (states n).cfg :=
  hrun.keeps (P := fun s => s.cfg = (states n).cfg)
    (fun hturn h => ((takeTurn_grows hturn).trans (endOfStep_grows _)).cfg.trans h) rfl hnm

/-! ### Room in the FIFO -/

theorem dreq_iff : s.dreq = true ↔ s.fifo.length < s.cfg.outFifoDepth := by
  simp [State.dreq]

/-- After an output step a FIFO within its bound has room for a word (20_memory.md rule R70). -/
theorem outputStep_dreq (hbound : s.fifo.length ≤ s.cfg.outFifoDepth) (hdepth : 1 ≤ s.cfg.outFifoDepth) :
    (outputStep s).dreq = true := by
  rw [dreq_iff]
  simp only [outputStep, List.length_tail]
  omega

@[simp] theorem endOfStep_dreq (s : State) : (endOfStep s).dreq = s.dreq := by
  simp [State.dreq]

/-- Where the output step is not enabled and nothing has faulted, the FIFO is empty (42_engine_transfer.md rule R255). -/
theorem fifo_nil_of_output_disabled (hoff : turnEnabled .output s = false) (hf : s.fault = none) : s.fifo = [] := by
  simpa [turnEnabled, hf] using hoff

/-- Settles O60: fairness gives a later state where the output turn is taken, which makes room, or is not enabled, which a fault or
an empty FIFO accounts for. -/
theorem aFairRunLiftsTheHold : Obligations.AFairRunLiftsTheHold := by
  intro states turns n hrun hfair hinv hdepth _
  obtain ⟨m, hnm, hoff⟩ := hfair .output (by simp) (n + 1)
  have hlater : n ≤ m := Nat.le_of_succ_le hnm
  have hdepth_m : 1 ≤ (states m).cfg.outFifoDepth := by rwa [hrun.cfg hlater]
  cases hf : (states m).fault with
  | some c => exact ⟨m, hnm, .inr (by simp [hf])⟩
  | none =>
    obtain htaken | hoff := hoff
    · obtain ⟨t, hturn, hnext⟩ := finish_next (hrun m)
      rw [htaken, takeTurn_output hf] at hturn
      cases hturn
      refine ⟨m + 1, Nat.lt_succ_of_le hlater, .inl ?_⟩
      rw [hnext, endOfStep_dreq]
      exact outputStep_dreq (hrun.invariant hinv hlater).fifoBound hdepth_m
    · refine ⟨m, hnm, .inl (dreq_iff.2 ?_)⟩
      rw [fifo_nil_of_output_disabled hoff hf]
      exact hdepth_m

end Sys2Proof.Machine
end

section
/-! SUPPORT. The fault state (60_exceptions.md rule R321): no command and no agent's turn leaves it, and block reset does
(70_reset_and_hazards.md rule R350). -/

namespace Sys2Proof.Machine

variable {s : State} {c : FaultCode}

/-- A turn of the host, an engine, the descriptor or the output engine asks for the fault record before anything else. -/
theorem takeTurn_stuck {x : Turn} (hf : s.fault = some c) (hx : x ≠ .blockReset) : takeTurn x s = .fault (.stuck c) := by
  cases x with
  | host => simp only [takeTurn, hf]
  | engine e => simp only [takeTurn, hf]
  | descriptor => simp only [takeTurn, hf]
  | output => simp only [takeTurn, hf]
  | blockReset => exact absurd rfl hx

/-- Block reset is enabled in every state (70_reset_and_hazards.md rule R350). -/
theorem takeTurn_blockReset (s : State) : takeTurn .blockReset s = .next (blockReset s) := rfl

/-- Settles O32: every command and every turn but block reset looks at the fault record first, and block reset clears it. -/
theorem faultStopsEveryAgentUntilReset : Obligations.FaultStopsEveryAgentUntilReset := by
  intro s c hf
  exact ⟨fun _ => exec_stuck hf, fun _ hx => takeTurn_stuck hf hx,
    blockReset s, takeTurn_blockReset s, blockReset_fault s⟩

end Sys2Proof.Machine
end

section
/-! SUPPORT. The launch state (70_reset_and_hazards.md rule R352): what block reset makes of any state
(10_state.md rule R31), and legal parameters (00_scope.md rule R9). -/

namespace Sys2Proof.Machine

/-- Block reset always ends in the block reset state (10_state.md rule R31). -/
theorem inBlockReset_blockReset (s : State) : inBlockReset (blockReset s) = true :=
  inBlockReset_iff.2 ⟨blockReset_ch0 s, blockReset_ch1 s, blockReset_rset s, blockReset_wset s, blockReset_fault s⟩

/-- A block reset finds nothing to change in the launch state. -/
theorem blockReset_reset : blockReset State.reset = State.reset := rfl

/-- The launch parameters are legal: the window's base ends in a zero byte, the FIFO port is a word address outside the window
and the RAM, and the RAM's one run stays clear of the window. -/
theorem reset_cfg_wf : Config.wf State.reset.cfg = true := by decide

/-- Settles O35: the launch state is its own block reset, and it is built with nothing in `FIFO`, `OUT` and `EV`. -/
theorem launchStateIsBlockReset : Obligations.LaunchStateIsBlockReset := by
  have hreset : inBlockReset State.reset = true := by
    rw [← blockReset_reset]
    exact inBlockReset_blockReset State.reset
  exact ⟨hreset, rfl, rfl, rfl, reset_cfg_wf⟩

end Sys2Proof.Machine
end
